-- ==== Sys2Proof/Word.lean ====
section
/-! DEFINITION. The word types of the ART accelerator (spec 00_scope.md R6, R8): every value the
hardware holds or compares is an unsigned bit vector; a line number is one of 64 names. -/

namespace Sys2Proof

/-- Eight bits of the addressed memory. -/
abbrev Byte := BitVec 8

/-- A 32-bit value: an access address, a segment, the register ART_CTR (R6 `ADDR_BITS`, `SEG_BITS`). -/
abbrev Word := BitVec 32

/-- A 64-bit beat of the AXI master port (R6 `AXIM_BITS`). -/
abbrev DWord := BitVec 64

/-- A page index, PCACHEADDR or address bits 31:20 (R6 `PAGE_BITS`). -/
abbrev Page := BitVec 12

/-- A line index, address bits 19:5 (R6 `INDEX_BITS`). -/
abbrev Index := BitVec 15

/-- The number of a cache memory line, 0 to 63 (R28). -/
abbrev LineNo := Fin 64

end Sys2Proof
end

