-- ==== Sys2Proof/Config.lean ====
section
/-! DEFINITION. What an implementation or the platform fixes (spec 00_scope.md R7, 92_eei_decisions.md).
Each open parameter, and each value the hardware chooses under no law the spec gives (00_scope.md R11
`draw(S)`), is a constant with no body, so that a claim holds for every value of it. -/

namespace Sys2Proof

/-- D10, R102: which access that qualifies is "the first cacheable access". -/
inductive FirstAccessPolicy where
  | once | enable | run | any
  deriving DecidableEq, Repr, Inhabited

/-- D11, R141: which line a refill takes. -/
inductive VictimPolicy where
  | lru | any
  deriving DecidableEq, Repr, Inhabited

/-- D17: what the requester sees when the first beat of its refill fails. -/
inductive ErrorResponse where
  | propagate | retryNoncacheable
  deriving DecidableEq, Repr, Inhabited

/-- D20, R168: whether writes to the page are detected while EN = 0. -/
inductive DetectWhenDisabled where
  | yes | no | either
  deriving DecidableEq, Repr, Inhabited

/-- D21, R168: whether the lines stay valid when EN is cleared. -/
inductive KeepOnDisable where
  | keep | invalidate | either
  deriving DecidableEq, Repr, Inhabited

/-- D5, R27: a 32-bit write of ART_CTR that does not keep the reserved bits is given no meaning
(`refuse`), or is taken while the reserved bits keep their reset value (`ignore`). -/
inductive ReservedPolicy where
  | refuse | ignore
  deriving DecidableEq, Repr, Inhabited

/-- D6, D7: narrow accesses of ART_CTR. `stated`: a narrow write has no effect and a narrow read gives
the addressed bytes (the spec's `no_effect` and `bytes`). `unstated`: the spec's `refuse`; here the
access is carried out and what it leaves open (EN after a write over byte 0, the value read) is a free
value, so that nothing can be proved from it. DESIGN CHOICE, safe (notes/assumptions/18.md, 19.md). -/
inductive NarrowCtrAccess where
  | unstated | stated
  deriving DecidableEq, Repr, Inhabited

/-- D24, R190: which accesses of ART_CTR need a privileged requester: none, the writes, or reads and writes. -/
inductive PrivCheck where
  | none | writes | accesses
  deriving DecidableEq, Repr, Inhabited

/-- D1: the base address of the register block. -/
opaque Config.artBase : Word

/-- D2: the size of the register block in bytes. -/
opaque Config.artBlockBytes : Nat

/-- D10. -/
opaque Config.firstAccessPolicy : FirstAccessPolicy

/-- D11. -/
opaque Config.victimPolicy : VictimPolicy

/-- D17. -/
opaque Config.errorResponse : ErrorResponse

/-- D20. -/
opaque Config.writeDetectWhenDisabled : DetectWhenDisabled

/-- D21. -/
opaque Config.keepOnDisable : KeepOnDisable

/-- D5. -/
opaque Config.reservedPolicy : ReservedPolicy

/-- D6, D7. -/
opaque Config.narrowCtrAccess : NarrowCtrAccess

/-- D24. -/
opaque Config.privCheck : PrivCheck

/-! ### Draws -/

/-- One value for each kind of draw an event may take (R11 `draw(S)`); no event takes two of one kind. -/
structure Draws where
  /-- Policy `any` of D10: a qualifying access is handled as the first. -/
  first : Bool
  /-- D11: the line a refill takes, or where the search for an invalid line begins. -/
  victim : LineNo
  /-- D20 `either`: a write to the page is detected though EN = 0. -/
  detectDisabled : Bool
  /-- D21 `either`: clearing EN invalidates. -/
  dropOnDisable : Bool
  /-- D19: a change of the page by another writer is detected. -/
  detectOther : Bool
  /-- D17: the beats after a failing one are still read. -/
  readRest : Bool
  /-- D15: a fetch that matches the buffer is served between two beats. -/
  serveBetween : Bool
  /-- R62, R148: the refill's next beat comes before a change of the environment that is next. -/
  beatFirst : Bool
  /-- D6 unstated: EN after a narrow write over byte 0. -/
  narrowEn : Bool
  /-- D7 unstated: the value a narrow read gives. -/
  narrowRead : Word
  /-- D24: an access of ART_CTR that is turned away is answered OKAY, not ERROR. -/
  deniedOkay : Bool
  /-- D24: what a read of ART_CTR that is turned away gives, if it is answered OKAY. -/
  deniedRead : Word
  deriving DecidableEq, Repr, Inhabited

/-- The draws that stand for the `n`-th event: free values. -/
opaque Config.draws : Nat → Draws

/-! ### Contents after the event RESET, which 10_state.md R40 calls unspecified (D4, D13): free values -/

/-- The index field of a line. -/
opaque Config.resetIndex : Nat → LineNo → Index

/-- A segment of a line. -/
opaque Config.resetSeg : Nat → LineNo → Fin 8 → Word

/-- The index field of the buffer. -/
opaque Config.resetBufIndex : Nat → Index

/-- A segment of the buffer. -/
opaque Config.resetBufSeg : Nat → Fin 8 → Word

/-- A bit `buf.have[j]`. -/
opaque Config.resetBufArrived : Nat → Fin 4 → Bool

/-- The recency order, as a sequence of uses that gives it: every order of the 64 lines is given by one. -/
opaque Config.resetUses : Nat → List LineNo

end Sys2Proof
end

