-- ==== Sys2Proof/Syntax.lean ====
section
/-! DEFINITION. The syntax: one constructor of `Instr` for each row of spec/opcode_table.json, with the
operands that row's rule names. The ART decodes no instruction words (30_encoding.md R80): an
"instruction" is a class of bus transaction, a class of register access or an internal event. -/

namespace Sys2Proof

/-- The width of an access (00_scope.md R9 `size`). -/
inductive Size where
  | b8 | b16 | b32
  deriving DecidableEq, Repr, Inhabited

/-- The two widths that are narrower than ART_CTR (44_register_access.md R182, R183). -/
inductive Narrow where
  | b8 | b16
  deriving DecidableEq, Repr, Inhabited

/-- The transaction classes and events of R86. `sz`, `cattr`, `addr`, `data` are the fields of R9 that
the class's row leaves open; what the row fixes (write, fetch, and for the cacheable classes size and
cattr) is in the constructor's name. -/
inductive Instr where
  /-- TXN.REFUSED, R86: write = 1 and fetch = 1. -/
  | txnRefused (sz : Size) (cattr : Bool) (addr data : Word)
  /-- WRITE.PAGE, R162: write access to the cacheable page. -/
  | writePage (sz : Size) (cattr : Bool) (addr data : Word)
  /-- WRITE.OTHER, R106: write access outside the cacheable page. -/
  | writeOther (sz : Size) (cattr : Bool) (addr data : Word)
  /-- DREAD, R105: data read. -/
  | dread (sz : Size) (cattr : Bool) (addr : Word)
  /-- IFETCH.NC, R104: instruction fetch that does not qualify. -/
  | ifetchNc (sz : Size) (cattr : Bool) (addr : Word)
  /-- IFETCH.C.FIRST, R107: the first cacheable access. -/
  | ifetchCFirst (addr : Word)
  /-- IFETCH.C.HITB, R122: cache hit with the cache buffer. -/
  | ifetchCHitb (addr : Word)
  /-- IFETCH.C.HITL, R121: cache hit with a cache memory line. -/
  | ifetchCHitl (addr : Word)
  /-- IFETCH.C.MISS, R140: cacheable fetch with no compare match. -/
  | ifetchCMiss (addr : Word)
  /-- CTR.RD32, R180: 32-bit read of ART_CTR. -/
  | ctrRd32
  /-- CTR.WR32, R181: 32-bit write of ART_CTR. -/
  | ctrWr32 (w : Word)
  /-- CTR.WRN, R182: 8-bit or 16-bit write of ART_CTR at a byte offset 0 to 3. -/
  | ctrWrn (off : BitVec 2) (n : Narrow) (data : Word)
  /-- CTR.RDN, R183: 8-bit or 16-bit read of ART_CTR at a byte offset 0 to 3. -/
  | ctrRdn (off : BitVec 2) (n : Narrow)
  /-- REG.OTHER, R188: access to any other offset of the register area. -/
  | regOther (write : Bool) (sz : Size) (off data : Word)
  /-- REFILL.BEAT, R143: one 64-bit transfer of the refill. -/
  | refillBeat
  /-- REFILL.ERR, R147: a data transfer error during refill. -/
  | refillErr
  /-- INVALIDATE.ALL, R161: flag every line and the buffer invalid. -/
  | invalidateAll
  /-- RESET, R230. -/
  | reset
  deriving DecidableEq, Repr

end Sys2Proof
end

