-- ==== Sys2Proof/WellFormed.lean ====
section
/-! DEFINITION. Which instruction terms stand for a transfer that can occur: an access is aligned to its
width (20_memory.md R59, decision D9; 90_conflicts.md C11 for register accesses), its write data has no
more bits than its width (00_scope.md R9), and a REG.OTHER offset is not one of the bytes of ART_CTR. -/

namespace Sys2Proof

/-- The address is a multiple of the width (R59). -/
def Size.alignedTo : Size → Word → Bool
  | .b8, _ => true
  | .b16, a => a.extractLsb' 0 1 == 0
  | .b32, a => a.extractLsb' 0 2 == 0

/-- The data has no bit above the width (R9: `wdata : size bits`). -/
def Size.holds : Size → Word → Bool
  | .b8, d => d.extractLsb' 8 24 == 0
  | .b16, d => d.extractLsb' 16 16 == 0
  | .b32, _ => true

/-- A narrow width as a width. -/
def Narrow.toSize : Narrow → Size
  | .b8 => .b8
  | .b16 => .b16

/-- The term stands for a transfer or event that can occur. -/
def Instr.wellFormed : Instr → Bool
  | .txnRefused sz _ a d => sz.alignedTo a && sz.holds d
  | .writePage sz _ a d => sz.alignedTo a && sz.holds d
  | .writeOther sz _ a d => sz.alignedTo a && sz.holds d
  | .dread sz _ a => sz.alignedTo a
  | .ifetchNc sz _ a => sz.alignedTo a
  | .ifetchCFirst a => Size.b32.alignedTo a
  | .ifetchCHitb a => Size.b32.alignedTo a
  | .ifetchCHitl a => Size.b32.alignedTo a
  | .ifetchCMiss a => Size.b32.alignedTo a
  | .ctrRd32 => true
  | .ctrWr32 _ => true
  | .ctrWrn off n d => n.toSize.alignedTo (off.setWidth 32) && n.toSize.holds d
  | .ctrRdn off n => n.toSize.alignedTo (off.setWidth 32)
  | .regOther write sz off d =>
      sz.alignedTo off && !(off.extractLsb' 2 30 == 0) && sz.holds d && (write || d == 0)
  | .refillBeat => true
  | .refillErr => true
  | .invalidateAll => true
  | .reset => true

end Sys2Proof
end

