-- ==== Sys2Proof/Decode.lean ====
section
/-! DEFINITION. The address fields (20_memory.md R51, 30_encoding.md R81, R85), the sorting of a transfer
into its class (30_encoding.md R86), and the encoder.

A transfer is nine bytes, the model's own layout of R92's encoding "the 5-bit attr followed by the
32-bit address, and for a write the data" (DESIGN CHOICE, notes/assumptions/1.md): byte 0 has `attr`
(R84) in bits 4:0 and the kind of transfer in bits 7:5 (0 a slave-port transaction, 1 a register
access); bytes 1 to 4 the address, or for a register access the offset; bytes 5 to 8 the write data.
Each multi-byte field has its least significant byte first. -/

namespace Sys2Proof

/-! ### Address fields, R51 and R85 -/

/-- `page(addr)`: address bits 31:20. -/
def pageOf (a : Word) : Page := a.extractLsb' 20 12

/-- `index(addr)`: address bits 19:5. -/
def indexOf (a : Word) : Index := a.extractLsb' 5 15

/-- `seg(addr)`: address bits 4:2. -/
def segOf (a : Word) : BitVec 3 := a.extractLsb' 2 3

/-- `quarter(addr)`: address bits 4:3. -/
def quarterOf (a : Word) : BitVec 2 := a.extractLsb' 3 2

/-- `blockbase(addr)`: address bits 31:5 followed by five zeros. -/
def blockBase (a : Word) : Word := a.extractLsb' 5 27 ++ (0 : BitVec 5)

/-! ### What the sorting of a transaction looks at besides the transaction (R86, R100, R102, R120) -/

/-- The part of the state that R86's table reads: the two fields of ART_CTR, whether a qualifying access
would now be "the first" (R102), the index of the buffer if it is valid, and the indexes of the valid
lines (R120: an invalid line or buffer never matches). -/
structure View where
  page : Page
  en : Bool
  firstNow : Bool
  bufTag : Option Index
  lineTags : List Index
  deriving DecidableEq, Repr

/-- What is seen right after reset (10_state.md R40): page 0x000, EN = 0, nothing valid. -/
def View.reset : View :=
  { page := 0, en := false, firstNow := true, bufTag := none, lineTags := [] }

/-- R100, the qualification predicate, for a read (`write = 0`) that is a fetch. -/
def View.qualifies (v : View) (sz : Size) (cattr : Bool) (a : Word) : Bool :=
  sz == .b32 && cattr && pageOf a == v.page && v.en

/-- The condition column of R86 for a class: whether a transaction with these operands, in a state seen
as `v`, belongs to the class. Classes with no condition on the state always do. -/
def View.admits (v : View) : Instr → Bool
  | .writePage _ _ a _ => pageOf a == v.page
  | .writeOther _ _ a _ => !(pageOf a == v.page)
  | .ifetchNc sz cattr a => !(v.qualifies sz cattr a)
  | .ifetchCFirst a => v.qualifies .b32 true a && v.firstNow
  | .ifetchCHitb a => v.qualifies .b32 true a && !v.firstNow && v.bufTag == some (indexOf a)
  | .ifetchCHitl a => v.qualifies .b32 true a && !v.firstNow && !(v.bufTag == some (indexOf a))
      && v.lineTags.contains (indexOf a)
  | .ifetchCMiss a => v.qualifies .b32 true a && !v.firstNow && !(v.bufTag == some (indexOf a))
      && !(v.lineTags.contains (indexOf a))
  | .txnRefused .. => true
  | .dread .. => true
  | .ctrRd32 => true
  | .ctrWr32 _ => true
  | .ctrWrn .. => true
  | .ctrRdn .. => true
  | .regOther .. => true
  | .refillBeat => true
  | .refillErr => true
  | .invalidateAll => true
  | .reset => true

/-! ### Transfers -/

/-- Why a transfer is not one the model gives a meaning to. -/
inductive Reject where
  /-- Not nine bytes. -/
  | badLength
  /-- The kind is neither a slave-port transaction nor a register access. -/
  | unknownKind
  /-- `sz = 0b11`: it cannot occur on a 32-bit port (R90). -/
  | badSize
  /-- The address is not a multiple of the width (R59, D9, U15). -/
  | misaligned
  /-- Write data on a read, or data bits above the width: no such transfer exists (R9). -/
  | strayData
  /-- A register access with a fetch or cattr bit: a register access has offset, direction, width (R86). -/
  | strayAttr
  deriving DecidableEq, Repr

/-- The fields of a transfer. -/
structure Packet where
  kind : BitVec 3
  attr : BitVec 5
  addr : Word
  data : Word
  deriving DecidableEq, Repr

/-- The fields of nine bytes. -/
def Packet.ofBytes : List Byte → Option Packet
  | [b, a0, a1, a2, a3, d0, d1, d2, d3] =>
      some { kind := b.extractLsb' 5 3, attr := b.extractLsb' 0 5,
             addr := a3 ++ a2 ++ a1 ++ a0, data := d3 ++ d2 ++ d1 ++ d0 }
  | _ => none

/-- The four bytes of a word, least significant first. -/
def wordBytes (w : Word) : List Byte :=
  [w.extractLsb' 0 8, w.extractLsb' 8 8, w.extractLsb' 16 8, w.extractLsb' 24 8]

/-- The nine bytes of a transfer. -/
def Packet.toBytes (p : Packet) : List Byte :=
  (p.kind ++ p.attr) :: (wordBytes p.addr ++ wordBytes p.data)

/-- `sz` of R84. -/
def Size.ofKey : BitVec 2 → Option Size
  | 0 => some .b8
  | 1 => some .b16
  | 2 => some .b32
  | _ => none

/-- `sz` of R84. -/
def Size.toKey : Size → BitVec 2
  | .b8 => 0
  | .b16 => 1
  | .b32 => 2

/-- R86: the class of a slave-port transaction, "read from the top; the first row whose conditions all
hold gives the class". -/
def sortTxn (v : View) (write fetch cattr : Bool) (sz : Size) (a d : Word) : Instr :=
  if write && fetch then .txnRefused sz cattr a d
  else if write then
    if pageOf a == v.page then .writePage sz cattr a d else .writeOther sz cattr a d
  else if !fetch then .dread sz cattr a
  else if !(v.qualifies sz cattr a) then .ifetchNc sz cattr a
  else if v.firstNow then .ifetchCFirst a
  else if v.bufTag == some (indexOf a) then .ifetchCHitb a
  else if v.lineTags.contains (indexOf a) then .ifetchCHitl a
  else .ifetchCMiss a

/-- R86, second table: the class of a register access by offset, direction and width. -/
def sortReg (write : Bool) (sz : Size) (off d : Word) : Instr :=
  if off.extractLsb' 2 30 == 0 then
    match sz, write with
    | .b32, false => .ctrRd32
    | .b32, true => .ctrWr32 d
    | .b8, true => .ctrWrn (off.extractLsb' 0 2) .b8 d
    | .b16, true => .ctrWrn (off.extractLsb' 0 2) .b16 d
    | .b8, false => .ctrRdn (off.extractLsb' 0 2) .b8
    | .b16, false => .ctrRdn (off.extractLsb' 0 2) .b16
  else .regOther write sz off d

/-- The class of a transfer, or why it has none. -/
def decodePacket (v : View) (p : Packet) : Except Reject Instr :=
  let write := p.attr.getLsbD 4
  let fetch := p.attr.getLsbD 3
  let cattr := p.attr.getLsbD 2
  match Size.ofKey (p.attr.extractLsb' 0 2) with
  | none => .error .badSize
  | some sz =>
    if !(sz.alignedTo p.addr) then .error .misaligned
    else if !(sz.holds p.data && (write || p.data == 0)) then .error .strayData
    else if p.kind == 0 then .ok (sortTxn v write fetch cattr sz p.addr p.data)
    else if p.kind == 1 then
      if fetch || cattr then .error .strayAttr
      else .ok (sortReg write sz p.addr p.data)
    else .error .unknownKind

/-- The decoder, total on any bytes: the class of the transfer in a state seen as `v` (R86). -/
def decode (v : View) (bs : List Byte) : Except Reject Instr :=
  match Packet.ofBytes bs with
  | none => .error .badLength
  | some p => decodePacket v p

/-! ### The encoder -/

/-- R84: `attr = write ++ fetch ++ cattr ++ sz`. -/
def attrKey (write fetch cattr : Bool) (sz : Size) : BitVec 5 :=
  BitVec.ofBool write ++ BitVec.ofBool fetch ++ BitVec.ofBool cattr ++ sz.toKey

/-- A slave-port transaction (R92). -/
def txnBytes (write fetch cattr : Bool) (sz : Size) (a d : Word) : List Byte :=
  Packet.toBytes { kind := 0, attr := attrKey write fetch cattr sz, addr := a, data := d }

/-- A register access (R92 `CRD`, `CWR`). -/
def regBytes (write : Bool) (sz : Size) (off d : Word) : List Byte :=
  Packet.toBytes { kind := 1, attr := attrKey write false false sz, addr := off, data := d }

/-- The bytes of an instruction's transfer. The four events have the format EVENT, "no encoding" (R86). -/
def encode : Instr → Option (List Byte)
  | .txnRefused sz c a d => some (txnBytes true true c sz a d)
  | .writePage sz c a d => some (txnBytes true false c sz a d)
  | .writeOther sz c a d => some (txnBytes true false c sz a d)
  | .dread sz c a => some (txnBytes false false c sz a 0)
  | .ifetchNc sz c a => some (txnBytes false true c sz a 0)
  | .ifetchCFirst a => some (txnBytes false true true .b32 a 0)
  | .ifetchCHitb a => some (txnBytes false true true .b32 a 0)
  | .ifetchCHitl a => some (txnBytes false true true .b32 a 0)
  | .ifetchCMiss a => some (txnBytes false true true .b32 a 0)
  | .ctrRd32 => some (regBytes false .b32 0 0)
  | .ctrWr32 w => some (regBytes true .b32 0 w)
  | .ctrWrn off n d => some (regBytes true n.toSize (off.setWidth 32) d)
  | .ctrRdn off n => some (regBytes false n.toSize (off.setWidth 32) 0)
  | .regOther write sz off d => some (regBytes write sz off d)
  | .refillBeat => none
  | .refillErr => none
  | .invalidateAll => none
  | .reset => none

/-! ### The opcode table's words -/

/-- The word has the fixed bits of the table's CTR rows: bits 31:20 zero, bits 7:1 0b0000010 (R83). -/
def ctrPattern (w : Nat) : Bool :=
  let x : Word := BitVec.ofNat 32 w
  x.extractLsb' 20 12 == 0 && x.extractLsb' 1 7 == 2

/-- The transfer that a word of spec/opcode_table.json stands for. A 32-bit word with the fixed bits of the
CTR rows is the register's data word, and the transfer is its 32-bit write at offset 0; every other word
is the start of a transfer's own bytes (its low five bits are the table's key `attr`, R84), with zeros
above (DESIGN CHOICE, notes/assumptions/4.md). -/
def tableBytes (nbits w : Nat) : List Byte :=
  if nbits == 32 && ctrPattern w then regBytes true .b32 0 (BitVec.ofNat 32 w)
  else
    let x : BitVec 72 := BitVec.ofNat 72 (w % 2 ^ nbits)
    [x.extractLsb' 0 8, x.extractLsb' 8 8, x.extractLsb' 16 8, x.extractLsb' 24 8, x.extractLsb' 32 8,
     x.extractLsb' 40 8, x.extractLsb' 48 8, x.extractLsb' 56 8, x.extractLsb' 64 8]

/-- The instruction the decoder reads from a word of the opcode table, in the state right after reset. -/
def decodeTableWord (nbits w : Nat) : Option Instr :=
  (decode View.reset (tableBytes nbits w)).toOption

end Sys2Proof
end

