-- ==== Sys2Proof/Machine/State.lean ====
section
/-! DEFINITION. The state of the ART accelerator (10_state.md R20), the environment it is stepped with
(00_scope.md R12), the outcomes' reasons, and the state after reset (10_state.md R40). -/

namespace Sys2Proof.Machine

/-! ### The cache -/

/-- A cache memory line (R28 to R31). -/
structure Line where
  valid : Bool
  index : Index
  seg : Vector Word 8
  deriving DecidableEq, Repr, Inhabited

/-- The cache buffer (R32, R34): a line's fields, and for each 64-bit quarter whether its beat has
arrived (the spec's `buf.have[j]`). -/
structure Buffer where
  valid : Bool
  index : Index
  seg : Vector Word 8
  arrived : Vector Bool 4
  deriving DecidableEq, Repr, Inhabited

/-- The record of a refill in progress (R37). `done` counts the beats that have arrived; the record ends
with the fourth (R146), so it counts to 3. `seg` is "the segment pointer of the missing fetch" that R143
reads (notes/assumptions/35.md). -/
structure Refill where
  victim : LineNo
  base : Word
  j0 : BitVec 2
  seg : BitVec 3
  done : Fin 4
  deriving DecidableEq, Repr

/-! ### The environment -/

/-- The two master ports (R3). -/
inductive Port where
  | ahbm | axim
  deriving DecidableEq, Repr

/-- How the memory answers an access when not in the normal way. -/
inductive Answer where
  /-- `ERROR` (R11). -/
  | error
  /-- No answer, ever (R13, U17). -/
  | silent
  /-- `OKAY`, but a write changes nothing (R162: "A write the memory ignores"). -/
  | ignored
  deriving DecidableEq, Repr

/-- The answer to an access of one port and direction that starts at an address. -/
structure AnswerRule where
  port : Port
  write : Bool
  addr : Word
  answer : Answer
  deriving DecidableEq, Repr

/-- The effect of a read of one port that starts at an address: afterwards the memory holds these bytes
(R61, R239: "a location ... whose read has a side effect"; notes/assumptions/44.md). -/
structure ReadEffect where
  port : Port
  addr : Word
  bytes : List (Word × Byte)
  deriving DecidableEq, Repr

/-- What reaches the machine from outside, in the order it is handled (R203). -/
inductive Input where
  /-- A transfer: a slave-port transaction or a register access (Decode.lean). -/
  | transfer (bytes : List Byte)
  /-- The reset of the device (R230). -/
  | resetEvent
  /-- A clock stop or power-state change (R212). -/
  | powerOrClockChange
  /-- An agent that does not pass through AHBS changes a byte of the memory (R66). -/
  | otherWrite (addr : Word) (byte : Byte)
  /-- From here on the memory answers by these rules (R12). -/
  | memoryAnswers (rules : List AnswerRule)
  /-- From here on reads of the memory have these effects (R61). -/
  | memoryReadEffects (effects : List ReadEffect)
  /-- From here on register accesses come from a requester that is privileged, or is not (R190, R207). -/
  | requesterPrivilege (privileged : Bool)
  deriving DecidableEq, Repr

/-- The answer to a transaction (R10). -/
inductive Resp where
  /-- `OKAY(rdata)`, the data in the low bits of a word. -/
  | okayData (sz : Size) (data : Word)
  /-- `OKAY` to a write. -/
  | okay
  /-- `ERROR`. -/
  | error
  deriving DecidableEq, Repr

/-- What the ports carry. -/
inductive PortEvent where
  /-- A read on AHBM; `none` is the answer ERROR. -/
  | ahbmRead (addr : Word) (sz : Size) (answer : Option Word)
  /-- A write on AHBM; `false` is the answer ERROR. -/
  | ahbmWrite (addr : Word) (sz : Size) (data : Word) (okay : Bool)
  /-- A 64-bit read on AXIM; `none` is the answer ERROR. -/
  | aximRead (addr : Word) (answer : Option DWord)
  /-- A 64-bit read on AXIM whose data are thrown away (R147). -/
  | aximThrownAway (addr : Word)
  /-- A response on AHBS, or of the register. -/
  | response (r : Resp)
  deriving DecidableEq, Repr

/-! ### The state -/

/-- The first six fields are the whole state of the ART (R20). `mem`, `answers`, `readEffects`, `privileged`,
`inputs` are the environment's (R12). `trace`, `draws`, `tick` are the model's own (notes/assumptions/27.md, 28.md). -/
structure State where
  /-- ART_CTR, R23. -/
  artCtr : Word
  /-- The 64 lines, R28. -/
  lines : Vector Line 64
  /-- The cache buffer, R32. -/
  buf : Buffer
  /-- The recency order, most recently used first, R35. -/
  lru : List LineNo
  /-- Whether the first cacheable access has been, R36. -/
  primed : Bool
  /-- The refill in progress, R37. -/
  refill : Option Refill
  /-- The bytes of the addressed memory that differ from 0x00, addresses rising (notes/assumptions/25.md). -/
  mem : List Host.Cell
  /-- How the memory answers when not in the normal way (notes/assumptions/26.md). -/
  answers : List AnswerRule
  /-- The effects that reads have on the memory (notes/assumptions/44.md). -/
  readEffects : List ReadEffect
  /-- Whether the requester of register accesses is privileged (R190; notes/assumptions/21.md). -/
  privileged : Bool
  /-- What arrives, the next first (notes/assumptions/2.md). -/
  inputs : List Input
  /-- What the ports carried, the latest first. -/
  trace : List PortEvent
  /-- The draws that stand for the next event. -/
  draws : Draws
  /-- How many times the draws were taken anew. -/
  tick : Nat
  deriving DecidableEq, Repr

/-- Why the machine stops with a fault. -/
inductive Fault where
  /-- Raised by any step whose transaction or beat waits for a memory that never answers: "the transaction
  that waits for it stuck" (R13, U17); nothing waits for a discarded read (`readRest`). Safe: the hardware does nothing more either. -/
  | memoryNeverAnswers
  deriving DecidableEq, Repr

/-- Why the model gives a step no meaning. -/
inductive Refusal where
  /-- An instruction the model has no meaning for; raised by no arm of `exec`. Safe. -/
  | notModelled (mnemonic : String)
  /-- TXN.REFUSED: a transaction with write = 1 and fetch = 1, "not described by the source" (R86). Safe. -/
  | writeAndFetch
  /-- REG.OTHER: an offset the source does not describe (R188). Safe. -/
  | otherRegisterOffset
  /-- CTR.WR32 under `RESERVED_POLICY = refuse`: "reserved bits not kept at reset value" (R181). Safe. -/
  | reservedBitsNotKept
  /-- Raised by `step` on a transfer that the decoder rejects (R59, R90). Safe. -/
  | undecodable (r : Reject)
  /-- Raised by a class's meaning in a state where R86 sorts the transaction into another class; `step`
  never asks for it. Safe. -/
  | notThisClass
  /-- REFILL.BEAT and REFILL.ERR with no refill in progress, an event that cannot be; `step` never asks
  for it. Safe. -/
  | noRefillInProgress
  /-- Raised by `step` on a clock stop or power-state change (R212, D32). Safe. -/
  | powerOrClockChange
  deriving DecidableEq, Repr

/-! ### Reset -/

/-- A line after reset: not valid (R40, D3); index and segments the model's choice, zero
(notes/assumptions/23.md). -/
def Line.reset : Line := { valid := false, index := 0, seg := Vector.replicate 8 0 }

/-- The buffer after reset: as a line, and no quarter marked. -/
def Buffer.reset : Buffer :=
  { valid := false, index := 0, seg := Vector.replicate 8 0, arrived := Vector.replicate 4 false }

/-- The machine right after reset. The ART's own state is that of 10_state.md R40, its unspecified contents
the model's choice (notes/assumptions/22.md, 23.md). R40 and R41 give the environment no values, so each of
these is a DESIGN CHOICE: the memory lists nothing (25.md), no rule says that it answers otherwise than OKAY
with its contents (26.md), no read has an effect (44.md), the requester is privileged (21.md) and nothing has
arrived (2.md). So are the empty trace (27.md) and the first draws (28.md). -/
def State.reset : State :=
  { artCtr := 0x00000004
    lines := Vector.replicate 64 Line.reset
    buf := Buffer.reset
    lru := List.finRange 64
    primed := false
    refill := none
    mem := []
    answers := []
    readEffects := []
    privileged := true
    inputs := []
    trace := []
    draws := Config.draws 0
    tick := 0 }

end Sys2Proof.Machine
end

