-- ==== Sys2Proof/Machine/Flags.lean ====
section
/-! DEFINITION. The validity bits, "the only flags the block has" (10_state.md R31), the hit check that
reads them (41_cache_hit_and_fetch.md R120), and the recency order (R35, R142). -/

namespace Sys2Proof.Machine

/-! ### Fields written -/

/-- The refill record written. -/
def setRefill (x : Option Refill) (s : State) : State := { s with refill := x }

/-- `primed` written (R36). -/
def setPrimed (b : Bool) (s : State) : State := { s with primed := b }

/-- The addressed memory written. -/
def setMem (m : List Host.Cell) (s : State) : State := { s with mem := m }

/-- What arrives written. -/
def setInputs (xs : List Input) (s : State) : State := { s with inputs := xs }

/-! ### Lines -/

/-- `line[i]`. -/
def line (s : State) (i : LineNo) : Line := s.lines[i]

/-- `line[i]` written. -/
def setLine (i : LineNo) (l : Line) (s : State) : State := { s with lines := s.lines.set i l }

/-! ### Clearing -/

/-- Every line's validity bit cleared, its index and segments as they were. -/
def clearValid (v : Vector Line 64) : Vector Line 64 :=
  ⟨(v.toArray.toList.map fun l => { l with valid := false }).toArray, by simp⟩

/-- R161, `InvalidateAll()`: every validity bit cleared, nothing else changed. -/
def invalidateAll (s : State) : State :=
  { s with
    lines := clearValid s.lines
    buf := { s.buf with valid := false } }

/-- R149, D16: the refill in progress is cancelled, "with no response owed". -/
def cancelRefill (s : State) : State := setRefill none s

/-- The reaction to an invalidating event: R161, and R149 for a refill in progress. DESIGN CHOICE: the beats
not yet done of a refill cancelled here are not read; R149 cancels "as in rule R147", whose draw on the rest
of the burst speaks of a failed one, and D16 is silent (notes/assumptions/11.md). -/
def flush (s : State) : State := cancelRefill (invalidateAll s)

/-! ### The hit check -/

/-- R120, `LineMatch(i)`. -/
def lineMatch (s : State) (idx : Index) (i : LineNo) : Bool :=
  (line s i).valid && (line s i).index == idx

/-- R120: a line that matches, if there is one. At most one does (R38). -/
def findLine (s : State) (idx : Index) : Option LineNo :=
  (List.finRange 64).find? (lineMatch s idx)

/-- R120, `BufMatch`. -/
def bufMatch (s : State) (idx : Index) : Bool := s.buf.valid && s.buf.index == idx

/-- The indexes of the lines flagged as valid. -/
def validTags (s : State) : List Index :=
  (List.finRange 64).filterMap fun i => if (line s i).valid then some (line s i).index else none

/-- R141: "Full" means all 64 lines valid. -/
def cacheFull (s : State) : Bool := (List.finRange 64).all fun i => (line s i).valid

/-! ### Recency -/

/-- R35, R142, `touch(i)`: `i` becomes the most recently used, the others keep their order. -/
def touch (i : LineNo) (s : State) : State := { s with lru := i :: s.lru.erase i }

/-- R125: a use of the line that holds the index, if one does. -/
def touchMatching (idx : Index) (s : State) : State :=
  match findLine s idx with
  | some i => touch i s
  | none => s

/-- The drawn line if it is invalid, else an invalid line if there is one: by the draw every invalid line
can be taken (R141). -/
def drawInvalid (s : State) : Option LineNo :=
  if (line s s.draws.victim).valid then (List.finRange 64).find? fun i => !(line s i).valid
  else some s.draws.victim

/-- R141, `Victim()`. -/
def victim (s : State) : LineNo :=
  match Config.victimPolicy with
  | .any => s.draws.victim
  | .lru => (drawInvalid s).getD (s.lru.getLastD s.draws.victim)

end Sys2Proof.Machine
end

