-- ==== Sys2Proof/Machine/Operands.lean ====
section
/-! DEFINITION. The operands: the fields of ART_CTR (10_state.md R23 to R27), the quantities assembled from
address fields (30_encoding.md R85), segments and beats (20_memory.md R57, R58), and what the cache manager
sees when it sorts a transaction (R86). -/

namespace Sys2Proof.Machine

/-! ### ART_CTR -/

/-- PCACHEADDR, bits 19:8 (R24). -/
def pcacheaddr (s : State) : Page := s.artCtr.extractLsb' 8 12

/-- EN, bit 0 (R25). -/
def enabled (s : State) : Bool := s.artCtr.getLsbD 0

/-- R83: the word with the two fields, the reserved bits at their reset value. -/
def ctrWord (page : Page) (en : Bool) : Word :=
  (0 : BitVec 12) ++ page ++ (2 : BitVec 7) ++ BitVec.ofBool en

/-- R180: what a read of ART_CTR gives; the reserved bits read as their reset value (R26, R27). -/
def ctrRead (s : State) : Word := ctrWord (pcacheaddr s) (enabled s)

/-- R87: a word that keeps the reserved bits at their reset value. -/
def keepsReserved (w : Word) : Bool := w.extractLsb' 20 12 == 0 && w.extractLsb' 1 7 == 2

/-- R182: a narrow access covers byte 0, where EN is, when it is at offset 0. -/
def coversByte0 (off : BitVec 2) : Bool := off == 0

/-- R183: the bytes of a word at an offset, in the byte order of R57, in the low bits. -/
def narrowBytes (w : Word) (off : BitVec 2) : Narrow → Word
  | .b8 => ((w >>> (8 * off.toNat)).extractLsb' 0 8).setWidth 32
  | .b16 => ((w >>> (8 * off.toNat)).extractLsb' 0 16).setWidth 32

/-- The low bits of a word that an access of a width carries. -/
def lowBits (w : Word) : Size → Word
  | .b8 => (w.extractLsb' 0 8).setWidth 32
  | .b16 => (w.extractLsb' 0 16).setWidth 32
  | .b32 => w

/-- D1: where an offset of the register area lies. Register transfers carry the offset, so no step
depends on the base. -/
def registerAddress (off : Word) : Word := Config.artBase + off

/-- D2: an offset lies in the register area. -/
def inRegisterArea (off : Word) : Prop := off.toNat < Config.artBlockBytes

/-! ### Assembled addresses, R85 -/

/-- "page base address". -/
def pageBase (page : Page) : Word := page ++ (0 : BitVec 20)

/-- "block base rebuilt from a line". -/
def lineBase (s : State) (i : LineNo) : Word := pcacheaddr s ++ (line s i).index ++ (0 : BitVec 5)

/-- "word address of segment k of a line", from its block base. -/
def segAddr (base : Word) (k : BitVec 3) : Word := base + BitVec.ofNat 32 (4 * k.toNat)

/-- R143: the quarter of the next beat, in wrapping order. -/
def beatQuarter (r : Refill) : BitVec 2 := r.j0 + BitVec.ofNat 2 r.done.val

/-- R143: `base + 8*j`. -/
def quarterAddr (base : Word) (j : BitVec 2) : Word := base + BitVec.ofNat 32 (8 * j.toNat)

/-- R85: the address of the next beat. -/
def beatAddr (r : Refill) : Word := quarterAddr r.base (beatQuarter r)

/-- The address of the fetch that missed (its bits [1:0] are 0, R59). -/
def missAddr (r : Refill) : Word := segAddr r.base r.seg

/-! ### Segments -/

/-- The quarter a segment is in: quarter `j` is segments `2j` and `2j+1` (R34). -/
def quarterOfSeg (k : BitVec 3) : BitVec 2 := k.extractLsb' 1 2

/-- R124: the segment that three address bits point to. -/
def segAt (v : Vector Word 8) (k : BitVec 3) : Word := v[k.toNat]'(by have := k.isLt; omega)

/-- Whether the beat of a quarter has arrived. -/
def arrivedAt (v : Vector Bool 4) (j : BitVec 2) : Bool := v[j.toNat]'(by have := j.isLt; omega)

/-- R58: `seg[2j] <- d[31:0]`, `seg[2j+1] <- d[63:32]`. -/
def putBeat (v : Vector Word 8) (j : BitVec 2) (d : DWord) : Vector Word 8 :=
  (v.set (2 * j.toNat) (d.extractLsb' 0 32) (by have := j.isLt; omega)).set
    (2 * j.toNat + 1) (d.extractLsb' 32 32) (by have := j.isLt; omega)

/-- R143: `buf.have[j] <- 1`. -/
def markArrived (v : Vector Bool 4) (j : BitVec 2) : Vector Bool 4 :=
  v.set j.toNat true (by have := j.isLt; omega)

/-! ### The view of the cache manager -/

/-- R102, `FirstNow`. -/
def firstNow (s : State) : Bool :=
  !s.primed || (s.draws.first && Config.firstAccessPolicy == .any)

/-- What R86's table reads of the state. -/
def view (s : State) : View :=
  { page := pcacheaddr s
    en := enabled s
    firstNow := firstNow s
    bufTag := if s.buf.valid then some s.buf.index else none
    lineTags := validTags s }

end Sys2Proof.Machine
end

