-- ==== Sys2Proof/Machine/Ops.lean ====
section
/-! DEFINITION. The shared operations: the addressed memory and its ports, responses, forwarding
(40_access_qualification.md R109), the write of ART_CTR (44_register_access.md R181), the refill
(42_cache_refill.md R140 to R147), and the reset event (70_reset_and_hazards.md R230).

`raiseRefillError` stands where a processor has exception entry: the ART "saves no state, changes no mode,
masks nothing and transfers control nowhere" (60_exceptions.md R204), and there is no return (R205). -/

namespace Sys2Proof.Machine

/-- What a step answers. -/
abbrev Result := Host.Outcome State Fault Refusal

/-- Go on from a next state. -/
def andThen (r : Result) (f : State → Result) : Result :=
  match r with
  | .next s => f s
  | .fault e => .fault e
  | .refused e => .refused e

/-! ### Bytes of the addressed memory -/

/-- What a byte that no cell lists reads as (DESIGN CHOICE, notes/assumptions/25.md). -/
def unlistedByte : Byte := 0

/-- The byte at an address. -/
def readByte : List Host.Cell → Nat → Byte
  | [], _ => unlistedByte
  | (b, v) :: m, a => if a = b then v else readByte m a

/-- The cell of a byte, none if the byte reads as an unlisted one does. -/
def cellOf (a : Nat) (v : Byte) : List Host.Cell := if v = unlistedByte then [] else [(a, v)]

/-- The memory with one byte written, in the same canonical form. -/
def writeByte : List Host.Cell → Nat → Byte → List Host.Cell
  | [], a, v => cellOf a v
  | (b, x) :: m, a, v =>
      if a < b then cellOf a v ++ (b, x) :: m
      else if a = b then cellOf a v ++ m
      else (b, x) :: writeByte m a v

/-- The canonical form: addresses strictly rising, inside the 32-bit address space (R50), and no cell that
reads as an unlisted byte does. -/
abbrev Memory.wf (m : List Host.Cell) : Prop :=
  m.Pairwise (fun x y => x.1 < y.1) ∧ ∀ c ∈ m, c.1 < 2 ^ 32 ∧ c.2 ≠ unlistedByte

/-! ### Words of the addressed memory, little-endian (R57) -/

/-- The byte at an access address. -/
def byteAt (m : List Host.Cell) (a : Word) : Byte := readByte m a.toNat

/-- The 32-bit word at a byte address. -/
def wordAt (m : List Host.Cell) (a : Word) : Word :=
  byteAt m (a + 3#32) ++ byteAt m (a + 2#32) ++ byteAt m (a + 1#32) ++ byteAt m a

/-- The 64-bit beat at a byte address. -/
def beatAt (m : List Host.Cell) (a : Word) : DWord := wordAt m (a + 4#32) ++ wordAt m a

/-- What a read of a width gives, in the low bits of a word. -/
def loadAt (m : List Host.Cell) (a : Word) : Size → Word
  | .b8 => (byteAt m a).setWidth 32
  | .b16 => (byteAt m (a + 1#32) ++ byteAt m a).setWidth 32
  | .b32 => wordAt m a

/-- The memory with one byte written at an access address. -/
def putByte (m : List Host.Cell) (a : Word) (v : Byte) : List Host.Cell := writeByte m a.toNat v

/-- The memory after a write of a width. -/
def storeAt (m : List Host.Cell) (a : Word) (d : Word) : Size → List Host.Cell
  | .b8 => putByte m a (d.extractLsb' 0 8)
  | .b16 => putByte (putByte m a (d.extractLsb' 0 8)) (a + 1#32) (d.extractLsb' 8 8)
  | .b32 =>
      putByte (putByte (putByte (putByte m a (d.extractLsb' 0 8)) (a + 1#32) (d.extractLsb' 8 8))
        (a + 2#32) (d.extractLsb' 16 8)) (a + 3#32) (d.extractLsb' 24 8)

/-- How many bytes a width has. -/
def sizeBytes : Size → Nat
  | .b8 => 1
  | .b16 => 2
  | .b32 => 4

/-! ### The ports -/

/-- Record what a port carries. -/
def emit (e : PortEvent) (s : State) : State := { s with trace := e :: s.trace }

/-- R11, `respond(r)`. -/
def respond (r : Resp) (s : State) : State := emit (.response r) s

/-- How the memory answers an access, `none` for the normal way. -/
def answerTo (s : State) (p : Port) (write : Bool) (a : Word) : Option Answer :=
  (s.answers.find? fun r => r.port == p && r.write == write && r.addr == a).map (·.answer)

/-- The memory with some bytes written, in order. -/
def putBytes (m : List Host.Cell) (bs : List (Word × Byte)) : List Host.Cell :=
  bs.foldl (fun m b => putByte m b.1 b.2) m

/-- The bytes that a read changes, none for a memory without effects on reads (R61). -/
def readEffect (s : State) (p : Port) (a : Word) : List (Word × Byte) :=
  ((s.readEffects.find? fun e => e.port == p && e.addr == a).map (·.bytes)).getD []

/-- The memory after a read that starts at an address (R61). -/
def memAfterRead (s : State) (p : Port) (a : Word) : List Host.Cell := putBytes s.mem (readEffect s p a)

/-- A read has had its effect (R61: reads are not taken to be idempotent). -/
def takeEffect (p : Port) (a : Word) (s : State) : State := setMem (memAfterRead s p a) s

/-- R109, `Forward(t)` for a read: `MemRead(AHBM, addr, size/8)`, its answer returned; an ERROR is passed
back unchanged (R108). -/
def forwardRead (sz : Size) (a : Word) (s : State) : Result :=
  match answerTo s .ahbm false a with
  | some .silent => .fault .memoryNeverAnswers
  | some .error => .next (respond .error (emit (.ahbmRead a sz none) (takeEffect .ahbm a s)))
  | _ =>
      let v := loadAt s.mem a sz
      .next (respond (.okayData sz v) (emit (.ahbmRead a sz (some v)) (takeEffect .ahbm a s)))

/-- R109, `Forward(t)` for a write: `MemWrite(AHBM, addr, size/8, wdata)`, then what the class does before
it answers, then the answer. A write answered ERROR changes no byte (notes/assumptions/41.md). -/
def forwardWrite (sz : Size) (a d : Word) (before : State → State) (s : State) : Result :=
  match answerTo s .ahbm true a with
  | some .silent => .fault .memoryNeverAnswers
  | some .error => .next (respond .error (before (emit (.ahbmWrite a sz d false) s)))
  | some .ignored => .next (respond .okay (before (emit (.ahbmWrite a sz d true) s)))
  | none =>
      .next (respond .okay (before
        (emit (.ahbmWrite a sz d true) (setMem (storeAt s.mem a d sz) s))))

/-! ### Classes -/

/-- The meaning of a class, in a state where the transaction belongs to the class (R86). -/
def inClass (i : Instr) (s : State) (effect : State → Result) : Result :=
  if (view s).admits i then effect s else .refused .notThisClass

/-- R102 under policy `run`: a slave-port access that does not qualify clears `primed`. -/
def noteNotQualifying (s : State) : State :=
  setPrimed (if Config.firstAccessPolicy = .run then false else s.primed) s

/-- R168, `WriteDetectActive`. -/
def writeDetectActive (s : State) : Bool :=
  enabled s ||
    match Config.writeDetectWhenDisabled with
    | .yes => true
    | .no => false
    | .either => s.draws.detectDisabled

/-- R168, `KEEP_ON_DISABLE`: whether clearing EN invalidates. -/
def dropsOnDisable (s : State) : Bool :=
  match Config.keepOnDisable with
  | .keep => false
  | .invalidate => true
  | .either => s.draws.dropOnDisable

/-! ### Access to ART_CTR -/

/-- R190, D24: whether PRIV_CHECK lets the requester read or write ART_CTR. The ART itself has no modes (R207);
the privilege is the requester's. -/
def accessAllowed (write : Bool) (s : State) : Bool :=
  s.privileged ||
    match Config.privCheck with
    | .none => true
    | .writes => !write
    | .accesses => false

/-- DESIGN CHOICE (notes/assumptions/21.md): a write that is turned away is answered OKAY or ERROR, by a draw. -/
def deniedWriteResp (s : State) : Resp := if s.draws.deniedOkay then .okay else .error

/-- DESIGN CHOICE (notes/assumptions/21.md): a read that is turned away is answered ERROR or with a free value. -/
def deniedReadResp (sz : Size) (s : State) : Resp :=
  if s.draws.deniedOkay then .okayData sz (lowBits s.draws.deniedRead sz) else .error

/-- A write of ART_CTR: its effect, if the requester may write; else the answer alone (D24). -/
def writeAccess (effect : State → Result) (s : State) : Result :=
  if accessAllowed true s then effect s else .next (respond (deniedWriteResp s) s)

/-- A read of ART_CTR, which changes nothing: the value, if the requester may read (D24). -/
def readAccess (sz : Size) (value : Word) (s : State) : Result :=
  .next (respond (if accessAllowed false s then .okayData sz value else deniedReadResp sz s) s)

/-- R102: a write that leaves EN = 0 clears `primed` under the policies `enable` and `run`. -/
def unprimeWhenDisabled (en : Bool) (s : State) : State :=
  setPrimed
    (if en = false ∧ (Config.firstAccessPolicy = .enable ∨ Config.firstAccessPolicy = .run) then false
    else s.primed) s

/-- R181 after the check of the reserved bits: the two fields written, then R164 if the page index
changes, then R168 if EN is cleared, then R102. -/
def setCtr (page : Page) (en : Bool) (s : State) : State :=
  let written := { s with artCtr := ctrWord page en }
  let moved := if page = pcacheaddr s then written else flush written
  let dropped := if enabled s && !en && dropsOnDisable s then flush moved else moved
  unprimeWhenDisabled en dropped

/-! ### The refill -/

/-- The addresses of the beats after the failing one that are still read, in burst order (R147, D17). -/
def restAddrs (r : Refill) (s : State) : List Word :=
  if s.draws.readRest then
    (List.range (3 - r.done.val)).map fun k => quarterAddr r.base (r.j0 + BitVec.ofNat 2 (r.done.val + 1 + k))
  else []

/-- A 64-bit read whose data are thrown away. -/
def discardRead (a : Word) (s : State) : State := emit (.aximThrownAway a) (takeEffect .axim a s)

/-- The reads of the beats after the failing one, their data thrown away (R147). DESIGN CHOICE: such a read
is recorded and has its effect (R61), and the model goes on without looking at `answerTo`: no transaction
waits for it, so a memory that never answers it is no fault here, and an ERROR changes nothing more
(notes/assumptions/12.md). -/
def readRest (r : Refill) (s : State) : State := (restAddrs r s).foldl (fun s a => discardRead a s) s

/-- R147, `raise RefillError(a)` on a beat of the refill `r`: everything is flagged invalid, the refill
ends, and a fetch that has had no data yet is answered as `ERROR_RESPONSE` says (D17). -/
def raiseRefillError (r : Refill) (s : State) : Result :=
  let s' := readRest r (flush s)
  if r.done = 0 then
    match Config.errorResponse with
    | .propagate => .next (respond .error s')
    | .retryNoncacheable => forwardRead .b32 (missAddr r) s'
  else .next s'

/-- The beat read failed (R143, `if r = ERROR`). -/
def failBeat (r : Refill) (s : State) : Result :=
  raiseRefillError r (emit (.aximRead (beatAddr r) none) (takeEffect .axim (beatAddr r) s))

/-- R146, `Complete()`. -/
def complete (r : Refill) (s : State) : State :=
  touch r.victim (setRefill none (setLine r.victim { line s r.victim with valid := true } s))

/-- R143: the 64 bits of a beat go to the buffer and to the selected line, and the quarter is marked. -/
def fillQuarter (r : Refill) (d : DWord) (s : State) : State :=
  { setLine r.victim { line s r.victim with seg := putBeat (line s r.victim).seg (beatQuarter r) d } s with
    buf := { s.buf with seg := putBeat s.buf.seg (beatQuarter r) d
                        arrived := markArrived s.buf.arrived (beatQuarter r) } }

/-- R144, R145: the first beat makes the buffer valid and answers the fetch. -/
def answerFirst (r : Refill) (s : State) : State :=
  respond (.okayData .b32 (segAt s.buf.seg r.seg)) { s with buf := { s.buf with valid := true } }

/-- R143: a beat whose read was answered with data. -/
def takeBeat (r : Refill) (d : DWord) (s : State) : State :=
  let filled := fillQuarter r d (emit (.aximRead (beatAddr r) (some d)) s)
  let answered := if r.done = 0 then answerFirst r filled else filled
  if r.done = 3 then complete r answered
  else setRefill (some { r with done := r.done + 1 }) answered

/-- R143, `Beat()` for the refill in progress. -/
def beat (s : State) : Result :=
  match s.refill with
  | none => .refused .noRefillInProgress
  | some r =>
    match answerTo s .axim false (beatAddr r) with
    | some .silent => .fault .memoryNeverAnswers
    | some .error => failBeat r s
    | _ => .next (takeBeat r (beatAt s.mem (beatAddr r)) (takeEffect .axim (beatAddr r) s))

/-- R140 up to the first `Beat()`: the victim is evicted, the buffer is given the new index, the refill
record is written. -/
def startRefill (a : Word) (s : State) : State :=
  let v := victim s
  { setLine v { line s v with valid := false, index := indexOf a } s with
    buf := { s.buf with valid := false, index := indexOf a, arrived := Vector.replicate 4 false }
    refill := some { victim := v, base := blockBase a, j0 := quarterOf a, seg := segOf a, done := 0 } }

/-! ### Hits -/

/-- R121: "The 256 bits of the line are instantly copied to the cache buffer." -/
def copyLine (i : LineNo) (s : State) : State :=
  { s with
    buf := { valid := true, index := (line s i).index, seg := (line s i).seg
             arrived := Vector.replicate 4 true } }

/-- R126: the fetch waits for its beat. It is put back at the head of what arrives, and the beat in
progress is performed; with no refill in progress nothing comes and it waits on. -/
def waitForBeat (bytes : List Byte) (s : State) : Result :=
  match s.refill with
  | none => .next (setInputs (.transfer bytes :: s.inputs) s)
  | some _ => beat (setInputs (.transfer bytes :: s.inputs) s)

/-! ### Reset -/

/-- A line after the event RESET: not valid, its contents free values. -/
def resetLine (n : Nat) (i : LineNo) : Line :=
  { valid := false, index := Config.resetIndex n i, seg := Vector.ofFn (Config.resetSeg n i) }

/-- The lines after the event RESET. -/
def resetLines (n : Nat) : Vector Line 64 := ⟨((List.finRange 64).map (resetLine n)).toArray, by simp⟩

/-- R230, R40: what the table of R40 gives values to has them; the contents it calls unspecified are free
values (D4, D13); the environment and the model's own fields are as before. -/
def resetArt (s : State) : State :=
  { s with
    artCtr := 0x00000004
    lines := resetLines s.tick
    buf := { valid := false, index := Config.resetBufIndex s.tick
             seg := Vector.ofFn (Config.resetBufSeg s.tick)
             arrived := Vector.ofFn (Config.resetBufArrived s.tick) }
    lru := ((Config.resetUses s.tick).foldl (fun t i => touch i t) s).lru
    primed := false
    refill := none }

end Sys2Proof.Machine
end

