-- ==== Sys2Proof/Machine/CacheHit.lean ====
section
/-! DEFINITION. The two hit classes (41_cache_hit_and_fetch.md R121, R122). No memory is accessed (R127). -/

namespace Sys2Proof.Machine

/-- IFETCH.C.HITL, R121: the segment of the matching line answers, the line is copied to the buffer, and
the line is the most recently used. -/
def execIfetchCHitl (addr : Word) (s : State) : Result :=
  inClass (.ifetchCHitl addr) s fun s =>
    match findLine s (indexOf addr) with
    | none => .refused .notThisClass
    | some i => .next (touch i (copyLine i (respond (.okayData .b32 (segAt (line s i).seg (segOf addr))) s)))

/-- IFETCH.C.HITB, R122: the segment of the buffer answers once its quarter has arrived (R126); a line
with the same index counts as used (R125). -/
def execIfetchCHitb (addr : Word) (s : State) : Result :=
  inClass (.ifetchCHitb addr) s fun s =>
    if arrivedAt s.buf.arrived (quarterOf addr) then
      .next (touchMatching (indexOf addr) (respond (.okayData .b32 (segAt s.buf.seg (segOf addr))) s))
    else waitForBeat (txnBytes false true true .b32 addr 0) s

end Sys2Proof.Machine
end

