-- ==== Sys2Proof/Machine/CacheRefill.lean ====
section
/-! DEFINITION. The miss and the events of a refill (42_cache_refill.md R140, R143, R147). -/

namespace Sys2Proof.Machine

/-- IFETCH.C.MISS, R140: the refill is started and its first beat, which answers the fetch, performed. The
other three are REFILL.BEAT events of their own (R148). -/
def execIfetchCMiss (addr : Word) (s : State) : Result :=
  inClass (.ifetchCMiss addr) s fun s => beat (startRefill addr s)

/-- REFILL.BEAT, R143. -/
def execRefillBeat (s : State) : Result := beat s

/-- REFILL.ERR, R147: the next beat of the refill in progress is answered ERROR. -/
def execRefillErr (s : State) : Result :=
  match s.refill with
  | none => .refused .noRefillInProgress
  | some r => failBeat r s

end Sys2Proof.Machine
end

