-- ==== Sys2Proof/Machine/Consistency.lean ====
section
/-! DEFINITION. The consistency checker (43_cache_consistency.md R161, R162). -/

namespace Sys2Proof.Machine

/-- WRITE.PAGE, R162: forwarded, then everything flagged invalid if the detector is active (R168), whether
the write succeeded or not (R108, D23), then the answer. -/
def execWritePage (sz : Size) (cattr : Bool) (addr data : Word) (s : State) : Result :=
  inClass (.writePage sz cattr addr data) s fun s =>
    forwardWrite sz addr data (fun t => if writeDetectActive t then flush t else t) (noteNotQualifying s)

/-- INVALIDATE.ALL, R161; a refill in progress is cancelled (R149). -/
def execInvalidateAll (s : State) : Result := .next (flush s)

end Sys2Proof.Machine
end

