-- ==== Sys2Proof/Machine/NonCacheable.lean ====
section
/-! DEFINITION. The classes of the non-cacheable path (40_access_qualification.md R104 to R108) and the
transaction the source does not describe (30_encoding.md R86, TXN.REFUSED). -/

namespace Sys2Proof.Machine

/-- TXN.REFUSED, R86: "not described by the source; `refuse`". -/
def execTxnRefused (_sz : Size) (_cattr : Bool) (_addr _data : Word) (_s : State) : Result :=
  .refused .writeAndFetch

/-- IFETCH.NC, R104: `Forward(t)`, and R102 under policy `run`. -/
def execIfetchNc (sz : Size) (cattr : Bool) (addr : Word) (s : State) : Result :=
  inClass (.ifetchNc sz cattr addr) s fun s => forwardRead sz addr (noteNotQualifying s)

/-- DREAD, R105: `Forward(t)`, never from the cache (R73). -/
def execDread (sz : Size) (_cattr : Bool) (addr : Word) (s : State) : Result :=
  forwardRead sz addr (noteNotQualifying s)

/-- WRITE.OTHER, R106: `Forward(t)`, nothing invalidated. -/
def execWriteOther (sz : Size) (cattr : Bool) (addr data : Word) (s : State) : Result :=
  inClass (.writeOther sz cattr addr data) s fun s => forwardWrite sz addr data id (noteNotQualifying s)

/-- IFETCH.C.FIRST, R107: `primed <- 1`, then `Forward(t)`; the cache is not looked at. -/
def execIfetchCFirst (addr : Word) (s : State) : Result :=
  inClass (.ifetchCFirst addr) s fun s => forwardRead .b32 addr (setPrimed true s)

end Sys2Proof.Machine
end

