-- ==== Sys2Proof/Machine/Register.lean ====
section
/-! DEFINITION. Access to the control register (44_register_access.md R180 to R188). -/

namespace Sys2Proof.Machine

/-- CTR.RD32, R180: `respond(OKAY(ART_CTR))`, no side effect; by a requester that may read (R190). -/
def execCtrRd32 (s : State) : Result := readAccess .b32 (ctrRead s) s

/-- CTR.WR32, R181. A word that does not keep the reserved bits is treated as RESERVED_POLICY says (D5); one
by a requester that may not write has no effect (R190). -/
def execCtrWr32 (w : Word) (s : State) : Result :=
  writeAccess (fun s =>
    if keepsReserved w || Config.reservedPolicy == .ignore then
      .next (respond .okay (setCtr (w.extractLsb' 8 12) (w.getLsbD 0) s))
    else .refused .reservedBitsNotKept) s

/-- R182: EN after a narrow write over byte 0, where it is not stated: a free value (D6). "Flags written:
none": no validity bit changes, whatever KEEP_ON_DISABLE is (R167). If EN changes, `primed` follows R102 as for
any write that leaves EN = 0 (notes/assumptions/18.md). -/
def narrowWriteEn (s : State) : State :=
  match Config.narrowCtrAccess with
  | .stated => s
  | .unstated =>
      if s.draws.narrowEn = enabled s then s
      else unprimeWhenDisabled s.draws.narrowEn { s with artCtr := ctrWord (pcacheaddr s) s.draws.narrowEn }

/-- CTR.WRN, R182: PCACHEADDR is unchanged, and a write that does not cover byte 0 changes nothing. -/
def execCtrWrn (off : BitVec 2) (_n : Narrow) (_data : Word) (s : State) : Result :=
  writeAccess (fun s => .next (respond .okay (if coversByte0 off then narrowWriteEn s else s))) s

/-- R183: the value of a narrow read, a free value of the access's width where it is not stated (D7). -/
def narrowReadValue (off : BitVec 2) (n : Narrow) (s : State) : Word :=
  match Config.narrowCtrAccess with
  | .stated => narrowBytes (ctrRead s) off n
  | .unstated => lowBits s.draws.narrowRead n.toSize

/-- CTR.RDN, R183: no state changes; the value read as above. -/
def execCtrRdn (off : BitVec 2) (n : Narrow) (s : State) : Result :=
  readAccess n.toSize (narrowReadValue off n s) s

/-- REG.OTHER, R188: "The model refuses such an access". -/
def execRegOther (_write : Bool) (_sz : Size) (_off _data : Word) (_s : State) : Result :=
  .refused .otherRegisterOffset

end Sys2Proof.Machine
end

