-- ==== Sys2Proof/Machine/ResetEvent.lean ====
section
/-! DEFINITION. The event RESET (70_reset_and_hazards.md R230). -/

namespace Sys2Proof.Machine

/-- RESET, R230. -/
def execReset (s : State) : Result := .next (resetArt s)

end Sys2Proof.Machine
end

