-- ==== Sys2Proof/Machine/Dispatch.lean ====
section
/-! DEFINITION. One arm per row of spec/opcode_table.json. -/

namespace Sys2Proof.Machine

def exec (i : Instr) (s : State) : Host.Outcome State Fault Refusal :=
  match i with
  | .txnRefused sz c a d => Sys2Proof.Machine.execTxnRefused sz c a d s
  | .writePage sz c a d => Sys2Proof.Machine.execWritePage sz c a d s
  | .writeOther sz c a d => Sys2Proof.Machine.execWriteOther sz c a d s
  | .dread sz c a => Sys2Proof.Machine.execDread sz c a s
  | .ifetchNc sz c a => Sys2Proof.Machine.execIfetchNc sz c a s
  | .ifetchCFirst a => Sys2Proof.Machine.execIfetchCFirst a s
  | .ifetchCHitb a => Sys2Proof.Machine.execIfetchCHitb a s
  | .ifetchCHitl a => Sys2Proof.Machine.execIfetchCHitl a s
  | .ifetchCMiss a => Sys2Proof.Machine.execIfetchCMiss a s
  | .ctrRd32 => Sys2Proof.Machine.execCtrRd32 s
  | .ctrWr32 w => Sys2Proof.Machine.execCtrWr32 w s
  | .ctrWrn off n d => Sys2Proof.Machine.execCtrWrn off n d s
  | .ctrRdn off n => Sys2Proof.Machine.execCtrRdn off n s
  | .regOther wr sz off d => Sys2Proof.Machine.execRegOther wr sz off d s
  | .refillBeat => Sys2Proof.Machine.execRefillBeat s
  | .refillErr => Sys2Proof.Machine.execRefillErr s
  | .invalidateAll => Sys2Proof.Machine.execInvalidateAll s
  | .reset => Sys2Proof.Machine.execReset s

end Sys2Proof.Machine
end

