-- ==== Sys2Proof/Machine/Fetch.lean ====
section
/-! DEFINITION. What comes next (60_exceptions.md R203, 42_cache_refill.md R148): which instruction a step
runs, or which change of the environment it takes. The ART fetches no instructions; what stands where
another machine has its fetch is the transfer at the head of `inputs`. -/

namespace Sys2Proof.Machine

/-- What a step is about to do. -/
inductive Action where
  /-- Nothing has arrived and nothing is in progress. -/
  | idle
  /-- Run an instruction in this state. -/
  | run (i : Instr) (s : State)
  /-- The environment alone changes the state. -/
  | become (s : State)
  /-- No meaning. -/
  | refuse (r : Refusal)
  deriving DecidableEq, Repr

/-- R143, R147: the event of the refill engine's next beat, by the memory's answer. -/
def nextBeat (r : Refill) (s : State) : Instr :=
  match answerTo s .axim false (beatAddr r) with
  | some .error => .refillErr
  | _ => .refillBeat

/-- R148: between two beats a transfer is handled only if it is a cacheable fetch that matches the buffer,
its quarter is present, and the draw of D15 takes it now. -/
def servedBetweenBeats (bytes : List Byte) (s : State) : Bool :=
  match decode (view s) bytes with
  | .ok (.ifetchCHitb a) => s.draws.serveBetween && arrivedAt s.buf.arrived (quarterOf a)
  | _ => false

/-- R86: the transfer sorted into its class, or rejected by name. -/
def actOnTransfer (bytes : List Byte) (s : State) : Action :=
  match decode (view s) bytes with
  | .ok i => .run i s
  | .error r => .refuse (.undecodable r)

/-- D19: a change of the page by another writer that the draw says is detected. -/
def detectsOther (a : Word) (s : State) : Bool := s.draws.detectOther && pageOf a == pcacheaddr s

/-- R66: another writer changes a byte of the memory; "the cache was invalidated, or it was not". -/
def actOnOtherWrite (a : Word) (v : Byte) (s : State) : Action :=
  if detectsOther a s then .run .invalidateAll (setMem (putByte s.mem a v) s)
  else .become (setMem (putByte s.mem a v) s)

/-- The next of what arrives, or nothing. -/
def actOnInput (s : State) : Action :=
  match s.inputs with
  | [] => .idle
  | .transfer bytes :: rest => actOnTransfer bytes (setInputs rest s)
  | .otherWrite a v :: rest => actOnOtherWrite a v (setInputs rest s)
  | .memoryAnswers rules :: rest => .become { setInputs rest s with answers := rules }
  | .memoryReadEffects effects :: rest => .become { setInputs rest s with readEffects := effects }
  | .requesterPrivilege b :: rest => .become { setInputs rest s with privileged := b }
  | .resetEvent :: rest => .run .reset (setInputs rest s)
  | .powerOrClockChange :: _ => .refuse .powerOrClockChange

/-- R148, R62: whether the next beat of a refill in progress comes before what arrives. A transfer waits but
for `servedBetweenBeats`; a change of the environment or the reset comes before or after any beat, as the
draw says; a clock or power change is refused at once (R212). -/
def beatComesFirst (s : State) : Bool :=
  match s.inputs with
  | [] => true
  | .transfer bytes :: _ => !servedBetweenBeats bytes s
  | .powerOrClockChange :: _ => false
  | .otherWrite _ _ :: _ => s.draws.beatFirst
  | .memoryAnswers _ :: _ => s.draws.beatFirst
  | .memoryReadEffects _ :: _ => s.draws.beatFirst
  | .requesterPrivilege _ :: _ => s.draws.beatFirst
  | .resetEvent :: _ => s.draws.beatFirst

/-- The next action (R203, R148). -/
def nextAction (s : State) : Action :=
  match s.refill with
  | none => actOnInput s
  | some r => if beatComesFirst s then .run (nextBeat r s) s else actOnInput s

/-- The draws are taken anew. -/
def redraw (s : State) : State := { s with draws := Config.draws (s.tick + 1), tick := s.tick + 1 }

/-- A result with the draws of its next state taken anew. -/
def redrawn (r : Result) : Result := andThen r fun s => .next (redraw s)

end Sys2Proof.Machine
end

