-- ==== Sys2Proof/Machine/Step.lean ====
section
/-! DEFINITION. One step of the machine. -/

namespace Sys2Proof.Machine

/-- One event: an instruction, or a change of the environment (R203: one thing at a time). -/
def step (s : State) : Host.Outcome State Fault Refusal :=
  match nextAction s with
  | .idle => .next s
  | .run i t => redrawn (exec i t)
  | .become t => redrawn (.next t)
  | .refuse r => .refused r

/-- The state with the transfer of an opcode-table word the next to be handled: at the head of what arrives,
and no refill in progress that would come first (notes/assumptions/2.md). -/
def State.withFetchWord (s : State) (nbits w : Nat) : State :=
  setRefill none (setInputs (.transfer (tableBytes nbits w) :: s.inputs) s)

end Sys2Proof.Machine
end

