-- ==== Sys2Proof/Safety.lean ====
section
/-! DEFINITION. What counts as a safe state: the invariants of 10_state.md R38, and agreement of the cache
with the addressed memory (20_memory.md R64, R70). -/

namespace Sys2Proof.Machine

/-! ### The invariants of R38 -/

/-- R38.4: the reserved bits of ART_CTR are at their reset value. -/
def ReservedBitsKept (s : State) : Prop := keepsReserved s.artCtr = true

/-- R38.1: no two valid lines hold the same index. -/
def LineTagsDistinct (s : State) : Prop :=
  ∀ i j : LineNo, (line s i).valid = true → (line s j).valid = true →
    (line s i).index = (line s j).index → i = j

/-- R38.2: outside a refill a valid buffer is a copy of a valid line; and R34: it is whole. -/
def BufferHasSource (s : State) : Prop :=
  s.refill = none → s.buf.valid = true →
    (∃ i : LineNo, (line s i).valid = true ∧ (line s i).index = s.buf.index ∧ (line s i).seg = s.buf.seg) ∧
    ∀ j : BitVec 2, arrivedAt s.buf.arrived j = true

/-- R38.3, and what makes it inductive: during a refill the buffer has the index of the block, the victim
is not valid, exactly the quarters of the beats done are marked; the victim has the same index and the
same segments in those quarters, no valid line has the index, and the first beat has been. -/
def RefillConsistent (s : State) : Prop :=
  ∀ r : Refill, s.refill = some r →
    s.buf.index = indexOf r.base ∧
    (line s r.victim).valid = false ∧
    (∀ j : BitVec 2, arrivedAt s.buf.arrived j = true ↔ (j - r.j0).toNat < r.done.val) ∧
    blockBase r.base = r.base ∧
    (line s r.victim).index = s.buf.index ∧
    (∀ k : BitVec 3, arrivedAt s.buf.arrived (quarterOfSeg k) = true →
      segAt s.buf.seg k = segAt (line s r.victim).seg k) ∧
    (∀ i : LineNo, (line s i).valid = true → (line s i).index ≠ s.buf.index) ∧
    r.done ≠ 0 ∧ s.buf.valid = true

/-- R35: the recency order is an order on the 64 line numbers. -/
def RecencyIsOrder (s : State) : Prop := s.lru.Perm (List.finRange 64)

/-- All of them, and the memory's canonical form. -/
def Inv (s : State) : Prop :=
  ReservedBitsKept s ∧ LineTagsDistinct s ∧ BufferHasSource s ∧ RefillConsistent s ∧ RecencyIsOrder s ∧
    Memory.wf s.mem

/-! ### Agreement with the addressed memory -/

/-- The block base of the buffer's index in the cacheable page (R85). -/
def bufBase (s : State) : Word := pcacheaddr s ++ s.buf.index ++ (0 : BitVec 5)

/-- Every valid line and every arrived quarter of a valid buffer holds what the memory holds now, and a
refill in progress is of a block of the cacheable page. -/
def Coherent (s : State) : Prop :=
  (∀ i : LineNo, (line s i).valid = true →
    ∀ k : BitVec 3, segAt (line s i).seg k = wordAt s.mem (segAddr (lineBase s i) k)) ∧
  (s.buf.valid = true → ∀ k : BitVec 3, arrivedAt s.buf.arrived (quarterOfSeg k) = true →
    segAt s.buf.seg k = wordAt s.mem (segAddr (bufBase s) k)) ∧
  ∀ r : Refill, s.refill = some r → pageOf r.base = pcacheaddr s

/-- No valid line and no valid buffer: what an invalidating event leaves (R161). -/
def NothingValid (s : State) : Prop :=
  (∀ i : LineNo, (line s i).valid = false) ∧ s.buf.valid = false

/-- ART_CTR, the lines, the buffer, the recency order and the refill are the same in two states: all of
the ART's own state (R20) but `primed`. -/
def SameCache (s t : State) : Prop :=
  t.artCtr = s.artCtr ∧ t.lines = s.lines ∧ t.buf = s.buf ∧ t.lru = s.lru ∧ t.refill = s.refill

/-- The indexes and segments of the lines and of the buffer are the same in two states; the validity bits
may differ. -/
def SameContents (s t : State) : Prop :=
  (∀ i : LineNo, (line t i).index = (line s i).index ∧ (line t i).seg = (line s i).seg) ∧
    t.buf.index = s.buf.index ∧ t.buf.seg = s.buf.seg ∧ t.buf.arrived = s.buf.arrived

/-- What arrives, the requester's privilege, how the memory answers, the effects of its reads and the model's
own counters are the same in two states. -/
def SameSurroundings (s t : State) : Prop :=
  t.answers = s.answers ∧ t.readEffects = s.readEffects ∧ t.privileged = s.privileged ∧ t.inputs = s.inputs ∧
    t.draws = s.draws ∧ t.tick = s.tick

/-- The step has given one answer and changed nothing else. -/
def OnlyAnswered (s t : State) (r : Resp) : Prop :=
  t.trace = .response r :: s.trace ∧ SameCache s t ∧ t.primed = s.primed ∧ t.mem = s.mem ∧ SameSurroundings s t

/-- The requester may write ART_CTR: it is privileged, or PRIV_CHECK asks for nothing (D24, R190). -/
def MayWriteCtr (s : State) : Prop := s.privileged = true ∨ Config.privCheck = .none

/-- The requester may read ART_CTR: it is privileged, or PRIV_CHECK asks for nothing of reads (D24, R190). -/
def MayReadCtr (s : State) : Prop :=
  s.privileged = true ∨ Config.privCheck = .none ∨ Config.privCheck = .writes

/-- The memory answers a read with data. -/
def ReadsNormally (s : State) (p : Port) (a : Word) : Prop :=
  answerTo s p false a ≠ some .error ∧ answerTo s p false a ≠ some .silent

/-- The memory after reads through AXIM that start at these addresses, in order (R61). -/
def memAfterReads (s : State) (as : List Word) : List Host.Cell :=
  as.foldl (fun m a => putBytes m (readEffect s .axim a)) s.mem

/-- The memory after the failing beat of a refill and the beats read after it (R147, R61). -/
def memAfterFailure (s : State) (r : Refill) : List Host.Cell := memAfterReads s (beatAddr r :: restAddrs r s)

/-- What the ports carry on a failing beat, the latest first: the failing read, then the discarded ones. -/
def failureTrace (s : State) (r : Refill) : List PortEvent :=
  ((restAddrs r s).map PortEvent.aximThrownAway).reverse ++ .aximRead (beatAddr r) none :: s.trace

/-- No read has an effect on the cacheable page (R239: such a location "must not lie in the cacheable
page"). -/
def PageReadsPlain (s : State) : Prop :=
  ∀ e ∈ s.readEffects, ∀ b ∈ e.bytes, pageOf b.1 ≠ pcacheaddr s

/-- A write on AHBM changes the bytes it covers: the memory takes it and does not ignore it. -/
def ahbmStores (s : State) (a : Word) : Bool :=
  !(answerTo s .ahbm true a == some .error) && !(answerTo s .ahbm true a == some .ignored)

/-- What the memory answers a read on AHBM with: data, or `none` for ERROR. -/
def ahbmData (s : State) (sz : Size) (a : Word) : Option Word :=
  if answerTo s .ahbm false a = some .error then none else some (loadAt s.mem a sz)

/-- What the memory answers a write on AHBM with: `false` for ERROR. -/
def ahbmTakes (s : State) (a : Word) : Bool := !(answerTo s .ahbm true a == some .error)

/-- The response that carries a read's answer to the requester unchanged (R108). -/
def readResp (sz : Size) : Option Word → Resp
  | some v => .okayData sz v
  | none => .error

/-- What the fetch is answered when the first beat of its refill fails (R147, D17): ERROR, or the answer to a
repeat of it on the non-cacheable path. -/
def firstErrorResp (s : State) (r : Refill) : Resp :=
  match Config.errorResponse with
  | .propagate => .error
  | .retryNoncacheable => readResp .b32 (ahbmData (setMem (memAfterFailure s r) s) .b32 (missAddr r))

/-- The memory after the failure of a refill's first beat: the repeat of the fetch is a read too (R61). -/
def memAfterFirstError (s : State) (r : Refill) : List Host.Cell :=
  match Config.errorResponse with
  | .propagate => memAfterFailure s r
  | .retryNoncacheable => putBytes (memAfterFailure s r) (readEffect s .ahbm (missAddr r))

/-- The record with which a miss starts its refill (R140). -/
def missRefill (s : State) (a : Word) : Refill :=
  { victim := victim s, base := blockBase a, j0 := quarterOf a, seg := segOf a, done := 0 }

/-- What arrives is a change of the environment or the reset (R12, R62, R230). -/
def isChange : Input → Bool
  | .transfer _ => false
  | .resetEvent => true
  | .powerOrClockChange => false
  | .otherWrite _ _ => true
  | .memoryAnswers _ => true
  | .memoryReadEffects _ => true
  | .requesterPrivilege _ => true

/-- The memory `m'` is `m` after a store: the covered bytes hold the data, least significant first (R57),
and every other byte of memory reads as before. -/
def MemoryAfterStore (m m' : List Host.Cell) (a d : Word) (sz : Size) : Prop :=
  (∀ k < sizeBytes sz, byteAt m' (a + BitVec.ofNat 32 k) = d.extractLsb' (8 * k) 8) ∧
    ∀ n : Nat, (∀ k < sizeBytes sz, n ≠ (a + BitVec.ofNat 32 k).toNat) → readByte m' n = readByte m n

/-- `primed` after a slave-port access that does not qualify (R102). -/
def primedAfterNotQualifying (s : State) : Bool :=
  if Config.firstAccessPolicy = .run then false else s.primed

/-- The instructions that can clear a validity bit (R160, R167): the three causes and the reset, the
eviction of one line by a refill, and a buffer hit that waits while a beat is performed. -/
def mayInvalidate : Instr → Bool
  | .txnRefused .. => false
  | .writePage .. => true
  | .writeOther .. => false
  | .dread .. => false
  | .ifetchNc .. => false
  | .ifetchCFirst _ => false
  | .ifetchCHitb _ => true
  | .ifetchCHitl _ => false
  | .ifetchCMiss _ => true
  | .ctrRd32 => false
  | .ctrWr32 _ => true
  | .ctrWrn .. => false
  | .ctrRdn .. => false
  | .regOther .. => false
  | .refillBeat => true
  | .refillErr => true
  | .invalidateAll => true
  | .reset => true

/-- The memory answers the next beat of a refill in progress with ERROR (R147). -/
def nextBeatFails (s : State) : Prop :=
  ∃ r : Refill, s.refill = some r ∧ answerTo s .axim false (beatAddr r) = some .error

/-- The instruction, run in this state, is a cause for flagging everything invalid: the three of R160 (a write
to the page while the detector is active, R168; a word write, by a requester that may write (R190), that
changes the page index; a beat answered with
ERROR, be it a miss's first, the next one, or the one that a buffer hit waits for), the events that stand for
them, the reset, and a word write that clears EN where KEEP_ON_DISABLE says that this invalidates (R168,
notes/assumptions/16.md). -/
def invalidationCause (s : State) : Instr → Prop
  | .txnRefused .. => False
  | .writePage .. => writeDetectActive s = true
  | .writeOther .. => False
  | .dread .. => False
  | .ifetchNc .. => False
  | .ifetchCFirst _ => False
  | .ifetchCHitb a => arrivedAt s.buf.arrived (quarterOf a) = false ∧ nextBeatFails s
  | .ifetchCHitl _ => False
  | .ifetchCMiss a => answerTo s .axim false (quarterAddr (blockBase a) (quarterOf a)) = some .error
  | .ctrRd32 => False
  | .ctrWr32 w => MayWriteCtr s ∧
      (w.extractLsb' 8 12 ≠ pcacheaddr s ∨ enabled s = true ∧ w.getLsbD 0 = false ∧ dropsOnDisable s = true)
  | .ctrWrn .. => False
  | .ctrRdn .. => False
  | .regOther .. => False
  | .refillBeat => nextBeatFails s
  | .refillErr => True
  | .invalidateAll => True
  | .reset => True

/-- Every validity bit that is set in the one state is set in the other, but for one line's where `evicted`
says so (R167: an eviction "clears that line's bit alone"). -/
def KeepsValidity (s t : State) (evicted : LineNo → Prop) : Prop :=
  (∀ l : LineNo, (line s l).valid = true → (line t l).valid = true ∨ evicted l) ∧
    (s.buf.valid = true → t.buf.valid = true)

/-- The bytes of the 32-bit cacheable fetch of an address (R92 `IF32.C`). -/
def fetchBytes (a : Word) : List Byte := txnBytes false true true .b32 a 0

end Sys2Proof.Machine
end

