-- ==== Sys2Proof/Certificates/Slice0/Obligations.lean ====
section
/-! DEFINITION. The statements about the model, for the provers. Each docstring names the rule of spec/ that
it formalises. -/

open Sys2Proof Sys2Proof.Machine

/-! ### Encoding and sorting -/

/-- R84, R86, R92: the transfer of a well-formed instruction, in a state where the instruction's row of
R86 holds, is sorted back into exactly that instruction, every operand at every value. The byte layout is
the model's (log 1). -/
def Obligations.EncodedInstructionDecodesBack : Prop :=
  ∀ (v : View) (i : Instr) (bs : List Byte),
    i.wellFormed = true → v.admits i = true → encode i = some bs → decode v bs = .ok i

/-- R86, R84: whatever the decoder reads is well formed, belongs to the class by its own row's conditions, and
its encoding is the transfer that was read: no bit is dropped. That well formed takes in alignment is decision
D9 (R59, log 6); the nine bytes, and that a transfer with stray data or stray attr bits is rejected, are the
model's layout (log 1, DESIGN CHOICE). -/
def Obligations.DecodedTransferEncodesBack : Prop :=
  ∀ (v : View) (bs : List Byte) (i : Instr), decode v bs = .ok i →
    i.wellFormed = true ∧ v.admits i = true ∧ encode i = some bs

/-- 95_test_vectors.md V31, V34, V39, V40, V38, V60, V2, V61 and V21: the classes the spec names for these
transactions. Address, direction, width and attributes are the spec's (R84, R92); the nine bytes, the kind in
bits 7:5 of the first and the form of a register transfer are the model's layout (log 1, DESIGN CHOICE). The
line hit has the address of V2, and the buffer hit is that address with the buffer's index equal to it. -/
def Obligations.SpecWordsDecode : Prop :=
  let v : View := { page := 0x2A9, en := true, firstNow := false, bufTag := none, lineTags := [] }
  decode v [0b01010, 0xE4, 0xA6, 0x9B, 0x2A, 0, 0, 0, 0] = .ok (.ifetchNc .b32 false 0x2A9BA6E4) ∧
  decode v [0b00110, 0xE4, 0xA6, 0x9B, 0x2A, 0, 0, 0, 0] = .ok (.dread .b32 true 0x2A9BA6E4) ∧
  decode v [0b10000, 0x03, 0x00, 0x90, 0x2A, 0, 0, 0, 0] = .ok (.writePage .b8 false 0x2A900003 0) ∧
  decode v [0b10010, 0x00, 0x00, 0xA0, 0x2A, 0, 0, 0, 0] = .ok (.writeOther .b32 false 0x2AA00000 0) ∧
  decode { v with firstNow := true } [0b01110, 0xE4, 0xA6, 0x9B, 0x2A, 0, 0, 0, 0] =
    .ok (.ifetchCFirst 0x2A9BA6E4) ∧
  decode v [0b01110, 0xE4, 0xA6, 0x9B, 0x2A, 0, 0, 0, 0] = .ok (.ifetchCMiss 0x2A9BA6E4) ∧
  decode { v with lineTags := [0x5D37] } [0b01110, 0xE4, 0xA6, 0x9B, 0x2A, 0, 0, 0, 0] =
    .ok (.ifetchCHitl 0x2A9BA6E4) ∧
  decode { v with bufTag := some 0x5D37 } [0b01110, 0xE4, 0xA6, 0x9B, 0x2A, 0, 0, 0, 0] =
    .ok (.ifetchCHitb 0x2A9BA6E4) ∧
  decode v [0b00110010, 0, 0, 0, 0, 0x05, 0xA9, 0x02, 0x00] = .ok (.ctrWr32 0x0002A905)

/-- R203, R86: with no refill in progress and a transfer next, a step takes the transfer away, runs the
instruction it is sorted into, and then takes the draws anew (log 28). -/
def Obligations.StepRunsDecodedInstruction : Prop :=
  ∀ (s : State) (bs : List Byte) (rest : List Input) (i : Instr),
    s.refill = none → s.inputs = .transfer bs :: rest → decode (view s) bs = .ok i →
      step s = redrawn (exec i (setInputs rest s))

/-- R100: a transfer is sorted into a class of the cacheable path exactly if it is a 32-bit instruction
fetch of cacheable type whose address bits 31:20 equal PCACHEADDR, while EN = 1: "every write, every data
read, every fetch narrower than 32 bits, every fetch without the cacheable property, every fetch outside
the page, and every access at all while EN = 0" is non-cacheable. -/
def Obligations.CacheableExactlyWhenQualified : Prop :=
  ∀ (s : State) (bs : List Byte) (i : Instr), decode (view s) bs = .ok i →
    ((∃ a : Word, i = .ifetchCFirst a ∨ i = .ifetchCHitb a ∨ i = .ifetchCHitl a ∨ i = .ifetchCMiss a) ↔
      ∃ a : Word, bs = fetchBytes a ∧ pageOf a = pcacheaddr s ∧ enabled s = true)

/-- R120, R123: a cacheable fetch that is not the first is a buffer hit if the buffer is valid and has its
index (decision D12 for a match with a line too, log 9), else a line hit if some valid line has its index,
else a miss. An invalid line or buffer never matches. -/
def Obligations.HitCheckComparesValidIndexes : Prop :=
  ∀ (s : State) (a : Word), Size.b32.alignedTo a = true → pageOf a = pcacheaddr s → enabled s = true →
    firstNow s = false →
    (s.buf.valid = true ∧ s.buf.index = indexOf a → decode (view s) (fetchBytes a) = .ok (.ifetchCHitb a)) ∧
    (¬ (s.buf.valid = true ∧ s.buf.index = indexOf a) →
      ((∃ l : LineNo, (line s l).valid = true ∧ (line s l).index = indexOf a) →
        decode (view s) (fetchBytes a) = .ok (.ifetchCHitl a)) ∧
      ((∀ l : LineNo, ¬ ((line s l).valid = true ∧ (line s l).index = indexOf a)) →
        decode (view s) (fetchBytes a) = .ok (.ifetchCMiss a)))

/-- R120: "Compare match indicates a cache hit. The absence of compare match indicates a cache miss." For a
transaction that qualifies and is not the first, the compare is with the buffer's index if the buffer is
valid, and with the index of each line flagged as valid; at most one line matches (R38). -/
def Obligations.CompareMatchIsAHit : Prop :=
  ∀ (s : State) (a : Word) (i : Instr), Inv s → pageOf a = pcacheaddr s → enabled s = true →
    firstNow s = false → decode (view s) (fetchBytes a) = .ok i →
    ((i = .ifetchCHitb a ∨ i = .ifetchCHitl a) ↔
      (s.buf.valid = true ∧ s.buf.index = indexOf a) ∨
        ∃ l : LineNo, (line s l).valid = true ∧ (line s l).index = indexOf a) ∧
    (i = .ifetchCMiss a ↔
      ¬ (s.buf.valid = true ∧ s.buf.index = indexOf a) ∧
        ∀ l : LineNo, ¬ ((line s l).valid = true ∧ (line s l).index = indexOf a)) ∧
    ∀ l k : LineNo, (line s l).valid = true → (line s l).index = indexOf a →
      (line s k).valid = true → (line s k).index = indexOf a → l = k

/-- R102 (decision D10, log 7): which qualifying fetch is "the first". With `primed` = 0 it is, under every
policy; with `primed` = 1 it is not under `once`, `enable` and `run`, and under `any` exactly if the draw says
so. Such a fetch, and no other, is sorted as IFETCH.C.FIRST. -/
def Obligations.FirstAccessReadsPrimed : Prop :=
  ∀ (s : State) (a : Word), Size.b32.alignedTo a = true → pageOf a = pcacheaddr s → enabled s = true →
    (s.primed = false → decode (view s) (fetchBytes a) = .ok (.ifetchCFirst a)) ∧
    (s.primed = true →
      match Config.firstAccessPolicy with
      | .once => decode (view s) (fetchBytes a) ≠ .ok (.ifetchCFirst a)
      | .enable => decode (view s) (fetchBytes a) ≠ .ok (.ifetchCFirst a)
      | .run => decode (view s) (fetchBytes a) ≠ .ok (.ifetchCFirst a)
      | .any => decode (view s) (fetchBytes a) = .ok (.ifetchCFirst a) ↔ s.draws.first = true) ∧
    (decode (view s) (fetchBytes a) = .ok (.ifetchCFirst a) ↔ firstNow s = true)

/-- R59 (decision D9): a slave-port transaction that is not aligned to its width is refused by name. -/
def Obligations.MisalignedTransferIsRefused : Prop :=
  ∀ (s : State) (write fetch cattr : Bool) (sz : Size) (a d : Word) (rest : List Input),
    s.refill = none → s.inputs = .transfer (txnBytes write fetch cattr sz a d) :: rest →
    sz.alignedTo a = false → step s = .refused (.undecodable .misaligned)

/-! ### Reset and the invariants -/

/-- R40: the values of every piece of state after reset (the contents it leaves unspecified are not named
here). ART_CTR and its fields are the source's; that all 65 validity bits are 0 is decision D3 (log 22), that
`primed` is 0 is D10 and that no refill is in progress is D15, which R40 marks as not in the source. -/
def Obligations.ResetStateHasResetValues : Prop :=
  State.reset.artCtr = 0x00000004 ∧ enabled State.reset = false ∧ pcacheaddr State.reset = 0 ∧
    NothingValid State.reset ∧ State.reset.primed = false ∧ State.reset.refill = none

/-- R230: the event RESET gives every piece of state the value of the table of R40. That the 65 validity bits
are 0 is decision D3 (log 22), `primed` D10 and the refill D15; that the event leaves the memory, what arrives
and the model's own fields as they were is the model's choice (log 24, DESIGN CHOICE). -/
def Obligations.ResetEventGivesResetValues : Prop :=
  ∀ s : State, ∃ t : State, exec .reset s = .next t ∧
    t.artCtr = 0x00000004 ∧ enabled t = false ∧ pcacheaddr t = 0 ∧ NothingValid t ∧
    t.primed = false ∧ t.refill = none ∧ t.mem = s.mem ∧ t.trace = s.trace ∧ SameSurroundings s t

/-- R38: the state after reset satisfies the invariants. -/
def Obligations.ResetStateSatisfiesInvariants : Prop := Inv State.reset

/-- R38: every step keeps the invariants, from every state that satisfies them: distinct indexes of valid
lines, a buffer that copies a valid line, a consistent refill, reserved bits at their reset value; with
them the recency order stays an order and the memory keeps its canonical form. -/
def Obligations.StepKeepsInvariants : Prop :=
  ∀ s t : State, Inv s → step s = .next t → Inv t

/-- R64, R65, R70: what the cache holds stays what the memory holds, as long as writes to the page are
detected (R168; always so while EN = 1), no other writer changes the page unseen (R66), and no read has an
effect on the page (R61, R239). That a forwarded write is in the memory with its response is log 42. -/
def Obligations.StepKeepsCoherence : Prop :=
  ∀ s t : State, Inv s → Coherent s → writeDetectActive s = true → PageReadsPlain s →
    (∀ (a : Word) (v : Byte) (rest : List Input), s.inputs = .otherWrite a v :: rest →
      pageOf a = pcacheaddr s → s.draws.detectOther = true) →
    step s = .next t → Coherent t

/-! ### The non-cacheable classes -/

/-- R105: DREAD is forwarded at its own width and the memory's answer, data or ERROR, is the response; the
cache is neither looked at nor changed, whatever a line holds. No byte of memory changes but by the read's own
effect, where the memory has one (R61, log 44). -/
def Obligations.DataReadIsForwarded : Prop :=
  ∀ (s : State) (sz : Size) (cattr : Bool) (a : Word), answerTo s .ahbm false a ≠ some .silent →
    ∃ t : State, exec (.dread sz cattr a) s = .next t ∧
      t.trace = .response (readResp sz (ahbmData s sz a)) :: .ahbmRead a sz (ahbmData s sz a) :: s.trace ∧
      SameCache s t ∧ t.primed = primedAfterNotQualifying s ∧ t.mem = memAfterRead s .ahbm a ∧
      SameSurroundings s t

/-- R104: IFETCH.NC is forwarded and the memory's answer is the response, even when a line holds the
block; nothing of the cache changes, and the memory by the read's own effect alone (R61, log 44). -/
def Obligations.NonCacheableFetchIsForwarded : Prop :=
  ∀ (s : State) (sz : Size) (cattr : Bool) (a : Word),
    ¬ (sz = .b32 ∧ cattr = true ∧ pageOf a = pcacheaddr s ∧ enabled s = true) →
    answerTo s .ahbm false a ≠ some .silent →
    ∃ t : State, exec (.ifetchNc sz cattr a) s = .next t ∧
      t.trace = .response (readResp sz (ahbmData s sz a)) :: .ahbmRead a sz (ahbmData s sz a) :: s.trace ∧
      SameCache s t ∧ t.primed = primedAfterNotQualifying s ∧ t.mem = memAfterRead s .ahbm a ∧
      SameSurroundings s t

/-- R107: the first cacheable access sets `primed` and is forwarded, the memory's answer its response; the
cache is not looked at and not changed, and the memory by the read's own effect alone (R61, log 44). -/
def Obligations.FirstCacheableAccessIsForwarded : Prop :=
  ∀ (s : State) (a : Word), pageOf a = pcacheaddr s → enabled s = true → firstNow s = true →
    answerTo s .ahbm false a ≠ some .silent →
    ∃ t : State, exec (.ifetchCFirst a) s = .next t ∧
      t.trace = .response (readResp .b32 (ahbmData s .b32 a)) ::
        .ahbmRead a .b32 (ahbmData s .b32 a) :: s.trace ∧
      SameCache s t ∧ t.primed = true ∧ t.mem = memAfterRead s .ahbm a ∧ SameSurroundings s t

/-- R108 (decision D18, log 13): an ERROR on the non-cacheable path is returned to the requester and
changes no line, no bit of the buffer and no field of ART_CTR; a failed write changes no byte of memory
(log 41), and a failed read none but by its own effect (R61, log 44). -/
def Obligations.ForwardedErrorIsPassedBack : Prop :=
  ∀ (s : State) (i : Instr) (sz : Size) (cattr : Bool) (a d : Word), (view s).admits i = true →
    ((i = .dread sz cattr a ∨ i = .ifetchNc sz cattr a ∨ i = .ifetchCFirst a) →
      answerTo s .ahbm false a = some .error →
      ∃ t : State, exec i s = .next t ∧ t.trace.head? = some (.response .error) ∧
        SameCache s t ∧ t.mem = memAfterRead s .ahbm a ∧ SameSurroundings s t) ∧
    (i = .writeOther sz cattr a d → answerTo s .ahbm true a = some .error →
      ∃ t : State, exec i s = .next t ∧ t.trace.head? = some (.response .error) ∧
        SameCache s t ∧ t.mem = s.mem ∧ SameSurroundings s t)

/-- R13, U17: a transaction that waits for a memory which never answers is stuck, which the model shows as a
fault (log 26, DESIGN CHOICE): each class that reads or writes through AHBM, a miss and a beat that read
through AXIM, a buffer hit that waits for such a beat, and, where ERROR_RESPONSE repeats on AHBM the fetch of a
miss whose first beat failed (D17), that repeat. The address of the repeat is the fetch's own
(FirstBeatErrorAnswersTheFetch). The last clause is the same of the event REFILL.ERR for a record with no beat
done, which no state between steps has (log 35). -/
def Obligations.SilentMemoryIsStuck : Prop :=
  (∀ (s : State) (sz : Size) (cattr : Bool) (a : Word), answerTo s .ahbm false a = some .silent →
    exec (.dread sz cattr a) s = .fault .memoryNeverAnswers ∧
    ((view s).admits (.ifetchNc sz cattr a) = true →
      exec (.ifetchNc sz cattr a) s = .fault .memoryNeverAnswers) ∧
    ((view s).admits (.ifetchCFirst a) = true → exec (.ifetchCFirst a) s = .fault .memoryNeverAnswers)) ∧
  (∀ (s : State) (sz : Size) (cattr : Bool) (a d : Word), answerTo s .ahbm true a = some .silent →
    (pageOf a ≠ pcacheaddr s → exec (.writeOther sz cattr a d) s = .fault .memoryNeverAnswers) ∧
    (pageOf a = pcacheaddr s → exec (.writePage sz cattr a d) s = .fault .memoryNeverAnswers)) ∧
  (∀ (s : State) (a : Word), (view s).admits (.ifetchCMiss a) = true →
    answerTo s .axim false (quarterAddr (blockBase a) (quarterOf a)) = some .silent →
    exec (.ifetchCMiss a) s = .fault .memoryNeverAnswers) ∧
  (∀ (s : State) (r : Refill), s.refill = some r → answerTo s .axim false (beatAddr r) = some .silent →
    exec .refillBeat s = .fault .memoryNeverAnswers ∧
    ∀ a : Word, (view s).admits (.ifetchCHitb a) = true → arrivedAt s.buf.arrived (quarterOf a) = false →
      exec (.ifetchCHitb a) s = .fault .memoryNeverAnswers) ∧
  (∀ (s : State) (a : Word), (view s).admits (.ifetchCMiss a) = true →
    answerTo s .axim false (quarterAddr (blockBase a) (quarterOf a)) = some .error →
    Config.errorResponse = .retryNoncacheable →
    answerTo s .ahbm false (missAddr (missRefill s a)) = some .silent →
    exec (.ifetchCMiss a) s = .fault .memoryNeverAnswers) ∧
  ∀ (s : State) (r : Refill), s.refill = some r → r.done = 0 →
    Config.errorResponse = .retryNoncacheable → answerTo s .ahbm false (missAddr r) = some .silent →
    exec .refillErr s = .fault .memoryNeverAnswers

/-- R106: WRITE.OTHER is forwarded and the memory's answer is the response; nothing is invalidated. A write
that the memory takes changes the bytes it covers and no other, and they are in the memory with the response
(log 42, DESIGN CHOICE), least significant first (D8, log 5); one that it ignores (log 26) or answers with
ERROR (log 41) changes none. -/
def Obligations.WriteOutsidePageIsForwarded : Prop :=
  ∀ (s : State) (sz : Size) (cattr : Bool) (a d : Word), Memory.wf s.mem →
    pageOf a ≠ pcacheaddr s → answerTo s .ahbm true a ≠ some .silent →
    ∃ t : State, exec (.writeOther sz cattr a d) s = .next t ∧
      t.trace = .response (if ahbmTakes s a then .okay else .error) ::
        .ahbmWrite a sz d (ahbmTakes s a) :: s.trace ∧
      (if ahbmStores s a then MemoryAfterStore s.mem t.mem a d sz else t.mem = s.mem) ∧
      SameCache s t ∧ t.primed = primedAfterNotQualifying s ∧ SameSurroundings s t

/-- R73, R105: two states with the same memory answer a data read alike, whatever their caches hold. -/
def Obligations.DataReadIgnoresTheCache : Prop :=
  ∀ (s s' t t' : State) (sz : Size) (cattr cattr' : Bool) (a : Word),
    s.mem = s'.mem → s.answers = s'.answers →
    exec (.dread sz cattr a) s = .next t → exec (.dread sz cattr' a) s' = .next t' →
    t.trace.head? = t'.trace.head?

/-- R61: "the model must not assume reads through the ART are idempotent": of two data reads of an address
with nothing between, the second returns what the first read's effect left, which is what the first returned
only if the memory has no such effect (log 44). -/
def Obligations.SecondReadSeesTheEffect : Prop :=
  ∀ (s : State) (sz : Size) (cattr : Bool) (a : Word), ReadsNormally s .ahbm a →
    ∃ t u : State, exec (.dread sz cattr a) s = .next t ∧ exec (.dread sz cattr a) t = .next u ∧
      t.trace.head? = some (.response (.okayData sz (loadAt s.mem a sz))) ∧
      u.trace.head? = some (.response (.okayData sz (loadAt (memAfterRead s .ahbm a) a sz))) ∧
      (readEffect s .ahbm a = [] → u.trace.head? = t.trace.head?)

/-! ### Hits -/

/-- R121: a line hit answers the segment of the one matching line, touches no memory, and copies the line to
the buffer whole. That it makes the line the most recently used is decision D12 (R125, log 9). -/
def Obligations.LineHitReturnsTheSegment : Prop :=
  ∀ (s : State) (a : Word), (view s).admits (.ifetchCHitl a) = true →
    ∃ (t : State) (i : LineNo), exec (.ifetchCHitl a) s = .next t ∧
      (line s i).valid = true ∧ (line s i).index = indexOf a ∧
      t.trace = .response (.okayData .b32 (segAt (line s i).seg (segOf a))) :: s.trace ∧
      t.buf.valid = true ∧ t.buf.index = indexOf a ∧ t.buf.seg = (line s i).seg ∧
      (∀ j : BitVec 2, arrivedAt t.buf.arrived j = true) ∧
      t.lru = i :: s.lru.erase i ∧
      t.artCtr = s.artCtr ∧ t.lines = s.lines ∧ t.primed = s.primed ∧ t.refill = s.refill ∧
      t.mem = s.mem ∧ SameSurroundings s t

/-- R122, R125: a buffer hit whose quarter has arrived answers the segment of the buffer and touches no
memory; only the recency order may change, by a use of the line that holds the index (decision D12, log 9). -/
def Obligations.BufferHitReturnsTheSegment : Prop :=
  ∀ (s : State) (a : Word), (view s).admits (.ifetchCHitb a) = true →
    arrivedAt s.buf.arrived (quarterOf a) = true →
    ∃ t : State, exec (.ifetchCHitb a) s = .next t ∧
      t.trace = .response (.okayData .b32 (segAt s.buf.seg (segOf a))) :: s.trace ∧
      (∀ i : LineNo, (line s i).valid = true → (line s i).index = indexOf a →
        (∀ j : LineNo, (line s j).valid = true → (line s j).index = indexOf a → j = i) →
        t.lru = i :: s.lru.erase i) ∧
      ((∀ i : LineNo, (line s i).valid = true → (line s i).index ≠ indexOf a) → t.lru = s.lru) ∧
      t.artCtr = s.artCtr ∧ t.lines = s.lines ∧ t.buf = s.buf ∧ t.primed = s.primed ∧
      t.refill = s.refill ∧ t.mem = s.mem ∧ SameSurroundings s t

/-- R126 (decision D15, log 10): a buffer hit whose quarter has not arrived is not answered; one more beat
of the refill is read, and the fetch is next again. A step performs that beat as RefillPrecedesTheNextTransfer
says. -/
def Obligations.BufferHitWaitsForItsBeat : Prop :=
  ∀ (s : State) (a : Word) (r : Refill), (view s).admits (.ifetchCHitb a) = true →
    arrivedAt s.buf.arrived (quarterOf a) = false → s.refill = some r → r.done ≠ 0 →
    ReadsNormally s .axim (beatAddr r) →
    ∃ t : State, exec (.ifetchCHitb a) s = .next t ∧
      t.inputs = .transfer (fetchBytes a) :: s.inputs ∧
      t.trace = .aximRead (beatAddr r) (some (beatAt s.mem (beatAddr r))) :: s.trace ∧
      t.artCtr = s.artCtr ∧ t.primed = s.primed ∧ t.mem = memAfterRead s .axim (beatAddr r)

/-- R57, R64, R70: where the cache agrees with the memory, a hit answers the word that the memory holds at
the address, the same word a non-cacheable 32-bit read gives. -/
def Obligations.HitReturnsWhatMemoryHolds : Prop :=
  ∀ (s : State) (a : Word) (i : Instr), Coherent s → Size.b32.alignedTo a = true →
    (i = .ifetchCHitl a ∨ i = .ifetchCHitb a ∧ arrivedAt s.buf.arrived (quarterOf a) = true) →
    (view s).admits i = true →
    ∃ t : State, exec i s = .next t ∧
      t.trace = .response (.okayData .b32 (loadAt s.mem a .b32)) :: s.trace

/-- R148: a fetch that matches the buffer, whose quarter is present, may be served between two beats: when
the draw takes it, a step answers it and the refill goes on where it was. -/
def Obligations.BufferHitServedBetweenBeats : Prop :=
  ∀ (s : State) (a : Word) (r : Refill) (rest : List Input), s.refill = some r →
    s.inputs = .transfer (fetchBytes a) :: rest → Size.b32.alignedTo a = true →
    (view s).admits (.ifetchCHitb a) = true →
    arrivedAt s.buf.arrived (quarterOf a) = true → s.draws.serveBetween = true →
    ∃ t : State, step s = .next t ∧
      t.trace = .response (.okayData .b32 (segAt s.buf.seg (segOf a))) :: s.trace ∧
      t.refill = some r ∧ t.inputs = rest ∧ t.buf = s.buf ∧ t.lines = s.lines

/-! ### Miss, refill, replacement -/

/-- R140, R144, R145, R72: a miss evicts the victim, gives the buffer and the victim the block's index (R140),
reads the quarter of the requested word through AXIM and answers the fetch with that word (R144); the buffer is
valid with that quarter (R145). That the refill is then in progress with one beat done is the model's cut into
steps (log 35, DESIGN CHOICE); which half of the beat is which segment is D8 (log 5). The memory changes by the
read's own effect alone (R61, log 44). -/
def Obligations.MissAnswersFromTheFirstBeat : Prop :=
  ∀ (s : State) (a : Word), Size.b32.alignedTo a = true → (view s).admits (.ifetchCMiss a) = true →
    ReadsNormally s .axim (quarterAddr (blockBase a) (quarterOf a)) →
    ∃ t : State, exec (.ifetchCMiss a) s = .next t ∧
      t.trace = .response (.okayData .b32 (wordAt s.mem a)) ::
        .aximRead (quarterAddr (blockBase a) (quarterOf a))
          (some (beatAt s.mem (quarterAddr (blockBase a) (quarterOf a)))) :: s.trace ∧
      t.refill = some { victim := victim s, base := blockBase a, j0 := quarterOf a, seg := segOf a,
                        done := 1 } ∧
      (line t (victim s)).valid = false ∧ (line t (victim s)).index = indexOf a ∧
      (∀ i : LineNo, i ≠ victim s → line t i = line s i) ∧
      t.buf.valid = true ∧ t.buf.index = indexOf a ∧
      (∀ j : BitVec 2, arrivedAt t.buf.arrived j = true ↔ j = quarterOf a) ∧
      (∀ k : BitVec 3, quarterOfSeg k = quarterOf a →
        segAt t.buf.seg k = wordAt s.mem (segAddr (blockBase a) k) ∧
        segAt (line t (victim s)).seg k = wordAt s.mem (segAddr (blockBase a) k)) ∧
      t.artCtr = s.artCtr ∧ t.lru = s.lru ∧ t.primed = s.primed ∧
      t.mem = memAfterRead s .axim (quarterAddr (blockBase a) (quarterOf a)) ∧ SameSurroundings s t

/-- R144: "A WRAP4 64-bit AXI access reaches the address of the AHB access in the target memory and fetches
data directly to AHB via the cacheable access path." A miss reads the 64 bits at its address rounded down to 8
bytes and is answered with bits 31:0 of them if address bit 2 is 0, bits 63:32 if it is 1, the same word that
the buffer and the line receive for that segment. -/
def Obligations.MissIsAnsweredWithTheSelectedHalf : Prop :=
  ∀ (s : State) (a : Word), (view s).admits (.ifetchCMiss a) = true →
    ReadsNormally s .axim (a.extractLsb' 3 29 ++ (0 : BitVec 3)) →
    ∃ (t : State) (d : DWord), exec (.ifetchCMiss a) s = .next t ∧
      let w : Word := if a.getLsbD 2 then d.extractLsb' 32 32 else d.extractLsb' 0 32
      t.trace = .response (.okayData .b32 w) ::
        .aximRead (a.extractLsb' 3 29 ++ (0 : BitVec 3)) (some d) :: s.trace ∧
      segAt t.buf.seg (segOf a) = w ∧ segAt (line t (victim s)).seg (segOf a) = w

/-- R143, R58: a beat that is not the last reads its quarter, puts bits 31:0 in segment 2j and bits 63:32
in segment 2j+1 of the buffer and of the selected line, and marks the quarter; no other segment, line or
bit changes. The first beat also makes the buffer valid and answers the fetch. -/
def Obligations.BeatFillsItsQuarter : Prop :=
  ∀ (s : State) (r : Refill), s.refill = some r → r.done ≠ 3 → ReadsNormally s .axim (beatAddr r) →
    ∃ t : State, exec .refillBeat s = .next t ∧
      (∀ k : BitVec 3,
        segAt t.buf.seg k =
          (if quarterOfSeg k = beatQuarter r then
            (beatAt s.mem (beatAddr r)).extractLsb' (32 * (k.toNat % 2)) 32 else segAt s.buf.seg k) ∧
        segAt (line t r.victim).seg k =
          (if quarterOfSeg k = beatQuarter r then
            (beatAt s.mem (beatAddr r)).extractLsb' (32 * (k.toNat % 2)) 32
          else segAt (line s r.victim).seg k)) ∧
      (∀ j : BitVec 2, arrivedAt t.buf.arrived j =
        (arrivedAt s.buf.arrived j || j == beatQuarter r)) ∧
      t.refill = some { r with done := r.done + 1 } ∧
      t.trace =
        (if r.done = 0 then [.response (.okayData .b32 (segAt t.buf.seg r.seg))] else []) ++
          .aximRead (beatAddr r) (some (beatAt s.mem (beatAddr r))) :: s.trace ∧
      t.buf.valid = (s.buf.valid || r.done == 0) ∧ t.buf.index = s.buf.index ∧
      (line t r.victim).valid = (line s r.victim).valid ∧
      (line t r.victim).index = (line s r.victim).index ∧
      (∀ i : LineNo, i ≠ r.victim → line t i = line s i) ∧
      t.artCtr = s.artCtr ∧ t.lru = s.lru ∧ t.primed = s.primed ∧
      t.mem = memAfterRead s .axim (beatAddr r) ∧ SameSurroundings s t

/-- R146, R143, R58: the fourth beat fills its quarter of the buffer and of the selected line as the others do;
after it the line is valid and no refill is in progress. After the miss, which does the first beat, and after
the second and third the line is not valid and the refill goes on: that the line becomes valid at the fourth
beat and not before is decision D28 (log 34), which R146 marks as a reading the source does not give. That the
line is then the most recently used, and not before, is D12 (R125, log 9). -/
def Obligations.LastBeatCompletesTheRefill : Prop :=
  (∀ (s : State) (a : Word), (view s).admits (.ifetchCMiss a) = true →
    ReadsNormally s .axim (quarterAddr (blockBase a) (quarterOf a)) →
    ∃ t : State, exec (.ifetchCMiss a) s = .next t ∧ (line t (victim s)).valid = false ∧
      t.refill = some { missRefill s a with done := 1 } ∧ t.lru = s.lru) ∧
  (∀ (s : State) (r : Refill), s.refill = some r → r.done ≠ 3 → ReadsNormally s .axim (beatAddr r) →
    ∃ t : State, exec .refillBeat s = .next t ∧ (line t r.victim).valid = (line s r.victim).valid ∧
      (RefillConsistent s → (line t r.victim).valid = false) ∧
      t.refill = some { r with done := r.done + 1 } ∧ t.lru = s.lru) ∧
  ∀ (s : State) (r : Refill), s.refill = some r → r.done = 3 → ReadsNormally s .axim (beatAddr r) →
    ∃ t : State, exec .refillBeat s = .next t ∧
      (∀ k : BitVec 3,
        segAt t.buf.seg k =
          (if quarterOfSeg k = beatQuarter r then
            (beatAt s.mem (beatAddr r)).extractLsb' (32 * (k.toNat % 2)) 32 else segAt s.buf.seg k) ∧
        segAt (line t r.victim).seg k =
          (if quarterOfSeg k = beatQuarter r then
            (beatAt s.mem (beatAddr r)).extractLsb' (32 * (k.toNat % 2)) 32
          else segAt (line s r.victim).seg k)) ∧
      (∀ j : BitVec 2, arrivedAt t.buf.arrived j =
        (arrivedAt s.buf.arrived j || j == beatQuarter r)) ∧
      (line t r.victim).valid = true ∧ (line t r.victim).index = (line s r.victim).index ∧
      t.refill = none ∧ t.lru = r.victim :: s.lru.erase r.victim ∧
      t.trace = .aximRead (beatAddr r) (some (beatAt s.mem (beatAddr r))) :: s.trace ∧
      (∀ i : LineNo, i ≠ r.victim → line t i = line s i) ∧
      t.buf.valid = s.buf.valid ∧ t.buf.index = s.buf.index ∧
      t.artCtr = s.artCtr ∧ t.primed = s.primed ∧
      t.mem = memAfterRead s .axim (beatAddr r) ∧ SameSurroundings s t

/-- R143, R85 (decision D14): the four beats of a refill read the quarters in wrapping order from that of
the requested word, and each of the block's four addresses exactly once. -/
def Obligations.RefillReadsEachQuarterOnce : Prop :=
  ∀ r : Refill, blockBase r.base = r.base →
    (∀ n : Fin 4, beatAddr { r with done := n } =
      r.base + BitVec.ofNat 32 (8 * ((r.j0.toNat + n.val) % 4))) ∧
    ((List.finRange 4).map fun n => beatAddr { r with done := n }).Perm
      [r.base, r.base + 8, r.base + 16, r.base + 24]

/-- R140 to R146, R29, R72: a miss and its three further beats, with nothing else arriving and a memory that
answers them and has no effects on these reads, load the whole block: some line is then valid with the block's
index and its eight words, the buffer is its copy, every other line is as it was, and the ports saw the four
reads in wrapping order (D14, log 30) with the answer after the first. The moment of validity is D28 (log 34),
the use of the line D12 (log 9), the cut into four steps log 35 (DESIGN CHOICE). -/
def Obligations.RefillLoadsTheBlock : Prop :=
  ∀ (s : State) (a : Word), s.inputs = [] → Size.b32.alignedTo a = true →
    (view s).admits (.ifetchCMiss a) = true →
    (∀ j : BitVec 2, ReadsNormally s .axim (quarterAddr (blockBase a) j) ∧
      readEffect s .axim (quarterAddr (blockBase a) j) = []) →
    ∃ (t0 t1 t2 t3 : State) (v : LineNo),
      exec (.ifetchCMiss a) s = .next t0 ∧ step t0 = .next t1 ∧ step t1 = .next t2 ∧ step t2 = .next t3 ∧
      t3.refill = none ∧
      (line t3 v).valid = true ∧ (line t3 v).index = indexOf a ∧
      (∀ k : BitVec 3, segAt (line t3 v).seg k = wordAt s.mem (segAddr (blockBase a) k)) ∧
      t3.buf.valid = true ∧ t3.buf.index = indexOf a ∧ t3.buf.seg = (line t3 v).seg ∧
      (∀ i : LineNo, i ≠ v → line t3 i = line s i) ∧
      t3.lru = v :: s.lru.erase v ∧ t3.artCtr = s.artCtr ∧ t3.mem = s.mem ∧
      t3.trace =
        let read := fun n : Nat =>
          let q := quarterAddr (blockBase a) (quarterOf a + BitVec.ofNat 2 n)
          PortEvent.aximRead q (some (beatAt s.mem q))
        read 3 :: read 2 :: read 1 :: .response (.okayData .b32 (wordAt s.mem a)) :: read 0 :: s.trace

/-- R147: an error on a beat after the first flags every line and the buffer invalid and ends the refill;
nothing is answered, and nothing of ART_CTR, the indexes, the segments and the recency order changes. The rest
of the burst is read or not (the draw of D17), and where it is, in burst order right after the failing beat
(log 12); the memory changes by the effects of these reads alone (R61, log 44). -/
def Obligations.RefillErrorInvalidatesEverything : Prop :=
  ∀ (s : State) (r : Refill), s.refill = some r → r.done ≠ 0 →
    ∃ t : State, exec .refillErr s = .next t ∧ NothingValid t ∧ t.refill = none ∧ SameContents s t ∧
      (∀ x : Resp, .response x ∈ t.trace → .response x ∈ s.trace) ∧
      (s.draws.readRest = false → t.trace = .aximRead (beatAddr r) none :: s.trace) ∧
      (s.draws.readRest = true → t.trace.length = s.trace.length + 1 + (3 - r.done.val)) ∧
      t.trace = failureTrace s r ∧ t.mem = memAfterFailure s r ∧
      t.artCtr = s.artCtr ∧ t.lru = s.lru ∧ t.primed = s.primed ∧ SameSurroundings s t

/-- R147, decision D17 (ERROR_RESPONSE, log 12): a miss whose first beat the memory answers with ERROR
invalidates everything and leaves no refill, and its fetch is answered ERROR, or by a repeat of it on the
non-cacheable path. The same holds of the event REFILL.ERR for a record with no beat done, which no state
between steps has (log 35). The memory changes by the effects of the reads alone (R61, log 44). -/
def Obligations.FirstBeatErrorAnswersTheFetch : Prop :=
  (∀ (s : State) (a : Word), (view s).admits (.ifetchCMiss a) = true →
    answerTo s .axim false (quarterAddr (blockBase a) (quarterOf a)) = some .error →
    (Config.errorResponse = .retryNoncacheable →
      answerTo s .ahbm false (missAddr (missRefill s a)) ≠ some .silent) →
    ∃ t : State, exec (.ifetchCMiss a) s = .next t ∧ NothingValid t ∧ t.refill = none ∧
      t.trace.head? = some (.response (firstErrorResp s (missRefill s a))) ∧
      t.mem = memAfterFirstError s (missRefill s a) ∧
      t.artCtr = s.artCtr ∧ t.lru = s.lru ∧ t.primed = s.primed ∧ SameSurroundings s t) ∧
  (∀ (s : State) (a : Word), Size.b32.alignedTo a = true → missAddr (missRefill s a) = a) ∧
  ∀ (s : State) (r : Refill), s.refill = some r → r.done = 0 →
    (Config.errorResponse = .retryNoncacheable → answerTo s .ahbm false (missAddr r) ≠ some .silent) →
    ∃ t : State, exec .refillErr s = .next t ∧ NothingValid t ∧ t.refill = none ∧
      t.trace.head? = some (.response (firstErrorResp s r)) ∧ t.mem = memAfterFirstError s r ∧
      t.artCtr = s.artCtr ∧ t.lru = s.lru ∧ t.primed = s.primed ∧ SameSurroundings s t

/-- R143, R200: a beat, and a miss's own first beat, whose read is answered ERROR is a refill error. What the
fetch of such a miss is answered is stated in FirstBeatErrorAnswersTheFetch. -/
def Obligations.BeatAnsweredErrorIsRefillError : Prop :=
  (∀ (s : State) (r : Refill), s.refill = some r → answerTo s .axim false (beatAddr r) = some .error →
    exec .refillBeat s = exec .refillErr s) ∧
  ∀ (s : State) (a : Word), (view s).admits (.ifetchCMiss a) = true →
    answerTo s .axim false (quarterAddr (blockBase a) (quarterOf a)) = some .error →
    ∀ t : State, exec (.ifetchCMiss a) s = .next t → NothingValid t ∧ t.refill = none

/-- R141 (decision D11, log 8): under the policy `lru` the victim is an invalid line while there is one,
and the least recently used line when the cache is full; under `any` it is the drawn line. -/
def Obligations.VictimIsInvalidOrLeastRecentlyUsed : Prop :=
  ∀ s : State, RecencyIsOrder s →
    match Config.victimPolicy with
    | .lru => (cacheFull s = false → (line s (victim s)).valid = false) ∧
        (cacheFull s = true → s.lru.getLast? = some (victim s))
    | .any => victim s = s.draws.victim

/-- R142, R35: of two lines, the one whose last use is later stands nearer the front of the recency
order. -/
def Obligations.LaterUseStandsNearerTheFront : Prop :=
  ∀ (s : State) (before after : List LineNo) (i j : LineNo), i ∉ after → j ∈ after →
    let t := (before ++ i :: after).foldl (fun u k => touch k u) s
    t.lru.idxOf j < t.lru.idxOf i

/-- R148, R126, R203 (decision D15, log 10): while a refill is in progress a transfer waits and the step is the
refill's next beat, but for a fetch that matches the buffer, whose quarter has arrived and which the draw takes
now: a transfer that does not match, one whose quarter has not arrived, and one that the draw does not take all
wait. -/
def Obligations.RefillPrecedesTheNextTransfer : Prop :=
  ∀ (s : State) (r : Refill) (bs : List Byte) (rest : List Input), s.refill = some r →
    s.inputs = .transfer bs :: rest →
    (∀ a : Word, decode (view s) bs = .ok (.ifetchCHitb a) →
      arrivedAt s.buf.arrived (quarterOf a) = true → s.draws.serveBetween = false) →
    step s = redrawn (exec (nextBeat r s) s)

/-- R62, R66, R148 (log 10, DESIGN CHOICE for the draw): a change of the environment that is next while a
refill is in progress comes before the refill's next beat or waits for it, as a draw says, so that it can fall
between any two of the four beats or after the last. -/
def Obligations.ChangeComesBeforeOrAfterABeat : Prop :=
  ∀ (s : State) (r : Refill) (x : Input) (rest : List Input), s.refill = some r →
    s.inputs = x :: rest → isChange x = true →
    (s.draws.beatFirst = true → step s = redrawn (exec (nextBeat r s) s)) ∧
    (s.draws.beatFirst = false → ∃ t : State, step s = .next t ∧ t.inputs = rest ∧ t.trace = s.trace)

/-! ### Consistency -/

/-- R162, R168: WRITE.PAGE is forwarded; while the detector is active every line and the buffer is flagged
invalid before the answer, whether the memory took the write, ignored it (log 26) or answered ERROR (D23,
log 13); an inactive detector changes no validity bit. The memory's answer is the response. A write that the
memory takes changes the bytes it covers and no other, in the memory with the response (log 42, DESIGN CHOICE),
least significant first (D8, log 5); one that it ignores or answers with ERROR (log 41) changes none. `primed`
under policy `run` is R102 and R166 (log 40). -/
def Obligations.WriteToPageInvalidatesEverything : Prop :=
  ∀ (s : State) (sz : Size) (cattr : Bool) (a d : Word), Memory.wf s.mem →
    pageOf a = pcacheaddr s → answerTo s .ahbm true a ≠ some .silent →
    ∃ t : State, exec (.writePage sz cattr a d) s = .next t ∧
      t.trace = .response (if ahbmTakes s a then .okay else .error) ::
        .ahbmWrite a sz d (ahbmTakes s a) :: s.trace ∧
      (if ahbmStores s a then MemoryAfterStore s.mem t.mem a d sz else t.mem = s.mem) ∧
      (if writeDetectActive s then NothingValid t
        else t.lines = s.lines ∧ t.buf = s.buf ∧ t.refill = s.refill) ∧
      SameContents s t ∧ t.artCtr = s.artCtr ∧ t.lru = s.lru ∧
      t.primed = primedAfterNotQualifying s ∧ SameSurroundings s t

/-- R108 (decision D23, log 13): a write to the page that the memory answers ERROR invalidates everything
all the same while the detector is active, and the ERROR is the response; it changes no byte of memory
(log 41). -/
def Obligations.FailedWriteToPageStillInvalidates : Prop :=
  ∀ (s : State) (sz : Size) (cattr : Bool) (a d : Word), pageOf a = pcacheaddr s →
    answerTo s .ahbm true a = some .error → writeDetectActive s = true →
    ∃ t : State, exec (.writePage sz cattr a d) s = .next t ∧
      t.trace.head? = some (.response .error) ∧ NothingValid t ∧ t.refill = none ∧ t.mem = s.mem

/-- R161: INVALIDATE.ALL clears all 65 validity bits; indexes, segments, the recency order, `primed` and
ART_CTR are not changed, and no memory is accessed. A refill in progress ends with it (R149, log 11, DESIGN
CHOICE). -/
def Obligations.InvalidateAllClearsEveryValidityBit : Prop :=
  ∀ s : State, ∃ t : State, exec .invalidateAll s = .next t ∧ NothingValid t ∧ t.refill = none ∧
    SameContents s t ∧ t.artCtr = s.artCtr ∧ t.lru = s.lru ∧ t.primed = s.primed ∧ t.mem = s.mem ∧
    t.trace = s.trace ∧ SameSurroundings s t

/-- R149 (decision D16, log 11): WRITE.PAGE with an active detector, a word write, by a requester that may
write (R190, D24, log 21), that changes the page index, and INVALIDATE.ALL cancel a refill in progress: its line
is not made valid and the buffer stays invalid. -/
def Obligations.InvalidatingEventCancelsTheRefill : Prop :=
  ∀ (s t : State) (r : Refill) (i : Instr), s.refill = some r →
    ((∃ (sz : Size) (cattr : Bool) (a d : Word), i = .writePage sz cattr a d ∧ writeDetectActive s = true) ∨
      (∃ w : Word, i = .ctrWr32 w ∧ MayWriteCtr s ∧ w.extractLsb' 8 12 ≠ pcacheaddr s) ∨
      i = .invalidateAll) →
    exec i s = .next t → t.refill = none ∧ (line t r.victim).valid = false ∧ t.buf.valid = false

/-- R160, R167: there is no fourth cause. An instruction that is none of the causes, in the state it is run in,
clears no validity bit, but for that of the victim's line in a miss; and neither does a step that runs no cause.
The causes are the three of R160, the reset, and, where KEEP_ON_DISABLE says so, a word write that clears EN
(R168, log 16: R167 calls this open). A data read, a fetch on the non-cacheable path, a line hit, a write outside
the page, a read of ART_CTR and a narrow access to it set no line's bit either; and a write to the page that is
not detected, a word write that is no cause or that PRIV_CHECK turns away (log 21), and a buffer hit that is
served or has no refill to wait for leave the lines and the buffer as they are. -/
def Obligations.NoOtherCauseInvalidates : Prop :=
  (∀ (s t : State) (i : Instr), ¬ invalidationCause s i → exec i s = .next t →
    KeepsValidity s t fun l => (∃ a : Word, i = .ifetchCMiss a) ∧ l = victim s) ∧
  (∀ s t : State, (∀ (i : Instr) (u : State), nextAction s = .run i u → ¬ invalidationCause u i) →
    step s = .next t →
    KeepsValidity s t fun l =>
      (∃ (a : Word) (u : State), nextAction s = .run (.ifetchCMiss a) u) ∧ l = victim s) ∧
  (∀ (s t : State) (i : Instr), mayInvalidate i = false → exec i s = .next t →
    ∀ l : LineNo, (line t l).valid = (line s l).valid) ∧
  (∀ (s t : State) (sz : Size) (cattr : Bool) (a d : Word), writeDetectActive s = false →
    exec (.writePage sz cattr a d) s = .next t → t.lines = s.lines ∧ t.buf = s.buf) ∧
  (∀ (s t : State) (w : Word),
    (¬ MayWriteCtr s ∨ w.extractLsb' 8 12 = pcacheaddr s ∧
      (enabled s = false ∨ w.getLsbD 0 = true ∨ dropsOnDisable s = false)) →
    exec (.ctrWr32 w) s = .next t → t.lines = s.lines ∧ t.buf = s.buf) ∧
  (∀ (s t : State) (a : Word), (arrivedAt s.buf.arrived (quarterOf a) = true ∨ s.refill = none) →
    exec (.ifetchCHitb a) s = .next t → t.lines = s.lines ∧ t.buf = s.buf) ∧
  ∀ (s t : State) (a : Word), ReadsNormally s .axim (quarterAddr (blockBase a) (quarterOf a)) →
    exec (.ifetchCMiss a) s = .next t →
    ∀ l : LineNo, l ≠ victim s → (line t l).valid = (line s l).valid

/-- R166: with nothing valid, the next access that qualifies and is not "the first" is a miss, whatever
its address. -/
def Obligations.AfterInvalidationTheNextFetchMisses : Prop :=
  ∀ (s : State) (a : Word), NothingValid s → Size.b32.alignedTo a = true →
    pageOf a = pcacheaddr s → enabled s = true → firstNow s = false →
    decode (view s) (fetchBytes a) = .ok (.ifetchCMiss a)

/-- R65: a word stored to the cacheable page through the slave port while the ART is enabled is what the
next fetch of it through the ART returns, whatever the cache held and whatever is drawn. It rests on log 42
(DESIGN CHOICE): a forwarded write is in the memory when its response is given, which R65 calls outside the
source. -/
def Obligations.StoreThenFetchReturnsTheStoredWord : Prop :=
  ∀ (s : State) (cattr : Bool) (a d : Word) (rest : List Input),
    Memory.wf s.mem → s.refill = none → enabled s = true →
    s.inputs = .transfer (txnBytes true false cattr .b32 a d) :: .transfer (fetchBytes a) :: rest →
    Size.b32.alignedTo a = true → pageOf a = pcacheaddr s →
    answerTo s .ahbm true a = none → ReadsNormally s .ahbm a →
    ReadsNormally s .axim (quarterAddr (blockBase a) (quarterOf a)) →
    ∃ t u : State, step s = .next t ∧ step t = .next u ∧
      t.trace.head? = some (.response .okay) ∧
      u.trace.head? = some (.response (.okayData .b32 d))

/-- R164, R30: after a word write that changes the page index, by a requester that may write (R190, D24, log
21), no fetch is served by a line or buffer loaded before, even one with the same index in the new page. -/
def Obligations.PageChangeHidesOldLines : Prop :=
  ∀ (s t : State) (w : Word), MayWriteCtr s → w.extractLsb' 8 12 ≠ pcacheaddr s →
    exec (.ctrWr32 w) s = .next t →
    ∀ (bs : List Byte) (a : Word),
      decode (view t) bs ≠ .ok (.ifetchCHitb a) ∧ decode (view t) bs ≠ .ok (.ifetchCHitl a)

/-- R66 (decision D19, log 14): a byte changed by another writer changes in memory; the cache is as it was,
or, where the draw says the change of the page was detected, nothing is valid. During a refill this is the step
when the draw takes the change before the next beat (ChangeComesBeforeOrAfterABeat). -/
def Obligations.OtherWriterMayGoUnseen : Prop :=
  ∀ (s : State) (a : Word) (v : Byte) (rest : List Input), Memory.wf s.mem →
    s.inputs = .otherWrite a v :: rest → (s.refill = none ∨ s.draws.beatFirst = false) →
    ∃ t : State, step s = .next t ∧ byteAt t.mem a = v ∧
      (∀ n : Nat, n ≠ a.toNat → readByte t.mem n = readByte s.mem n) ∧ t.inputs = rest ∧
      (s.draws.detectOther = true ∧ pageOf a = pcacheaddr s → NothingValid t) ∧
      (¬ (s.draws.detectOther = true ∧ pageOf a = pcacheaddr s) → SameCache s t) ∧
      t.primed = s.primed ∧ t.trace = s.trace

/-! ### The control register -/

/-- R180, R26, R27: a 32-bit read of ART_CTR answers PCACHEADDR in bits 19:8 and EN in bit 0, and changes
nothing. That the reserved bits read as their reset value is decision D5 (log 17). A read by a requester that
PRIV_CHECK does not let read (R190, D24) changes nothing either; its answer is free (log 21, DESIGN CHOICE). -/
def Obligations.ControlReadGivesTheRegister : Prop :=
  (∀ s : State, MayReadCtr s → ∃ (t : State) (w : Word), exec .ctrRd32 s = .next t ∧
    OnlyAnswered s t (.okayData .b32 w) ∧
    w.extractLsb' 20 12 = 0 ∧ w.extractLsb' 8 12 = pcacheaddr s ∧ w.extractLsb' 1 7 = 2 ∧
    w.getLsbD 0 = enabled s ∧ (keepsReserved s.artCtr = true → w = s.artCtr)) ∧
  ∀ s : State, ¬ MayReadCtr s →
    ∃ t : State, exec .ctrRd32 s = .next t ∧ OnlyAnswered s t (deniedReadResp .b32 s)

/-- R181, R164, R168, R184: a 32-bit write that keeps the reserved bits writes PCACHEADDR and EN; a changed
page index invalidates everything; an unchanged one invalidates nothing (decision D22, log 32), but that
clearing EN does as KEEP_ON_DISABLE says; `primed` is cleared as FIRST_ACCESS_POLICY says. That only a change of
EN from 1 to 0 counts as clearing it is the model's reading (log 16), and so is that every write that leaves
EN = 0 clears `primed` under the policies `enable` and `run`, one of the value already held too (log 40). All
this of a requester that may write: PRIV_CHECK is left open (R190, D24), and that a write it turns away changes
nothing and has a free answer is log 21 (DESIGN CHOICE). -/
def Obligations.ControlWriteSetsTheFields : Prop :=
  (∀ (s : State) (w : Word), ¬ MayWriteCtr s →
    ∃ t : State, exec (.ctrWr32 w) s = .next t ∧ OnlyAnswered s t (deniedWriteResp s)) ∧
  ∀ (s : State) (w : Word), MayWriteCtr s → keepsReserved w = true →
    ∃ t : State, exec (.ctrWr32 w) s = .next t ∧ t.artCtr = w ∧
      pcacheaddr t = w.extractLsb' 8 12 ∧ enabled t = w.getLsbD 0 ∧
      t.trace = .response .okay :: s.trace ∧
      (w.extractLsb' 8 12 ≠ pcacheaddr s → NothingValid t ∧ t.refill = none) ∧
      (w.extractLsb' 8 12 = pcacheaddr s → (enabled s = false ∨ w.getLsbD 0 = true) →
        t.lines = s.lines ∧ t.buf = s.buf ∧ t.refill = s.refill) ∧
      (w.extractLsb' 8 12 = pcacheaddr s → enabled s = true → w.getLsbD 0 = false →
        if dropsOnDisable s then NothingValid t ∧ t.refill = none
        else t.lines = s.lines ∧ t.buf = s.buf ∧ t.refill = s.refill) ∧
      t.primed = (if w.getLsbD 0 = false ∧
          (Config.firstAccessPolicy = .enable ∨ Config.firstAccessPolicy = .run) then false
        else s.primed) ∧
      SameContents s t ∧ t.lru = s.lru ∧ t.mem = s.mem ∧ SameSurroundings s t

/-- R181, R87 (decision D5, log 17): a 32-bit write that does not keep the reserved bits is refused, or,
under RESERVED_POLICY `ignore`, taken with the reserved bits at their reset value. One that PRIV_CHECK turns away
is in ControlWriteSetsTheFields (log 21). -/
def Obligations.ReservedBitsAreNotWritten : Prop :=
  ∀ (s : State) (w : Word), MayWriteCtr s → keepsReserved w = false →
    match Config.reservedPolicy with
    | .refuse => exec (.ctrWr32 w) s = .refused .reservedBitsNotKept
    | .ignore => ∃ t : State, exec (.ctrWr32 w) s = .next t ∧ keepsReserved t.artCtr = true ∧
        pcacheaddr t = w.extractLsb' 8 12 ∧ enabled t = w.getLsbD 0

/-- R182, R24, R88: a narrow write leaves PCACHEADDR as it was and invalidates nothing, and one that does not
cover byte 0 changes nothing at all but for its answer. Over byte 0 it changes nothing either, or EN is a free
value, and `primed` is cleared where EN is thereby cleared under a policy that says so (R102): the model's
treatment of D6 (log 18, DESIGN CHOICE). One that PRIV_CHECK turns away (R190, D24) changes nothing and has a
free answer (log 21, DESIGN CHOICE). -/
def Obligations.NarrowWriteKeepsThePage : Prop :=
  (∀ (s : State) (off : BitVec 2) (n : Narrow) (d : Word), ¬ MayWriteCtr s →
    ∃ t : State, exec (.ctrWrn off n d) s = .next t ∧ OnlyAnswered s t (deniedWriteResp s)) ∧
  ∀ (s : State) (off : BitVec 2) (n : Narrow) (d : Word), MayWriteCtr s →
    ∃ t : State, exec (.ctrWrn off n d) s = .next t ∧ pcacheaddr t = pcacheaddr s ∧
      t.trace = .response .okay :: s.trace ∧
      (off ≠ 0 → SameCache s t ∧ t.primed = s.primed) ∧
      (off = 0 →
        match Config.narrowCtrAccess with
        | .stated => SameCache s t ∧ t.primed = s.primed
        | .unstated => enabled t = s.draws.narrowEn ∧
            t.primed = (if enabled s = true ∧ s.draws.narrowEn = false ∧
              (Config.firstAccessPolicy = .enable ∨ Config.firstAccessPolicy = .run) then false
              else s.primed)) ∧
      t.lines = s.lines ∧ t.buf = s.buf ∧ t.refill = s.refill ∧ t.lru = s.lru ∧ t.mem = s.mem ∧
      SameSurroundings s t

/-- R183: a narrow read changes no state; its answer is the addressed bytes of the register, least
significant first, or a free value (the model's treatment of D7, log 19), and that of one that PRIV_CHECK turns
away (R190, D24) is free (log 21, DESIGN CHOICE). -/
def Obligations.NarrowReadChangesNothing : Prop :=
  (∀ (s : State) (off : BitVec 2) (n : Narrow), ¬ MayReadCtr s →
    ∃ t : State, exec (.ctrRdn off n) s = .next t ∧ OnlyAnswered s t (deniedReadResp n.toSize s)) ∧
  ∀ (s : State) (off : BitVec 2) (n : Narrow), MayReadCtr s → n.toSize.alignedTo (off.setWidth 32) = true →
    ∃ (t : State) (x : Word), exec (.ctrRdn off n) s = .next t ∧ OnlyAnswered s t (.okayData n.toSize x) ∧
      n.toSize.holds x = true ∧
      (match Config.narrowCtrAccess with
        | .stated => ∀ k < sizeBytes n.toSize,
            x.extractLsb' (8 * k) 8 = (ctrRead s).extractLsb' (8 * (off.toNat + k)) 8
        | .unstated => x = lowBits s.draws.narrowRead n.toSize)

/-- R24, R25, R233: "It can be modified with word (32-bit) access type": PCACHEADDR changes only by a 32-bit
write of ART_CTR or a reset, and EN only by those or, where NARROW_CTR_ACCESS does not state its effect, by a
narrow write over byte 0. No rule gives that last case (R182 refuses it or leaves EN, R233 has 32-bit writes
alone): it is the model's treatment of D6 (log 18, DESIGN CHOICE). Such a write is by a requester that may
write (R190, D24, log 21). -/
def Obligations.OnlyWordWritesChangeThePage : Prop :=
  ∀ (s t : State) (i : Instr), exec i s = .next t →
    (pcacheaddr t ≠ pcacheaddr s → i = .reset ∨ MayWriteCtr s ∧ ∃ w : Word, i = .ctrWr32 w) ∧
    (enabled t ≠ enabled s → i = .reset ∨ MayWriteCtr s ∧ ((∃ w : Word, i = .ctrWr32 w) ∨
      Config.narrowCtrAccess = .unstated ∧ ∃ (n : Narrow) (d : Word), i = .ctrWrn 0 n d))

/-! ### Rules of the whole machine -/

/-- R55, R127, R61: of all instructions only WRITE.PAGE and WRITE.OTHER change a byte of memory, but for the
bytes that a memory with effects on reads changes when it is read (log 44). -/
def Obligations.OnlyWritesAndReadEffectsChangeMemory : Prop :=
  ∀ (s t : State) (i : Instr), exec i s = .next t →
    (t.mem ≠ s.mem → s.readEffects = [] →
      ∃ (sz : Size) (cattr : Bool) (a d : Word), i = .writePage sz cattr a d ∨ i = .writeOther sz cattr a d) ∧
    ∀ n : Nat, readByte t.mem n ≠ readByte s.mem n →
      (∃ (sz : Size) (cattr : Bool) (a d : Word), i = .writePage sz cattr a d ∨ i = .writeOther sz cattr a d) ∨
      ∃ e ∈ s.readEffects, ∃ b ∈ e.bytes, n = b.1.toNat

/-- R125 (decision D12, log 9): the recency order changes only by a hit, by the fourth beat of a refill, which
completes it, and by the reset; accesses on the non-cacheable path, the first cacheable access among them, are
no uses, and neither is a miss or another beat. A buffer hit whose quarter has not arrived is not a use, but
the beat it waits for may be the fourth. -/
def Obligations.OnlyUsesChangeRecency : Prop :=
  ∀ (s t : State) (i : Instr), exec i s = .next t → t.lru ≠ s.lru →
    (∃ a : Word, i = .ifetchCHitl a) ∨
    (∃ a : Word, i = .ifetchCHitb a ∧ arrivedAt s.buf.arrived (quarterOf a) = true) ∨
    ((∃ r : Refill, s.refill = some r ∧ r.done = 3) ∧
      (i = .refillBeat ∨
        ∃ a : Word, i = .ifetchCHitb a ∧ arrivedAt s.buf.arrived (quarterOf a) = false)) ∨
    i = .reset

/-! ### Stops -/

/-- R86: a transaction with write = 1 and fetch = 1 is refused, in every state. -/
def Obligations.WriteAndFetchIsRefused : Prop :=
  ∀ (s : State) (sz : Size) (cattr : Bool) (a d : Word),
    exec (.txnRefused sz cattr a d) s = .refused .writeAndFetch

/-- R188, R89: an access to any other offset of the register area is refused, in every state. -/
def Obligations.OtherOffsetsAreRefused : Prop :=
  ∀ (s : State) (write : Bool) (sz : Size) (off d : Word),
    exec (.regOther write sz off d) s = .refused .otherRegisterOffset

/-- R212: a step that meets a clock stop or power-state change is refused. -/
def Obligations.PowerChangeIsRefused : Prop :=
  ∀ (s : State) (rest : List Input), s.inputs = .powerOrClockChange :: rest →
    step s = .refused .powerOrClockChange
end

