-- ==== Sys2Proof/Laws/Decode.lean ====
section
/-! SUPPORT. The transfer's layout: nine bytes give back the fields they were made of. -/

namespace Sys2Proof

theorem append_extract_bytes (w : Word) :
    w.extractLsb' 24 8 ++ w.extractLsb' 16 8 ++ w.extractLsb' 8 8 ++ w.extractLsb' 0 8 = w := by
  apply BitVec.eq_of_getLsbD_eq
  intro i hi
  simp only [BitVec.getLsbD_append, BitVec.getLsbD_extractLsb']
  interval_cases i <;> simp

theorem kind_of_append (k : BitVec 3) (a : BitVec 5) : (k ++ a).extractLsb' 5 3 = k := by
  apply BitVec.eq_of_getLsbD_eq
  intro i hi
  simp only [BitVec.getLsbD_append, BitVec.getLsbD_extractLsb']
  interval_cases i <;> simp

theorem attr_of_append (k : BitVec 3) (a : BitVec 5) : (k ++ a).extractLsb' 0 5 = a := by
  apply BitVec.eq_of_getLsbD_eq
  intro i hi
  simp only [BitVec.getLsbD_append, BitVec.getLsbD_extractLsb']
  interval_cases i <;> simp

/-- The fields of a transfer's bytes are the fields it was made of. -/
theorem Packet.ofBytes_toBytes (p : Packet) : Packet.ofBytes p.toBytes = some p := by
  cases p with
  | mk k a x d =>
    simp only [Packet.toBytes, wordBytes, List.cons_append, List.nil_append, Packet.ofBytes]
    rw [kind_of_append, attr_of_append, append_extract_bytes, append_extract_bytes]

theorem attrKey_write (w f c : Bool) (sz : Size) : (attrKey w f c sz).getLsbD 4 = w := by
  cases w <;> cases f <;> cases c <;> cases sz <;> rfl

theorem attrKey_fetch (w f c : Bool) (sz : Size) : (attrKey w f c sz).getLsbD 3 = f := by
  cases w <;> cases f <;> cases c <;> cases sz <;> rfl

theorem attrKey_cattr (w f c : Bool) (sz : Size) : (attrKey w f c sz).getLsbD 2 = c := by
  cases w <;> cases f <;> cases c <;> cases sz <;> rfl

theorem attrKey_size (w f c : Bool) (sz : Size) :
    Size.ofKey ((attrKey w f c sz).extractLsb' 0 2) = some sz := by
  cases w <;> cases f <;> cases c <;> cases sz <;> rfl

/-- A slave-port transaction with fields in range is sorted by R86's table. -/
theorem decode_txnBytes (v : View) (w f c : Bool) (sz : Size) (a d : Word) :
    decode v (txnBytes w f c sz a d) =
      if !(sz.alignedTo a) then .error .misaligned
      else if !(sz.holds d && (w || d == 0)) then .error .strayData
      else .ok (sortTxn v w f c sz a d) := by
  simp only [decode, txnBytes, Packet.ofBytes_toBytes, decodePacket, attrKey_write, attrKey_fetch,
    attrKey_cattr, attrKey_size]
  rfl

/-- A register access with fields in range is sorted by offset, direction and width. -/
theorem decode_regBytes (v : View) (w : Bool) (sz : Size) (off d : Word) :
    decode v (regBytes w sz off d) =
      if !(sz.alignedTo off) then .error .misaligned
      else if !(sz.holds d && (w || d == 0)) then .error .strayData
      else .ok (sortReg w sz off d) := by
  simp only [decode, regBytes, Packet.ofBytes_toBytes, decodePacket, attrKey_write, attrKey_fetch,
    attrKey_cattr, attrKey_size]
  rfl

end Sys2Proof
end

