-- ==== Sys2Proof/Laws/State.lean ====
section
/-! SUPPORT. One lemma per field per named update of the state, so that no proof unfolds a record update. -/

namespace Sys2Proof.Machine

/-! ### `emit` -/

@[simp] theorem emit_artCtr (e : PortEvent) (s : State) : (emit e s).artCtr = s.artCtr := rfl
@[simp] theorem emit_lines (e : PortEvent) (s : State) : (emit e s).lines = s.lines := rfl
@[simp] theorem emit_buf (e : PortEvent) (s : State) : (emit e s).buf = s.buf := rfl
@[simp] theorem emit_lru (e : PortEvent) (s : State) : (emit e s).lru = s.lru := rfl
@[simp] theorem emit_primed (e : PortEvent) (s : State) : (emit e s).primed = s.primed := rfl
@[simp] theorem emit_refill (e : PortEvent) (s : State) : (emit e s).refill = s.refill := rfl
@[simp] theorem emit_mem (e : PortEvent) (s : State) : (emit e s).mem = s.mem := rfl
@[simp] theorem emit_answers (e : PortEvent) (s : State) : (emit e s).answers = s.answers := rfl
@[simp] theorem emit_readEffects (e : PortEvent) (s : State) : (emit e s).readEffects = s.readEffects := rfl
@[simp] theorem emit_privileged (e : PortEvent) (s : State) : (emit e s).privileged = s.privileged := rfl
@[simp] theorem emit_inputs (e : PortEvent) (s : State) : (emit e s).inputs = s.inputs := rfl
@[simp] theorem emit_trace (e : PortEvent) (s : State) : (emit e s).trace = e :: s.trace := rfl
@[simp] theorem emit_draws (e : PortEvent) (s : State) : (emit e s).draws = s.draws := rfl
@[simp] theorem emit_tick (e : PortEvent) (s : State) : (emit e s).tick = s.tick := rfl

/-! ### `respond` -/

@[simp] theorem respond_artCtr (r : Resp) (s : State) : (respond r s).artCtr = s.artCtr := rfl
@[simp] theorem respond_lines (r : Resp) (s : State) : (respond r s).lines = s.lines := rfl
@[simp] theorem respond_buf (r : Resp) (s : State) : (respond r s).buf = s.buf := rfl
@[simp] theorem respond_lru (r : Resp) (s : State) : (respond r s).lru = s.lru := rfl
@[simp] theorem respond_primed (r : Resp) (s : State) : (respond r s).primed = s.primed := rfl
@[simp] theorem respond_refill (r : Resp) (s : State) : (respond r s).refill = s.refill := rfl
@[simp] theorem respond_mem (r : Resp) (s : State) : (respond r s).mem = s.mem := rfl
@[simp] theorem respond_answers (r : Resp) (s : State) : (respond r s).answers = s.answers := rfl
@[simp] theorem respond_readEffects (r : Resp) (s : State) : (respond r s).readEffects = s.readEffects := rfl
@[simp] theorem respond_privileged (r : Resp) (s : State) : (respond r s).privileged = s.privileged := rfl
@[simp] theorem respond_inputs (r : Resp) (s : State) : (respond r s).inputs = s.inputs := rfl
@[simp] theorem respond_trace (r : Resp) (s : State) : (respond r s).trace = .response r :: s.trace := rfl
@[simp] theorem respond_draws (r : Resp) (s : State) : (respond r s).draws = s.draws := rfl
@[simp] theorem respond_tick (r : Resp) (s : State) : (respond r s).tick = s.tick := rfl

/-! ### `invalidateAll` -/

@[simp] theorem invalidateAll_artCtr (s : State) : (invalidateAll s).artCtr = s.artCtr := rfl
@[simp] theorem invalidateAll_lru (s : State) : (invalidateAll s).lru = s.lru := rfl
@[simp] theorem invalidateAll_primed (s : State) : (invalidateAll s).primed = s.primed := rfl
@[simp] theorem invalidateAll_refill (s : State) : (invalidateAll s).refill = s.refill := rfl
@[simp] theorem invalidateAll_mem (s : State) : (invalidateAll s).mem = s.mem := rfl
@[simp] theorem invalidateAll_answers (s : State) : (invalidateAll s).answers = s.answers := rfl
@[simp] theorem invalidateAll_readEffects (s : State) : (invalidateAll s).readEffects = s.readEffects := rfl
@[simp] theorem invalidateAll_privileged (s : State) : (invalidateAll s).privileged = s.privileged := rfl
@[simp] theorem invalidateAll_inputs (s : State) : (invalidateAll s).inputs = s.inputs := rfl
@[simp] theorem invalidateAll_trace (s : State) : (invalidateAll s).trace = s.trace := rfl
@[simp] theorem invalidateAll_draws (s : State) : (invalidateAll s).draws = s.draws := rfl
@[simp] theorem invalidateAll_tick (s : State) : (invalidateAll s).tick = s.tick := rfl

/-! ### `cancelRefill` -/

@[simp] theorem cancelRefill_artCtr (s : State) : (cancelRefill s).artCtr = s.artCtr := rfl
@[simp] theorem cancelRefill_lines (s : State) : (cancelRefill s).lines = s.lines := rfl
@[simp] theorem cancelRefill_buf (s : State) : (cancelRefill s).buf = s.buf := rfl
@[simp] theorem cancelRefill_lru (s : State) : (cancelRefill s).lru = s.lru := rfl
@[simp] theorem cancelRefill_primed (s : State) : (cancelRefill s).primed = s.primed := rfl
@[simp] theorem cancelRefill_refill (s : State) : (cancelRefill s).refill = none := rfl
@[simp] theorem cancelRefill_mem (s : State) : (cancelRefill s).mem = s.mem := rfl
@[simp] theorem cancelRefill_answers (s : State) : (cancelRefill s).answers = s.answers := rfl
@[simp] theorem cancelRefill_readEffects (s : State) : (cancelRefill s).readEffects = s.readEffects := rfl
@[simp] theorem cancelRefill_privileged (s : State) : (cancelRefill s).privileged = s.privileged := rfl
@[simp] theorem cancelRefill_inputs (s : State) : (cancelRefill s).inputs = s.inputs := rfl
@[simp] theorem cancelRefill_trace (s : State) : (cancelRefill s).trace = s.trace := rfl
@[simp] theorem cancelRefill_draws (s : State) : (cancelRefill s).draws = s.draws := rfl
@[simp] theorem cancelRefill_tick (s : State) : (cancelRefill s).tick = s.tick := rfl

/-! ### `flush` -/

@[simp] theorem flush_artCtr (s : State) : (flush s).artCtr = s.artCtr := rfl
@[simp] theorem flush_lru (s : State) : (flush s).lru = s.lru := rfl
@[simp] theorem flush_primed (s : State) : (flush s).primed = s.primed := rfl
@[simp] theorem flush_refill (s : State) : (flush s).refill = none := rfl
@[simp] theorem flush_mem (s : State) : (flush s).mem = s.mem := rfl
@[simp] theorem flush_answers (s : State) : (flush s).answers = s.answers := rfl
@[simp] theorem flush_readEffects (s : State) : (flush s).readEffects = s.readEffects := rfl
@[simp] theorem flush_privileged (s : State) : (flush s).privileged = s.privileged := rfl
@[simp] theorem flush_inputs (s : State) : (flush s).inputs = s.inputs := rfl
@[simp] theorem flush_trace (s : State) : (flush s).trace = s.trace := rfl
@[simp] theorem flush_draws (s : State) : (flush s).draws = s.draws := rfl
@[simp] theorem flush_tick (s : State) : (flush s).tick = s.tick := rfl

/-! ### `touch` -/

@[simp] theorem touch_artCtr (i : LineNo) (s : State) : (touch i s).artCtr = s.artCtr := rfl
@[simp] theorem touch_lines (i : LineNo) (s : State) : (touch i s).lines = s.lines := rfl
@[simp] theorem touch_buf (i : LineNo) (s : State) : (touch i s).buf = s.buf := rfl
@[simp] theorem touch_lru (i : LineNo) (s : State) : (touch i s).lru = i :: s.lru.erase i := rfl
@[simp] theorem touch_primed (i : LineNo) (s : State) : (touch i s).primed = s.primed := rfl
@[simp] theorem touch_refill (i : LineNo) (s : State) : (touch i s).refill = s.refill := rfl
@[simp] theorem touch_mem (i : LineNo) (s : State) : (touch i s).mem = s.mem := rfl
@[simp] theorem touch_answers (i : LineNo) (s : State) : (touch i s).answers = s.answers := rfl
@[simp] theorem touch_readEffects (i : LineNo) (s : State) : (touch i s).readEffects = s.readEffects := rfl
@[simp] theorem touch_privileged (i : LineNo) (s : State) : (touch i s).privileged = s.privileged := rfl
@[simp] theorem touch_inputs (i : LineNo) (s : State) : (touch i s).inputs = s.inputs := rfl
@[simp] theorem touch_trace (i : LineNo) (s : State) : (touch i s).trace = s.trace := rfl
@[simp] theorem touch_draws (i : LineNo) (s : State) : (touch i s).draws = s.draws := rfl
@[simp] theorem touch_tick (i : LineNo) (s : State) : (touch i s).tick = s.tick := rfl

/-! ### `copyLine` -/

@[simp] theorem copyLine_artCtr (i : LineNo) (s : State) : (copyLine i s).artCtr = s.artCtr := rfl
@[simp] theorem copyLine_lines (i : LineNo) (s : State) : (copyLine i s).lines = s.lines := rfl
@[simp] theorem copyLine_lru (i : LineNo) (s : State) : (copyLine i s).lru = s.lru := rfl
@[simp] theorem copyLine_primed (i : LineNo) (s : State) : (copyLine i s).primed = s.primed := rfl
@[simp] theorem copyLine_refill (i : LineNo) (s : State) : (copyLine i s).refill = s.refill := rfl
@[simp] theorem copyLine_mem (i : LineNo) (s : State) : (copyLine i s).mem = s.mem := rfl
@[simp] theorem copyLine_answers (i : LineNo) (s : State) : (copyLine i s).answers = s.answers := rfl
@[simp] theorem copyLine_readEffects (i : LineNo) (s : State) : (copyLine i s).readEffects = s.readEffects := rfl
@[simp] theorem copyLine_privileged (i : LineNo) (s : State) : (copyLine i s).privileged = s.privileged := rfl
@[simp] theorem copyLine_inputs (i : LineNo) (s : State) : (copyLine i s).inputs = s.inputs := rfl
@[simp] theorem copyLine_trace (i : LineNo) (s : State) : (copyLine i s).trace = s.trace := rfl
@[simp] theorem copyLine_draws (i : LineNo) (s : State) : (copyLine i s).draws = s.draws := rfl
@[simp] theorem copyLine_tick (i : LineNo) (s : State) : (copyLine i s).tick = s.tick := rfl

/-! ### `startRefill` -/

@[simp] theorem startRefill_artCtr (a : Word) (s : State) : (startRefill a s).artCtr = s.artCtr := rfl
@[simp] theorem startRefill_lru (a : Word) (s : State) : (startRefill a s).lru = s.lru := rfl
@[simp] theorem startRefill_primed (a : Word) (s : State) : (startRefill a s).primed = s.primed := rfl
@[simp] theorem startRefill_mem (a : Word) (s : State) : (startRefill a s).mem = s.mem := rfl
@[simp] theorem startRefill_answers (a : Word) (s : State) : (startRefill a s).answers = s.answers := rfl
@[simp] theorem startRefill_readEffects (a : Word) (s : State) : (startRefill a s).readEffects = s.readEffects := rfl
@[simp] theorem startRefill_privileged (a : Word) (s : State) : (startRefill a s).privileged = s.privileged := rfl
@[simp] theorem startRefill_inputs (a : Word) (s : State) : (startRefill a s).inputs = s.inputs := rfl
@[simp] theorem startRefill_trace (a : Word) (s : State) : (startRefill a s).trace = s.trace := rfl
@[simp] theorem startRefill_draws (a : Word) (s : State) : (startRefill a s).draws = s.draws := rfl
@[simp] theorem startRefill_tick (a : Word) (s : State) : (startRefill a s).tick = s.tick := rfl

/-! ### `fillQuarter` -/

@[simp] theorem fillQuarter_artCtr (r : Refill) (d : DWord) (s : State) : (fillQuarter r d s).artCtr = s.artCtr := rfl
@[simp] theorem fillQuarter_lru (r : Refill) (d : DWord) (s : State) : (fillQuarter r d s).lru = s.lru := rfl
@[simp] theorem fillQuarter_primed (r : Refill) (d : DWord) (s : State) : (fillQuarter r d s).primed = s.primed := rfl
@[simp] theorem fillQuarter_refill (r : Refill) (d : DWord) (s : State) : (fillQuarter r d s).refill = s.refill := rfl
@[simp] theorem fillQuarter_mem (r : Refill) (d : DWord) (s : State) : (fillQuarter r d s).mem = s.mem := rfl
@[simp] theorem fillQuarter_answers (r : Refill) (d : DWord) (s : State) : (fillQuarter r d s).answers = s.answers := rfl
@[simp] theorem fillQuarter_readEffects (r : Refill) (d : DWord) (s : State) : (fillQuarter r d s).readEffects = s.readEffects := rfl
@[simp] theorem fillQuarter_privileged (r : Refill) (d : DWord) (s : State) : (fillQuarter r d s).privileged = s.privileged := rfl
@[simp] theorem fillQuarter_inputs (r : Refill) (d : DWord) (s : State) : (fillQuarter r d s).inputs = s.inputs := rfl
@[simp] theorem fillQuarter_trace (r : Refill) (d : DWord) (s : State) : (fillQuarter r d s).trace = s.trace := rfl
@[simp] theorem fillQuarter_draws (r : Refill) (d : DWord) (s : State) : (fillQuarter r d s).draws = s.draws := rfl
@[simp] theorem fillQuarter_tick (r : Refill) (d : DWord) (s : State) : (fillQuarter r d s).tick = s.tick := rfl

/-! ### `answerFirst` -/

@[simp] theorem answerFirst_artCtr (r : Refill) (s : State) : (answerFirst r s).artCtr = s.artCtr := rfl
@[simp] theorem answerFirst_lines (r : Refill) (s : State) : (answerFirst r s).lines = s.lines := rfl
@[simp] theorem answerFirst_lru (r : Refill) (s : State) : (answerFirst r s).lru = s.lru := rfl
@[simp] theorem answerFirst_primed (r : Refill) (s : State) : (answerFirst r s).primed = s.primed := rfl
@[simp] theorem answerFirst_refill (r : Refill) (s : State) : (answerFirst r s).refill = s.refill := rfl
@[simp] theorem answerFirst_mem (r : Refill) (s : State) : (answerFirst r s).mem = s.mem := rfl
@[simp] theorem answerFirst_answers (r : Refill) (s : State) : (answerFirst r s).answers = s.answers := rfl
@[simp] theorem answerFirst_readEffects (r : Refill) (s : State) : (answerFirst r s).readEffects = s.readEffects := rfl
@[simp] theorem answerFirst_privileged (r : Refill) (s : State) : (answerFirst r s).privileged = s.privileged := rfl
@[simp] theorem answerFirst_inputs (r : Refill) (s : State) : (answerFirst r s).inputs = s.inputs := rfl
@[simp] theorem answerFirst_draws (r : Refill) (s : State) : (answerFirst r s).draws = s.draws := rfl
@[simp] theorem answerFirst_tick (r : Refill) (s : State) : (answerFirst r s).tick = s.tick := rfl

/-! ### `complete` -/

@[simp] theorem complete_artCtr (r : Refill) (s : State) : (complete r s).artCtr = s.artCtr := rfl
@[simp] theorem complete_buf (r : Refill) (s : State) : (complete r s).buf = s.buf := rfl
@[simp] theorem complete_lru (r : Refill) (s : State) : (complete r s).lru = r.victim :: s.lru.erase r.victim := rfl
@[simp] theorem complete_primed (r : Refill) (s : State) : (complete r s).primed = s.primed := rfl
@[simp] theorem complete_refill (r : Refill) (s : State) : (complete r s).refill = none := rfl
@[simp] theorem complete_mem (r : Refill) (s : State) : (complete r s).mem = s.mem := rfl
@[simp] theorem complete_answers (r : Refill) (s : State) : (complete r s).answers = s.answers := rfl
@[simp] theorem complete_readEffects (r : Refill) (s : State) : (complete r s).readEffects = s.readEffects := rfl
@[simp] theorem complete_privileged (r : Refill) (s : State) : (complete r s).privileged = s.privileged := rfl
@[simp] theorem complete_inputs (r : Refill) (s : State) : (complete r s).inputs = s.inputs := rfl
@[simp] theorem complete_trace (r : Refill) (s : State) : (complete r s).trace = s.trace := rfl
@[simp] theorem complete_draws (r : Refill) (s : State) : (complete r s).draws = s.draws := rfl
@[simp] theorem complete_tick (r : Refill) (s : State) : (complete r s).tick = s.tick := rfl

/-! ### `resetArt` -/

@[simp] theorem resetArt_artCtr (s : State) : (resetArt s).artCtr = 0x00000004 := rfl
@[simp] theorem resetArt_primed (s : State) : (resetArt s).primed = false := rfl
@[simp] theorem resetArt_refill (s : State) : (resetArt s).refill = none := rfl
@[simp] theorem resetArt_mem (s : State) : (resetArt s).mem = s.mem := rfl
@[simp] theorem resetArt_answers (s : State) : (resetArt s).answers = s.answers := rfl
@[simp] theorem resetArt_readEffects (s : State) : (resetArt s).readEffects = s.readEffects := rfl
@[simp] theorem resetArt_privileged (s : State) : (resetArt s).privileged = s.privileged := rfl
@[simp] theorem resetArt_inputs (s : State) : (resetArt s).inputs = s.inputs := rfl
@[simp] theorem resetArt_trace (s : State) : (resetArt s).trace = s.trace := rfl
@[simp] theorem resetArt_draws (s : State) : (resetArt s).draws = s.draws := rfl
@[simp] theorem resetArt_tick (s : State) : (resetArt s).tick = s.tick := rfl

/-! ### `redraw` -/

@[simp] theorem redraw_artCtr (s : State) : (redraw s).artCtr = s.artCtr := rfl
@[simp] theorem redraw_lines (s : State) : (redraw s).lines = s.lines := rfl
@[simp] theorem redraw_buf (s : State) : (redraw s).buf = s.buf := rfl
@[simp] theorem redraw_lru (s : State) : (redraw s).lru = s.lru := rfl
@[simp] theorem redraw_primed (s : State) : (redraw s).primed = s.primed := rfl
@[simp] theorem redraw_refill (s : State) : (redraw s).refill = s.refill := rfl
@[simp] theorem redraw_mem (s : State) : (redraw s).mem = s.mem := rfl
@[simp] theorem redraw_answers (s : State) : (redraw s).answers = s.answers := rfl
@[simp] theorem redraw_readEffects (s : State) : (redraw s).readEffects = s.readEffects := rfl
@[simp] theorem redraw_privileged (s : State) : (redraw s).privileged = s.privileged := rfl
@[simp] theorem redraw_inputs (s : State) : (redraw s).inputs = s.inputs := rfl
@[simp] theorem redraw_trace (s : State) : (redraw s).trace = s.trace := rfl
@[simp] theorem redraw_draws (s : State) : (redraw s).draws = Config.draws (s.tick + 1) := rfl
@[simp] theorem redraw_tick (s : State) : (redraw s).tick = s.tick + 1 := rfl

/-! ### `setRefill` -/

@[simp] theorem setRefill_artCtr (x : Option Refill) (s : State) : (setRefill x s).artCtr = s.artCtr := rfl
@[simp] theorem setRefill_lines (x : Option Refill) (s : State) : (setRefill x s).lines = s.lines := rfl
@[simp] theorem setRefill_buf (x : Option Refill) (s : State) : (setRefill x s).buf = s.buf := rfl
@[simp] theorem setRefill_lru (x : Option Refill) (s : State) : (setRefill x s).lru = s.lru := rfl
@[simp] theorem setRefill_primed (x : Option Refill) (s : State) : (setRefill x s).primed = s.primed := rfl
@[simp] theorem setRefill_refill (x : Option Refill) (s : State) : (setRefill x s).refill = x := rfl
@[simp] theorem setRefill_mem (x : Option Refill) (s : State) : (setRefill x s).mem = s.mem := rfl
@[simp] theorem setRefill_answers (x : Option Refill) (s : State) : (setRefill x s).answers = s.answers := rfl
@[simp] theorem setRefill_readEffects (x : Option Refill) (s : State) : (setRefill x s).readEffects = s.readEffects := rfl
@[simp] theorem setRefill_privileged (x : Option Refill) (s : State) : (setRefill x s).privileged = s.privileged := rfl
@[simp] theorem setRefill_inputs (x : Option Refill) (s : State) : (setRefill x s).inputs = s.inputs := rfl
@[simp] theorem setRefill_trace (x : Option Refill) (s : State) : (setRefill x s).trace = s.trace := rfl
@[simp] theorem setRefill_draws (x : Option Refill) (s : State) : (setRefill x s).draws = s.draws := rfl
@[simp] theorem setRefill_tick (x : Option Refill) (s : State) : (setRefill x s).tick = s.tick := rfl

/-! ### `setPrimed` -/

@[simp] theorem setPrimed_artCtr (x : Bool) (s : State) : (setPrimed x s).artCtr = s.artCtr := rfl
@[simp] theorem setPrimed_lines (x : Bool) (s : State) : (setPrimed x s).lines = s.lines := rfl
@[simp] theorem setPrimed_buf (x : Bool) (s : State) : (setPrimed x s).buf = s.buf := rfl
@[simp] theorem setPrimed_lru (x : Bool) (s : State) : (setPrimed x s).lru = s.lru := rfl
@[simp] theorem setPrimed_primed (x : Bool) (s : State) : (setPrimed x s).primed = x := rfl
@[simp] theorem setPrimed_refill (x : Bool) (s : State) : (setPrimed x s).refill = s.refill := rfl
@[simp] theorem setPrimed_mem (x : Bool) (s : State) : (setPrimed x s).mem = s.mem := rfl
@[simp] theorem setPrimed_answers (x : Bool) (s : State) : (setPrimed x s).answers = s.answers := rfl
@[simp] theorem setPrimed_readEffects (x : Bool) (s : State) : (setPrimed x s).readEffects = s.readEffects := rfl
@[simp] theorem setPrimed_privileged (x : Bool) (s : State) : (setPrimed x s).privileged = s.privileged := rfl
@[simp] theorem setPrimed_inputs (x : Bool) (s : State) : (setPrimed x s).inputs = s.inputs := rfl
@[simp] theorem setPrimed_trace (x : Bool) (s : State) : (setPrimed x s).trace = s.trace := rfl
@[simp] theorem setPrimed_draws (x : Bool) (s : State) : (setPrimed x s).draws = s.draws := rfl
@[simp] theorem setPrimed_tick (x : Bool) (s : State) : (setPrimed x s).tick = s.tick := rfl

/-! ### `setMem` -/

@[simp] theorem setMem_artCtr (x : List Host.Cell) (s : State) : (setMem x s).artCtr = s.artCtr := rfl
@[simp] theorem setMem_lines (x : List Host.Cell) (s : State) : (setMem x s).lines = s.lines := rfl
@[simp] theorem setMem_buf (x : List Host.Cell) (s : State) : (setMem x s).buf = s.buf := rfl
@[simp] theorem setMem_lru (x : List Host.Cell) (s : State) : (setMem x s).lru = s.lru := rfl
@[simp] theorem setMem_primed (x : List Host.Cell) (s : State) : (setMem x s).primed = s.primed := rfl
@[simp] theorem setMem_refill (x : List Host.Cell) (s : State) : (setMem x s).refill = s.refill := rfl
@[simp] theorem setMem_mem (x : List Host.Cell) (s : State) : (setMem x s).mem = x := rfl
@[simp] theorem setMem_answers (x : List Host.Cell) (s : State) : (setMem x s).answers = s.answers := rfl
@[simp] theorem setMem_readEffects (x : List Host.Cell) (s : State) : (setMem x s).readEffects = s.readEffects := rfl
@[simp] theorem setMem_privileged (x : List Host.Cell) (s : State) : (setMem x s).privileged = s.privileged := rfl
@[simp] theorem setMem_inputs (x : List Host.Cell) (s : State) : (setMem x s).inputs = s.inputs := rfl
@[simp] theorem setMem_trace (x : List Host.Cell) (s : State) : (setMem x s).trace = s.trace := rfl
@[simp] theorem setMem_draws (x : List Host.Cell) (s : State) : (setMem x s).draws = s.draws := rfl
@[simp] theorem setMem_tick (x : List Host.Cell) (s : State) : (setMem x s).tick = s.tick := rfl

/-! ### `setInputs` -/

@[simp] theorem setInputs_artCtr (x : List Input) (s : State) : (setInputs x s).artCtr = s.artCtr := rfl
@[simp] theorem setInputs_lines (x : List Input) (s : State) : (setInputs x s).lines = s.lines := rfl
@[simp] theorem setInputs_buf (x : List Input) (s : State) : (setInputs x s).buf = s.buf := rfl
@[simp] theorem setInputs_lru (x : List Input) (s : State) : (setInputs x s).lru = s.lru := rfl
@[simp] theorem setInputs_primed (x : List Input) (s : State) : (setInputs x s).primed = s.primed := rfl
@[simp] theorem setInputs_refill (x : List Input) (s : State) : (setInputs x s).refill = s.refill := rfl
@[simp] theorem setInputs_mem (x : List Input) (s : State) : (setInputs x s).mem = s.mem := rfl
@[simp] theorem setInputs_answers (x : List Input) (s : State) : (setInputs x s).answers = s.answers := rfl
@[simp] theorem setInputs_readEffects (x : List Input) (s : State) : (setInputs x s).readEffects = s.readEffects := rfl
@[simp] theorem setInputs_privileged (x : List Input) (s : State) : (setInputs x s).privileged = s.privileged := rfl
@[simp] theorem setInputs_inputs (x : List Input) (s : State) : (setInputs x s).inputs = x := rfl
@[simp] theorem setInputs_trace (x : List Input) (s : State) : (setInputs x s).trace = s.trace := rfl
@[simp] theorem setInputs_draws (x : List Input) (s : State) : (setInputs x s).draws = s.draws := rfl
@[simp] theorem setInputs_tick (x : List Input) (s : State) : (setInputs x s).tick = s.tick := rfl

/-! ### `takeEffect` -/

@[simp] theorem takeEffect_artCtr (p : Port) (a : Word) (s : State) : (takeEffect p a s).artCtr = s.artCtr := rfl
@[simp] theorem takeEffect_lines (p : Port) (a : Word) (s : State) : (takeEffect p a s).lines = s.lines := rfl
@[simp] theorem takeEffect_buf (p : Port) (a : Word) (s : State) : (takeEffect p a s).buf = s.buf := rfl
@[simp] theorem takeEffect_lru (p : Port) (a : Word) (s : State) : (takeEffect p a s).lru = s.lru := rfl
@[simp] theorem takeEffect_primed (p : Port) (a : Word) (s : State) : (takeEffect p a s).primed = s.primed := rfl
@[simp] theorem takeEffect_refill (p : Port) (a : Word) (s : State) : (takeEffect p a s).refill = s.refill := rfl
@[simp] theorem takeEffect_answers (p : Port) (a : Word) (s : State) : (takeEffect p a s).answers = s.answers := rfl
@[simp] theorem takeEffect_readEffects (p : Port) (a : Word) (s : State) : (takeEffect p a s).readEffects = s.readEffects := rfl
@[simp] theorem takeEffect_privileged (p : Port) (a : Word) (s : State) : (takeEffect p a s).privileged = s.privileged := rfl
@[simp] theorem takeEffect_inputs (p : Port) (a : Word) (s : State) : (takeEffect p a s).inputs = s.inputs := rfl
@[simp] theorem takeEffect_trace (p : Port) (a : Word) (s : State) : (takeEffect p a s).trace = s.trace := rfl
@[simp] theorem takeEffect_draws (p : Port) (a : Word) (s : State) : (takeEffect p a s).draws = s.draws := rfl
@[simp] theorem takeEffect_tick (p : Port) (a : Word) (s : State) : (takeEffect p a s).tick = s.tick := rfl
@[simp] theorem takeEffect_mem (p : Port) (a : Word) (s : State) :
    (takeEffect p a s).mem = memAfterRead s p a := rfl

/-! ### `setLine` -/

@[simp] theorem setLine_artCtr (i : LineNo) (l : Line) (s : State) : (setLine i l s).artCtr = s.artCtr := rfl
@[simp] theorem setLine_buf (i : LineNo) (l : Line) (s : State) : (setLine i l s).buf = s.buf := rfl
@[simp] theorem setLine_lru (i : LineNo) (l : Line) (s : State) : (setLine i l s).lru = s.lru := rfl
@[simp] theorem setLine_primed (i : LineNo) (l : Line) (s : State) : (setLine i l s).primed = s.primed := rfl
@[simp] theorem setLine_refill (i : LineNo) (l : Line) (s : State) : (setLine i l s).refill = s.refill := rfl
@[simp] theorem setLine_mem (i : LineNo) (l : Line) (s : State) : (setLine i l s).mem = s.mem := rfl
@[simp] theorem setLine_answers (i : LineNo) (l : Line) (s : State) : (setLine i l s).answers = s.answers := rfl
@[simp] theorem setLine_readEffects (i : LineNo) (l : Line) (s : State) : (setLine i l s).readEffects = s.readEffects := rfl
@[simp] theorem setLine_privileged (i : LineNo) (l : Line) (s : State) : (setLine i l s).privileged = s.privileged := rfl
@[simp] theorem setLine_inputs (i : LineNo) (l : Line) (s : State) : (setLine i l s).inputs = s.inputs := rfl
@[simp] theorem setLine_trace (i : LineNo) (l : Line) (s : State) : (setLine i l s).trace = s.trace := rfl
@[simp] theorem setLine_draws (i : LineNo) (l : Line) (s : State) : (setLine i l s).draws = s.draws := rfl
@[simp] theorem setLine_tick (i : LineNo) (l : Line) (s : State) : (setLine i l s).tick = s.tick := rfl

/-! ### Lines -/

theorem line_congr {s t : State} (h : t.lines = s.lines) (i : LineNo) : line t i = line s i := by
  simp only [line, h]

@[simp] theorem line_setLine_same (i : LineNo) (l : Line) (s : State) : line (setLine i l s) i = l := by
  simp [line, setLine]

theorem line_setLine_ne {i j : LineNo} (l : Line) (s : State) (h : j ≠ i) :
    line (setLine i l s) j = line s j := by
  simp [line, setLine, Fin.val_inj, h.symm]

@[simp] theorem line_emit (e : PortEvent) (s : State) (i : LineNo) : line (emit e s) i = line s i := rfl
@[simp] theorem line_respond (r : Resp) (s : State) (i : LineNo) : line (respond r s) i = line s i := rfl
@[simp] theorem line_setPrimed (x : Bool) (s : State) (i : LineNo) : line (setPrimed x s) i = line s i := rfl
@[simp] theorem line_setMem (x : List Host.Cell) (s : State) (i : LineNo) :
    line (setMem x s) i = line s i := rfl
@[simp] theorem line_takeEffect (p : Port) (a : Word) (s : State) (i : LineNo) :
    line (takeEffect p a s) i = line s i := rfl
@[simp] theorem line_setInputs (x : List Input) (s : State) (i : LineNo) :
    line (setInputs x s) i = line s i := rfl
@[simp] theorem line_setRefill (x : Option Refill) (s : State) (i : LineNo) :
    line (setRefill x s) i = line s i := rfl
@[simp] theorem line_cancelRefill (s : State) (i : LineNo) : line (cancelRefill s) i = line s i := rfl
@[simp] theorem line_touch (j : LineNo) (s : State) (i : LineNo) : line (touch j s) i = line s i := rfl
@[simp] theorem line_copyLine (j : LineNo) (s : State) (i : LineNo) : line (copyLine j s) i = line s i := rfl
@[simp] theorem line_redraw (s : State) (i : LineNo) : line (redraw s) i = line s i := rfl
@[simp] theorem line_answerFirst (r : Refill) (s : State) (i : LineNo) :
    line (answerFirst r s) i = line s i := rfl

@[simp] theorem line_invalidateAll (s : State) (i : LineNo) :
    line (invalidateAll s) i = { line s i with valid := false } := by
  simp [line, invalidateAll, clearValid]

@[simp] theorem line_flush (s : State) (i : LineNo) :
    line (flush s) i = { line s i with valid := false } := line_invalidateAll s i

@[simp] theorem line_startRefill_victim (a : Word) (s : State) :
    line (startRefill a s) (victim s) = { line s (victim s) with valid := false, index := indexOf a } :=
  line_setLine_same _ _ _

theorem line_startRefill_ne (a : Word) (s : State) {i : LineNo} (h : i ≠ victim s) :
    line (startRefill a s) i = line s i := line_setLine_ne _ _ h

@[simp] theorem line_fillQuarter_victim (r : Refill) (d : DWord) (s : State) :
    line (fillQuarter r d s) r.victim =
      { line s r.victim with seg := putBeat (line s r.victim).seg (beatQuarter r) d } :=
  line_setLine_same _ _ _

theorem line_fillQuarter_ne (r : Refill) (d : DWord) (s : State) {i : LineNo} (h : i ≠ r.victim) :
    line (fillQuarter r d s) i = line s i := line_setLine_ne _ _ h

@[simp] theorem line_complete_victim (r : Refill) (s : State) :
    line (complete r s) r.victim = { line s r.victim with valid := true } := line_setLine_same _ _ _

theorem line_complete_ne (r : Refill) (s : State) {i : LineNo} (h : i ≠ r.victim) :
    line (complete r s) i = line s i := line_setLine_ne _ _ h

@[simp] theorem line_resetArt (s : State) (i : LineNo) : line (resetArt s) i = resetLine s.tick i := by
  simp [line, resetArt, resetLines]

/-! ### The buffer -/

@[simp] theorem buf_invalidateAll (s : State) :
    (invalidateAll s).buf = { s.buf with valid := false } := rfl

@[simp] theorem buf_flush (s : State) : (flush s).buf = { s.buf with valid := false } := rfl

@[simp] theorem buf_copyLine (i : LineNo) (s : State) :
    (copyLine i s).buf = { valid := true, index := (line s i).index, seg := (line s i).seg,
                           arrived := Vector.replicate 4 true } := rfl

@[simp] theorem buf_answerFirst (r : Refill) (s : State) :
    (answerFirst r s).buf = { s.buf with valid := true } := rfl

@[simp] theorem trace_answerFirst (r : Refill) (s : State) :
    (answerFirst r s).trace = .response (.okayData .b32 (segAt s.buf.seg r.seg)) :: s.trace := rfl

@[simp] theorem buf_startRefill (a : Word) (s : State) :
    (startRefill a s).buf = { s.buf with valid := false, index := indexOf a,
                                         arrived := Vector.replicate 4 false } := rfl

@[simp] theorem refill_startRefill (a : Word) (s : State) :
    (startRefill a s).refill = some { victim := victim s, base := blockBase a, j0 := quarterOf a,
                                      seg := segOf a, done := 0 } := rfl

@[simp] theorem buf_fillQuarter (r : Refill) (d : DWord) (s : State) :
    (fillQuarter r d s).buf = { s.buf with seg := putBeat s.buf.seg (beatQuarter r) d,
                                           arrived := markArrived s.buf.arrived (beatQuarter r) } := rfl

@[simp] theorem buf_valid_resetArt (s : State) : (resetArt s).buf.valid = false := rfl

end Sys2Proof.Machine
end

