-- ==== Sys2Proof/Laws/Flags.lean ====
section
/-! SUPPORT. The hit check, the validity bits and the recency order: one lemma per operation. -/

namespace Sys2Proof.Machine

/-! ### The hit check -/

theorem lineMatch_iff (s : State) (idx : Index) (i : LineNo) :
    lineMatch s idx i = true ↔ (line s i).valid = true ∧ (line s i).index = idx := by
  simp [lineMatch]

/-- A line found matches. -/
theorem findLine_some {s : State} {idx : Index} {i : LineNo} (h : findLine s idx = some i) :
    (line s i).valid = true ∧ (line s i).index = idx :=
  (lineMatch_iff s idx i).1 (List.find?_some h)

/-- No line is found only if no line matches. -/
theorem findLine_none {s : State} {idx : Index} :
    findLine s idx = none ↔ ∀ i : LineNo, (line s i).valid = true → (line s i).index ≠ idx := by
  simp [findLine, lineMatch_iff]

/-- The view's list of indexes holds an index exactly if some line matches it. -/
theorem mem_validTags {s : State} {idx : Index} :
    idx ∈ validTags s ↔ ∃ i : LineNo, (line s i).valid = true ∧ (line s i).index = idx := by
  simp only [validTags, List.mem_filterMap, List.mem_finRange, true_and]
  constructor
  · rintro ⟨i, hi⟩
    split at hi
    · next hv => exact ⟨i, hv, by simpa using hi⟩
    · cases hi
  · rintro ⟨i, hv, hx⟩
    exact ⟨i, by simp [hv, hx]⟩

/-- Where the view holds an index, the line is found. -/
theorem findLine_isSome {s : State} {idx : Index} (h : (validTags s).contains idx = true) :
    ∃ i, findLine s idx = some i := by
  obtain ⟨i, hv, hx⟩ := mem_validTags.1 (List.contains_iff_mem.1 h)
  cases hf : findLine s idx with
  | some j => exact ⟨j, rfl⟩
  | none => exact absurd hx (findLine_none.1 hf i hv)

/-- The view shows the buffer's index exactly if the buffer matches (R120). -/
theorem bufTag_iff (s : State) (idx : Index) :
    ((view s).bufTag == some idx) = bufMatch s idx := by
  simp only [view, bufMatch]
  split <;> simp [*]

@[simp] theorem view_page (s : State) : (view s).page = pcacheaddr s := rfl
@[simp] theorem view_en (s : State) : (view s).en = enabled s := rfl
@[simp] theorem view_firstNow (s : State) : (view s).firstNow = firstNow s := rfl
@[simp] theorem view_lineTags (s : State) : (view s).lineTags = validTags s := rfl

@[simp] theorem view_setInputs (xs : List Input) (s : State) : view (setInputs xs s) = view s := rfl

/-! ### Clearing -/

/-- The reaction to an invalidating event leaves nothing valid. -/
theorem flush_nothingValid (s : State) : NothingValid (flush s) :=
  ⟨fun i => by rw [line_flush], rfl⟩

/-- With nothing valid the view shows no index. -/
theorem NothingValid.validTags_eq {s : State} (h : NothingValid s) : validTags s = [] := by
  simp [validTags, h.1]

theorem NothingValid.bufTag_eq {s : State} (h : NothingValid s) : (view s).bufTag = none := by
  simp [view, h.2]

/-! ### Recency -/

/-- A use keeps the recency order an order. -/
theorem touch_recencyIsOrder {s : State} (i : LineNo) (h : RecencyIsOrder s) : RecencyIsOrder (touch i s) := by
  have hi : i ∈ s.lru := h.mem_iff.2 (List.mem_finRange i)
  exact (List.perm_cons_erase hi).symm.trans h

theorem touchMatching_cases (idx : Index) (s : State) :
    (∃ i, findLine s idx = some i ∧ touchMatching idx s = touch i s) ∨
      (findLine s idx = none ∧ touchMatching idx s = s) := by
  unfold touchMatching
  cases h : findLine s idx with
  | some i => exact .inl ⟨i, rfl, rfl⟩
  | none => exact .inr ⟨rfl, rfl⟩

/-- Uses change the recency order alone, and keep it an order. -/
theorem foldl_touch_recencyIsOrder (us : List LineNo) {s : State} (h : RecencyIsOrder s) :
    RecencyIsOrder (us.foldl (fun t i => touch i t) s) := by
  induction us generalizing s with
  | nil => exact h
  | cons i us ih => exact ih (touch_recencyIsOrder i h)

/-! ### The victim -/

theorem drawInvalid_some {s : State} {i : LineNo} (h : drawInvalid s = some i) :
    (line s i).valid = false := by
  unfold drawInvalid at h
  split at h
  · simpa using List.find?_some h
  · next hv => obtain rfl := Option.some.inj h; simpa using hv

theorem drawInvalid_none {s : State} (h : drawInvalid s = none) (i : LineNo) :
    (line s i).valid = true := by
  unfold drawInvalid at h
  split at h
  · simpa using List.find?_eq_none.1 h i (List.mem_finRange i)
  · cases h

end Sys2Proof.Machine
end

