-- ==== Sys2Proof/Laws/Memory.lean ====
section
/-! SUPPORT. The addressed memory: a byte written reads back, every other byte is left alone, and every
memory operation keeps the canonical form. -/

namespace Sys2Proof.Machine

/-! ### One byte -/

theorem readByte_append_cellOf (a c : Nat) (v : Byte) (m : List Host.Cell) (h : c ≠ a) :
    readByte (cellOf a v ++ m) c = readByte m c := by
  unfold cellOf; split <;> simp [readByte, h]

theorem readByte_absent {m : List Host.Cell} {a : Nat} (h : ∀ c ∈ m, a < c.1) :
    readByte m a = unlistedByte := by
  induction m with
  | nil => rfl
  | cons c m ih =>
    have hc := h c (by simp)
    simp only [readByte, if_neg (Nat.ne_of_lt hc)]
    exact ih fun d hd => h d (by simp [hd])

theorem readByte_cellOf_same {m : List Host.Cell} {a : Nat} (v : Byte) (h : ∀ c ∈ m, a < c.1) :
    readByte (cellOf a v ++ m) a = v := by
  unfold cellOf
  split
  · next hv => rw [hv]; exact readByte_absent h
  · simp [readByte]

/-- Writing a byte leaves every other byte alone. -/
theorem readByte_writeByte_ne (m : List Host.Cell) (a c : Nat) (v : Byte) (h : c ≠ a) :
    readByte (writeByte m a v) c = readByte m c := by
  induction m with
  | nil => simpa [writeByte, readByte] using readByte_append_cellOf a c v [] h
  | cons x m ih =>
    obtain ⟨b, y⟩ := x
    simp only [writeByte]
    split
    · exact readByte_append_cellOf a c v _ h
    · split
      · next hab =>
        subst hab
        rw [readByte_append_cellOf _ _ _ _ h]
        simp [readByte, h]
      · simp only [readByte, ih]

/-- A byte written reads back. -/
theorem readByte_writeByte_same {m : List Host.Cell} (hm : m.Pairwise (fun x y => x.1 < y.1)) (a : Nat)
    (v : Byte) : readByte (writeByte m a v) a = v := by
  induction m with
  | nil => simpa [writeByte] using readByte_cellOf_same (m := []) v (by simp)
  | cons x m ih =>
    obtain ⟨b, y⟩ := x
    have hx := List.pairwise_cons.1 hm
    simp only [writeByte]
    split
    · next hab =>
      refine readByte_cellOf_same v fun c hc => ?_
      rcases List.mem_cons.1 hc with rfl | hc
      · exact hab
      · exact Nat.lt_trans hab (hx.1 c hc)
    · split
      · next hab => subst hab; exact readByte_cellOf_same v hx.1
      · next hab =>
        simp only [readByte, if_neg hab]
        exact ih hx.2

theorem mem_cellOf {a : Nat} {v : Byte} {c : Host.Cell} (h : c ∈ cellOf a v) :
    c = (a, v) ∧ v ≠ unlistedByte := by
  unfold cellOf at h
  split at h
  · simp at h
  · next hv => exact ⟨by simpa using h, hv⟩

theorem mem_writeByte {m : List Host.Cell} {a : Nat} {v : Byte} {c : Host.Cell}
    (h : c ∈ writeByte m a v) : (c = (a, v) ∧ v ≠ unlistedByte) ∨ c ∈ m := by
  induction m with
  | nil => exact .inl (mem_cellOf (by simpa [writeByte] using h))
  | cons x m ih =>
    obtain ⟨b, y⟩ := x
    simp only [writeByte] at h
    split at h
    · rcases List.mem_append.1 h with h | h
      · exact .inl (mem_cellOf h)
      · exact .inr h
    · split at h
      · rcases List.mem_append.1 h with h | h
        · exact .inl (mem_cellOf h)
        · exact .inr (List.mem_cons_of_mem _ h)
      · rcases List.mem_cons.1 h with h | h
        · exact .inr (by simp [h])
        · rcases ih h with h | h
          · exact .inl h
          · exact .inr (List.mem_cons_of_mem _ h)

theorem pairwise_cellOf_append {m : List Host.Cell} (hm : m.Pairwise (fun x y => x.1 < y.1)) {a : Nat}
    (v : Byte) (h : ∀ c ∈ m, a < c.1) : (cellOf a v ++ m).Pairwise (fun x y => x.1 < y.1) := by
  unfold cellOf
  split
  · simpa using hm
  · exact List.pairwise_cons.2 ⟨h, hm⟩

theorem pairwise_writeByte {m : List Host.Cell} (hm : m.Pairwise (fun x y => x.1 < y.1)) (a : Nat)
    (v : Byte) : (writeByte m a v).Pairwise (fun x y => x.1 < y.1) := by
  induction m with
  | nil => simpa [writeByte] using pairwise_cellOf_append (m := []) (by simp) v (by simp)
  | cons x m ih =>
    obtain ⟨b, y⟩ := x
    have hx := List.pairwise_cons.1 hm
    simp only [writeByte]
    split
    · next hab =>
      refine pairwise_cellOf_append hm v fun c hc => ?_
      rcases List.mem_cons.1 hc with rfl | hc
      · exact hab
      · exact Nat.lt_trans hab (hx.1 c hc)
    · split
      · next hab => subst hab; exact pairwise_cellOf_append hx.2 v hx.1
      · next hlt hne =>
        refine List.pairwise_cons.2 ⟨fun c hc => ?_, ih hx.2⟩
        rcases mem_writeByte hc with ⟨rfl, -⟩ | hc
        · exact Nat.lt_of_le_of_ne (Nat.le_of_not_lt hlt) (Ne.symm hne)
        · exact hx.1 c hc

/-- Writing a byte of the 32-bit address space keeps the canonical form. -/
theorem writeByte_wf {m : List Host.Cell} (hm : Memory.wf m) {a : Nat} (ha : a < 2 ^ 32) (v : Byte) :
    Memory.wf (writeByte m a v) := by
  refine ⟨pairwise_writeByte hm.1 a v, fun c hc => ?_⟩
  rcases mem_writeByte hc with ⟨rfl, hv⟩ | hc
  · exact ⟨ha, hv⟩
  · exact hm.2 c hc

/-! ### Bytes at access addresses -/

theorem putByte_wf {m : List Host.Cell} (hm : Memory.wf m) (a : Word) (v : Byte) :
    Memory.wf (putByte m a v) := writeByte_wf hm a.isLt v

theorem byteAt_putByte_ne (m : List Host.Cell) {a b : Word} (v : Byte) (h : b ≠ a) :
    byteAt (putByte m a v) b = byteAt m b :=
  readByte_writeByte_ne m _ _ v fun e => h (BitVec.eq_of_toNat_eq e)

theorem byteAt_putByte_same {m : List Host.Cell} (hm : Memory.wf m) (a : Word) (v : Byte) :
    byteAt (putByte m a v) a = v := readByte_writeByte_same hm.1 _ v

/-! ### Stores -/

/-- A store keeps the canonical form. -/
theorem storeAt_wf {m : List Host.Cell} (hm : Memory.wf m) (a d : Word) (sz : Size) :
    Memory.wf (storeAt m a d sz) := by
  cases sz <;> simp only [storeAt] <;> repeat' first | exact hm | apply putByte_wf

/-- A store leaves every byte it does not cover alone, at every address. -/
theorem readByte_storeAt_ne (m : List Host.Cell) (a d : Word) (sz : Size) (n : Nat)
    (h : ∀ k < sizeBytes sz, n ≠ (a + BitVec.ofNat 32 k).toNat) :
    readByte (storeAt m a d sz) n = readByte m n := by
  have h0 : n ≠ a.toNat := by simpa using h 0 (by cases sz <;> simp [sizeBytes])
  cases sz with
  | b8 => simp only [storeAt, putByte, readByte_writeByte_ne _ _ _ _ h0]
  | b16 =>
    have h1 := h 1 (by simp [sizeBytes])
    simp only [storeAt, putByte]
    rw [readByte_writeByte_ne _ _ _ _ h1, readByte_writeByte_ne _ _ _ _ h0]
  | b32 =>
    have h1 := h 1 (by simp [sizeBytes])
    have h2 := h 2 (by simp [sizeBytes])
    have h3 := h 3 (by simp [sizeBytes])
    simp only [storeAt, putByte]
    rw [readByte_writeByte_ne _ _ _ _ h3, readByte_writeByte_ne _ _ _ _ h2,
      readByte_writeByte_ne _ _ _ _ h1, readByte_writeByte_ne _ _ _ _ h0]

theorem word_offset_ne (a : Word) {j k : Nat} (hj : j < 4) (hk : k < 4) (h : j ≠ k) :
    a + BitVec.ofNat 32 j ≠ a + BitVec.ofNat 32 k := by
  interval_cases j <;> interval_cases k <;> first | exact absurd rfl h | bv_omega

/-- The bytes a store covers read back its data, least significant byte first (R57). -/
theorem byteAt_storeAt {m : List Host.Cell} (hm : Memory.wf m) (a d : Word) (sz : Size) {k : Nat}
    (hk : k < sizeBytes sz) :
    byteAt (storeAt m a d sz) (a + BitVec.ofNat 32 k) = d.extractLsb' (8 * k) 8 := by
  have n01 : a ≠ a + 1#32 := by bv_omega
  have n02 : a ≠ a + 2#32 := by bv_omega
  have n03 : a ≠ a + 3#32 := by bv_omega
  have n12 : a + 1#32 ≠ a + 2#32 := by bv_omega
  have n13 : a + 1#32 ≠ a + 3#32 := by bv_omega
  have n23 : a + 2#32 ≠ a + 3#32 := by bv_omega
  have h1 := putByte_wf hm a (d.extractLsb' 0 8)
  have h2 := putByte_wf h1 (a + 1#32) (d.extractLsb' 8 8)
  have h3 := putByte_wf h2 (a + 2#32) (d.extractLsb' 16 8)
  cases sz with
  | b8 =>
    obtain rfl : k = 0 := by simp only [sizeBytes] at hk; omega
    simp only [BitVec.add_zero]
    exact byteAt_putByte_same hm _ _
  | b16 =>
    have hk : k < 2 := hk
    interval_cases k
    · simp only [BitVec.add_zero, storeAt]
      rw [byteAt_putByte_ne _ _ n01, byteAt_putByte_same hm]
    · exact byteAt_putByte_same h1 _ _
  | b32 =>
    have hk : k < 4 := hk
    interval_cases k
    · simp only [BitVec.add_zero, storeAt]
      rw [byteAt_putByte_ne _ _ n03, byteAt_putByte_ne _ _ n02, byteAt_putByte_ne _ _ n01,
        byteAt_putByte_same hm]
    · simp only [storeAt]
      rw [byteAt_putByte_ne _ _ n13, byteAt_putByte_ne _ _ n12, byteAt_putByte_same h1]
    · simp only [storeAt]
      rw [byteAt_putByte_ne _ _ n23, byteAt_putByte_same h2]
    · exact byteAt_putByte_same h3 _ _

theorem extract_append_bytes (d : Word) :
    d.extractLsb' (8 * 3) 8 ++ d.extractLsb' (8 * 2) 8 ++ d.extractLsb' (8 * 1) 8 ++
      d.extractLsb' (8 * 0) 8 = d := by
  apply BitVec.eq_of_getLsbD_eq
  intro i hi
  simp only [BitVec.getLsbD_append, BitVec.getLsbD_extractLsb']
  interval_cases i <;> simp

/-- A word stored reads back. -/
theorem wordAt_storeAt {m : List Host.Cell} (hm : Memory.wf m) (a d : Word) :
    wordAt (storeAt m a d .b32) a = d := by
  have h := fun k (hk : k < 4) => byteAt_storeAt hm a d .b32 (k := k) hk
  have h0 := h 0 (by omega)
  simp only [BitVec.add_zero] at h0
  simp only [wordAt, h0, h 1 (by omega), h 2 (by omega), h 3 (by omega)]
  exact extract_append_bytes d

/-- A word none of whose bytes a store covers reads as before. -/
theorem wordAt_storeAt_ne (m : List Host.Cell) (a d : Word) (sz : Size) (b : Word)
    (h : ∀ k < sizeBytes sz, ∀ j < 4, b + BitVec.ofNat 32 j ≠ a + BitVec.ofNat 32 k) :
    wordAt (storeAt m a d sz) b = wordAt m b := by
  have hb : ∀ j < 4, byteAt (storeAt m a d sz) (b + BitVec.ofNat 32 j) = byteAt m (b + BitVec.ofNat 32 j) :=
    fun j hj => readByte_storeAt_ne m a d sz _ fun k hk e => h k hk j hj (BitVec.eq_of_toNat_eq e)
  have h0 := hb 0 (by omega)
  simp only [BitVec.add_zero] at h0
  simp only [wordAt, h0, hb 1 (by omega), hb 2 (by omega), hb 3 (by omega)]

/-! ### The effects of reads -/

theorem putBytes_wf {m : List Host.Cell} (hm : Memory.wf m) (bs : List (Word × Byte)) :
    Memory.wf (putBytes m bs) := by
  induction bs generalizing m with
  | nil => exact hm
  | cons b bs ih => exact ih (putByte_wf hm b.1 b.2)

/-- A byte that none of the writes covers reads as before. -/
theorem readByte_putBytes_ne (m : List Host.Cell) (bs : List (Word × Byte)) (n : Nat)
    (h : ∀ b ∈ bs, n ≠ b.1.toNat) : readByte (putBytes m bs) n = readByte m n := by
  induction bs generalizing m with
  | nil => rfl
  | cons b bs ih =>
    refine (ih _ fun c hc => h c (List.mem_cons_of_mem _ hc)).trans ?_
    exact readByte_writeByte_ne m _ _ _ (h b List.mem_cons_self)

/-- A read's effect is one of the listed effects' bytes, or none. -/
theorem mem_readEffect {s : State} {p : Port} {a : Word} {b : Word × Byte} (h : b ∈ readEffect s p a) :
    ∃ e ∈ s.readEffects, b ∈ e.bytes := by
  unfold readEffect at h
  cases he : s.readEffects.find? fun e => e.port == p && e.addr == a with
  | none => simp [he] at h
  | some e => exact ⟨e, List.mem_of_find?_eq_some he, by simpa [he] using h⟩

theorem memAfterRead_wf {s : State} (h : Memory.wf s.mem) (p : Port) (a : Word) :
    Memory.wf (memAfterRead s p a) := putBytes_wf h _

/-- A memory without effects on reads is as it was after a read (R61: "this is invisible"). -/
theorem memAfterRead_of_plain {s : State} {p : Port} {a : Word} (h : readEffect s p a = []) :
    memAfterRead s p a = s.mem := by
  simp only [memAfterRead, h, putBytes, List.foldl_nil]

theorem memAfterReads_wf {s : State} (h : Memory.wf s.mem) (as : List Word) :
    Memory.wf (memAfterReads s as) := by
  have aux : ∀ (as : List Word) (m : List Host.Cell), Memory.wf m →
      Memory.wf (as.foldl (fun m a => putBytes m (readEffect s .axim a)) m) := by
    intro as
    induction as with
    | nil => intro m hm; exact hm
    | cons a as ih => intro m hm; exact ih _ (putBytes_wf hm _)
  exact aux as _ h

end Sys2Proof.Machine
end

