-- ==== Sys2Proof/Laws/Operands.lean ====
section
/-! SUPPORT. The fields of ART_CTR, the address fields, segments and beats: what each operation on them gives. -/

namespace Sys2Proof.Machine

/-! ### ART_CTR -/

theorem pcacheaddr_of_ctrWord (page : Page) (en : Bool) : (ctrWord page en).extractLsb' 8 12 = page := by
  apply BitVec.eq_of_getLsbD_eq
  intro i hi
  simp only [ctrWord, BitVec.getLsbD_extractLsb', BitVec.getLsbD_append, BitVec.getLsbD_ofBool]
  interval_cases i <;> simp

theorem enabled_of_ctrWord (page : Page) (en : Bool) : (ctrWord page en).getLsbD 0 = en := by
  simp only [ctrWord, BitVec.getLsbD_append, BitVec.getLsbD_ofBool]
  simp

theorem keepsReserved_ctrWord (page : Page) (en : Bool) : keepsReserved (ctrWord page en) = true := by
  have h1 : (ctrWord page en).extractLsb' 20 12 = 0 := by
    apply BitVec.eq_of_getLsbD_eq
    intro i hi
    simp only [ctrWord, BitVec.getLsbD_extractLsb', BitVec.getLsbD_append]
    interval_cases i <;> simp
  have h2 : (ctrWord page en).extractLsb' 1 7 = 2 := by
    apply BitVec.eq_of_getLsbD_eq
    intro i hi
    simp only [ctrWord, BitVec.getLsbD_extractLsb', BitVec.getLsbD_append]
    interval_cases i <;> simp
  simp [keepsReserved, h1, h2]

/-- A word that keeps the reserved bits is made of its two fields (R83). -/
theorem ctrWord_of_keepsReserved {w : Word} (h : keepsReserved w = true) :
    ctrWord (w.extractLsb' 8 12) (w.getLsbD 0) = w := by
  obtain ⟨h1, h2⟩ : w.extractLsb' 20 12 = 0 ∧ w.extractLsb' 1 7 = 2 := by
    simpa [keepsReserved] using h
  apply BitVec.eq_of_getLsbD_eq
  intro i hi
  have e1 : ∀ j < 12, w.getLsbD (20 + j) = (0 : BitVec 12).getLsbD j := fun j hj => by
    rw [← h1]; simp [hj]
  have e2 : ∀ j < 7, w.getLsbD (1 + j) = (2 : BitVec 7).getLsbD j := fun j hj => by
    rw [← h2]; simp [hj]
  simp only [ctrWord, BitVec.getLsbD_append]
  rcases Nat.lt_or_ge i 1 with h | h
  · obtain rfl : i = 0 := by omega
    simp
  · rcases Nat.lt_or_ge i 8 with h' | h'
    · have := e2 (i - 1) (by omega)
      rw [show 1 + (i - 1) = i by omega] at this
      simp [this, show ¬ i < 1 by omega, show i - 1 < 7 by omega]
    · rcases Nat.lt_or_ge i 20 with h'' | h''
      · simp [show ¬ i < 1 by omega, show ¬ i - 1 < 7 by omega, show i - 1 - 7 < 12 by omega,
          show 8 + (i - 1 - 7) = i by omega]
      · have := e1 (i - 20) (by omega)
        rw [show 20 + (i - 20) = i by omega] at this
        simp [this, show ¬ i < 1 by omega, show ¬ i - 1 < 7 by omega, show ¬ i - 1 - 7 < 12 by omega]

theorem pcacheaddr_congr {s t : State} (h : t.artCtr = s.artCtr) : pcacheaddr t = pcacheaddr s := by
  simp only [pcacheaddr, h]

theorem enabled_congr {s t : State} (h : t.artCtr = s.artCtr) : enabled t = enabled s := by
  simp only [enabled, h]

/-! ### Segments and quarters -/

/-- R58: a beat written to quarter `j` is the two segments of that quarter, low half first, and no other
segment changes. -/
theorem segAt_putBeat (v : Vector Word 8) (j : BitVec 2) (d : DWord) (k : BitVec 3) :
    segAt (putBeat v j d) k =
      if quarterOfSeg k = j then d.extractLsb' (32 * (k.toNat % 2)) 32 else segAt v k := by
  have hq : (quarterOfSeg k).toNat = k.toNat / 2 := by
    have := k.isLt
    simp [quarterOfSeg, Nat.shiftRight_eq_div_pow]
    omega
  have hj := j.isLt
  have hk := k.isLt
  simp only [segAt, putBeat, Vector.getElem_set]
  by_cases h : quarterOfSeg k = j
  · have h' : k.toNat / 2 = j.toNat := by rw [← hq, h]
    rw [if_pos h]
    by_cases hp : k.toNat % 2 = 0
    · rw [if_neg (by omega), if_pos (by omega), hp]
    · rw [if_pos (by omega), show k.toNat % 2 = 1 by omega]
  · have h' : k.toNat / 2 ≠ j.toNat := fun e => h (BitVec.eq_of_toNat_eq (by rw [hq, e]))
    rw [if_neg h, if_neg (by omega), if_neg (by omega)]

theorem arrivedAt_markArrived (v : Vector Bool 4) (j i : BitVec 2) :
    arrivedAt (markArrived v j) i = (arrivedAt v i || i == j) := by
  simp only [arrivedAt, markArrived, Vector.getElem_set]
  by_cases h : i = j
  · simp [h]
  · have : j.toNat ≠ i.toNat := fun e => h (BitVec.eq_of_toNat_eq e.symm)
    simp [h, this]

@[simp] theorem arrivedAt_replicate (b : Bool) (j : BitVec 2) :
    arrivedAt (Vector.replicate 4 b) j = b := by
  simp [arrivedAt]

/-- Two sets of segments that agree at every pointer are equal. -/
theorem seg_ext {v w : Vector Word 8} (h : ∀ k : BitVec 3, segAt v k = segAt w k) : v = w := by
  apply Vector.ext
  intro i hi
  have := h (BitVec.ofNat 3 i)
  simpa [segAt, Nat.mod_eq_of_lt hi] using this

/-! ### Addresses -/

theorem quarterOfSeg_segOf (a : Word) : quarterOfSeg (segOf a) = quarterOf a := by
  apply BitVec.eq_of_getLsbD_eq
  intro i hi
  simp only [quarterOfSeg, segOf, quarterOf, BitVec.getLsbD_extractLsb']
  interval_cases i <;> simp

theorem toNat_blockBase (a : Word) : (blockBase a).toNat = a.toNat / 32 * 32 := by
  have := a.isLt
  have e : (blockBase a).toNat = (a.extractLsb' 5 27).toNat <<< 5 ||| (0 : BitVec 5).toNat :=
    BitVec.toNat_append _ _
  simp [Nat.shiftRight_eq_div_pow, Nat.shiftLeft_eq] at e
  omega

theorem blockBase_blockBase (a : Word) : blockBase (blockBase a) = blockBase a := by
  apply BitVec.eq_of_toNat_eq
  rw [toNat_blockBase, toNat_blockBase]; omega

theorem toNat_pageOf (a : Word) : (pageOf a).toNat = a.toNat / 2 ^ 20 := by
  have := a.isLt
  simp [pageOf, Nat.shiftRight_eq_div_pow]
  omega

theorem toNat_indexOf (a : Word) : (indexOf a).toNat = a.toNat / 32 % 2 ^ 15 := by
  simp [indexOf, Nat.shiftRight_eq_div_pow]

theorem toNat_segOf (a : Word) : (segOf a).toNat = a.toNat / 4 % 8 := by
  simp [segOf, Nat.shiftRight_eq_div_pow]

theorem toNat_quarterOf (a : Word) : (quarterOf a).toNat = a.toNat / 8 % 4 := by
  simp [quarterOf, Nat.shiftRight_eq_div_pow]

theorem indexOf_blockBase (a : Word) : indexOf (blockBase a) = indexOf a := by
  apply BitVec.eq_of_toNat_eq
  rw [toNat_indexOf, toNat_indexOf, toNat_blockBase]; omega

theorem pageOf_blockBase (a : Word) : pageOf (blockBase a) = pageOf a := by
  apply BitVec.eq_of_toNat_eq
  rw [toNat_pageOf, toNat_pageOf, toNat_blockBase]; omega

/-- R85: the block base is the page, the index and five zeros. -/
theorem blockBase_eq_fields (a : Word) : pageOf a ++ indexOf a ++ (0 : BitVec 5) = blockBase a := by
  apply BitVec.eq_of_getLsbD_eq
  intro i hi
  simp only [blockBase, pageOf, indexOf, BitVec.getLsbD_append, BitVec.getLsbD_extractLsb']
  interval_cases i <;> simp

theorem alignedTo_b32 {a : Word} (h : Size.b32.alignedTo a = true) : a.toNat % 4 = 0 := by
  have h : a.extractLsb' 0 2 = 0 := by simpa [Size.alignedTo] using h
  simpa using congrArg BitVec.toNat h

/-- R85: an aligned address is its block's base and its segment. -/
theorem segAddr_blockBase {a : Word} (h : Size.b32.alignedTo a = true) :
    segAddr (blockBase a) (segOf a) = a := by
  apply BitVec.eq_of_toNat_eq
  have := a.isLt
  have := alignedTo_b32 h
  simp [segAddr, toNat_blockBase, toNat_segOf]
  omega

/-- R144: the first beat of a miss is read at the fetch's address rounded down to 8 bytes. -/
theorem quarterAddr_blockBase (a : Word) :
    quarterAddr (blockBase a) (quarterOf a) = a.extractLsb' 3 29 ++ (0 : BitVec 3) := by
  apply BitVec.eq_of_toNat_eq
  have := a.isLt
  have e : (a.extractLsb' 3 29 ++ (0 : BitVec 3)).toNat =
      (a.extractLsb' 3 29).toNat <<< 3 ||| (0 : BitVec 3).toNat := BitVec.toNat_append _ _
  rw [e]
  simp [quarterAddr, toNat_blockBase, quarterOf, Nat.shiftRight_eq_div_pow, Nat.shiftLeft_eq]
  omega

/-- R58: the segment of a beat is the word at its address. -/
theorem beatAt_segment (m : List Host.Cell) (base : Word) (k : BitVec 3) :
    (beatAt m (quarterAddr base (quarterOfSeg k))).extractLsb' (32 * (k.toNat % 2)) 32 =
      wordAt m (segAddr base k) := by
  have hk := k.isLt
  have hq : (quarterOfSeg k).toNat = k.toNat / 2 := by
    simp [quarterOfSeg, Nat.shiftRight_eq_div_pow]; omega
  by_cases hp : k.toNat % 2 = 0
  · have e : quarterAddr base (quarterOfSeg k) = segAddr base k := by
      simp only [quarterAddr, segAddr, hq]
      congr 2; omega
    rw [hp, e]
    apply BitVec.eq_of_getLsbD_eq
    intro i hi
    simp only [beatAt, BitVec.getLsbD_extractLsb', BitVec.getLsbD_append]
    simp [hi]
  · have hp : k.toNat % 2 = 1 := by omega
    have e : quarterAddr base (quarterOfSeg k) + 4#32 = segAddr base k := by
      simp only [quarterAddr, segAddr, hq, BitVec.add_assoc]
      congr 1
      apply BitVec.eq_of_toNat_eq
      simp
      omega
    rw [hp]
    apply BitVec.eq_of_getLsbD_eq
    intro i hi
    simp only [beatAt, BitVec.getLsbD_extractLsb', BitVec.getLsbD_append, e]
    simp [hi]

end Sys2Proof.Machine
end

