-- ==== Sys2Proof/Laws/Ops.lean ====
section
/-! SUPPORT. One lemma per shared operation that says all it can do. -/

namespace Sys2Proof.Machine

/-! ### Sequencing -/

@[simp] theorem andThen_next (s : State) (f : State → Result) : andThen (.next s) f = f s := rfl
@[simp] theorem andThen_fault (e : Fault) (f : State → Result) : andThen (.fault e) f = .fault e := rfl
@[simp] theorem andThen_refused (e : Refusal) (f : State → Result) :
    andThen (.refused e) f = .refused e := rfl

@[simp] theorem redrawn_next (s : State) : redrawn (.next s) = .next (redraw s) := rfl

/-- A redrawn result is a next state only of one. -/
theorem redrawn_eq_next {r : Result} {t : State} (h : redrawn r = .next t) :
    ∃ u, r = .next u ∧ t = redraw u := by
  cases r with
  | next u => exact ⟨u, rfl, by simpa using h.symm⟩
  | fault e => cases h
  | refused e => cases h

/-- A class's meaning goes on only in a state that the class admits. -/
theorem inClass_eq_next {i : Instr} {s t : State} {effect : State → Result}
    (h : inClass i s effect = .next t) : (view s).admits i = true ∧ effect s = .next t := by
  unfold inClass at h
  split at h
  · next ha => exact ⟨ha, h⟩
  · cases h

theorem inClass_of_admits {i : Instr} {s : State} (effect : State → Result)
    (h : (view s).admits i = true) : inClass i s effect = effect s := if_pos h

/-! ### How the memory answers: it depends on the rules alone -/

@[simp] theorem answerTo_emit (e : PortEvent) (s : State) (p : Port) (wr : Bool) (a : Word) :
    answerTo (emit e s) p wr a = answerTo s p wr a := rfl
@[simp] theorem answerTo_respond (r : Resp) (s : State) (p : Port) (wr : Bool) (a : Word) :
    answerTo (respond r s) p wr a = answerTo s p wr a := rfl
@[simp] theorem answerTo_setPrimed (x : Bool) (s : State) (p : Port) (wr : Bool) (a : Word) :
    answerTo (setPrimed x s) p wr a = answerTo s p wr a := rfl
@[simp] theorem answerTo_setMem (x : List Host.Cell) (s : State) (p : Port) (wr : Bool) (a : Word) :
    answerTo (setMem x s) p wr a = answerTo s p wr a := rfl
@[simp] theorem answerTo_takeEffect (q : Port) (b : Word) (s : State) (p : Port) (wr : Bool) (a : Word) :
    answerTo (takeEffect q b s) p wr a = answerTo s p wr a := rfl
@[simp] theorem answerTo_setInputs (x : List Input) (s : State) (p : Port) (wr : Bool) (a : Word) :
    answerTo (setInputs x s) p wr a = answerTo s p wr a := rfl
@[simp] theorem answerTo_setRefill (x : Option Refill) (s : State) (p : Port) (wr : Bool) (a : Word) :
    answerTo (setRefill x s) p wr a = answerTo s p wr a := rfl
@[simp] theorem answerTo_setLine (i : LineNo) (l : Line) (s : State) (p : Port) (wr : Bool) (a : Word) :
    answerTo (setLine i l s) p wr a = answerTo s p wr a := rfl
@[simp] theorem answerTo_startRefill (x : Word) (s : State) (p : Port) (wr : Bool) (a : Word) :
    answerTo (startRefill x s) p wr a = answerTo s p wr a := rfl
@[simp] theorem answerTo_flush (s : State) (p : Port) (wr : Bool) (a : Word) :
    answerTo (flush s) p wr a = answerTo s p wr a := rfl
@[simp] theorem answerTo_redraw (s : State) (p : Port) (wr : Bool) (a : Word) :
    answerTo (redraw s) p wr a = answerTo s p wr a := rfl

/-- Two states under the same rules answer alike. -/
theorem answerTo_congr {s t : State} (h : t.answers = s.answers) (p : Port) (wr : Bool) (a : Word) :
    answerTo t p wr a = answerTo s p wr a := by
  simp only [answerTo, h]

theorem readsNormally_congr {s t : State} (h : t.answers = s.answers) {p : Port} {a : Word}
    (hn : ReadsNormally s p a) : ReadsNormally t p a := by
  simpa only [ReadsNormally, answerTo_congr h] using hn

/-! ### Forwarding -/

/-- A forwarded read that the memory answers with data. -/
theorem forwardRead_normal {s : State} {a : Word} (sz : Size) (h : ReadsNormally s .ahbm a) :
    forwardRead sz a s =
      .next (respond (.okayData sz (loadAt s.mem a sz))
        (emit (.ahbmRead a sz (some (loadAt s.mem a sz))) (takeEffect .ahbm a s))) := by
  unfold forwardRead
  split
  · next e => exact absurd e h.2
  · next e => exact absurd e h.1
  · rfl

/-- A forwarded read that answers does so with the memory's data or with ERROR; the read has its effect on the
memory, and nothing else changes but the trace. -/
theorem forwardRead_cases {sz : Size} {a : Word} {s t : State} (h : forwardRead sz a s = .next t) :
    ∃ (v : Option Word) (r : Resp), t = respond r (emit (.ahbmRead a sz v) (takeEffect .ahbm a s)) ∧
      (r = .error ∧ v = none ∨ r = .okayData sz (loadAt s.mem a sz) ∧ v = some (loadAt s.mem a sz)) := by
  unfold forwardRead at h
  split at h
  · cases h
  · exact ⟨none, .error, by simpa using h.symm, .inl ⟨rfl, rfl⟩⟩
  · exact ⟨some _, _, by simpa using h.symm, .inr ⟨rfl, rfl⟩⟩

/-- A forwarded write that answers has stored its bytes, or the memory is as it was. -/
theorem forwardWrite_cases {sz : Size} {a d : Word} {f : State → State} {s t : State}
    (h : forwardWrite sz a d f s = .next t) :
    ∃ (m : List Host.Cell) (ok : Bool), (m = s.mem ∨ m = storeAt s.mem a d sz) ∧
      t = respond (if ok then .okay else .error) (f (emit (.ahbmWrite a sz d ok) (setMem m s))) := by
  unfold forwardWrite at h
  split at h
  · cases h
  · exact ⟨s.mem, false, .inl rfl, (Host.Outcome.next.inj h).symm⟩
  · exact ⟨s.mem, true, .inl rfl, (Host.Outcome.next.inj h).symm⟩
  · exact ⟨_, true, .inr rfl, (Host.Outcome.next.inj h).symm⟩

theorem noteNotQualifying_eq (s : State) :
    noteNotQualifying s = setPrimed (primedAfterNotQualifying s) s := by
  unfold noteNotQualifying primedAfterNotQualifying
  exact Eq.refl _

/-! ### Access to ART_CTR -/

theorem accessAllowed_write (s : State) : accessAllowed true s = true ↔ MayWriteCtr s := by
  unfold accessAllowed MayWriteCtr
  cases s.privileged <;> cases Config.privCheck <;> simp

theorem accessAllowed_read (s : State) : accessAllowed false s = true ↔ MayReadCtr s := by
  unfold accessAllowed MayReadCtr
  cases s.privileged <;> cases Config.privCheck <;> simp

theorem writeAccess_of_may {s : State} (effect : State → Result) (h : MayWriteCtr s) :
    writeAccess effect s = effect s := if_pos ((accessAllowed_write s).2 h)

theorem writeAccess_of_not_may {s : State} (effect : State → Result) (h : ¬ MayWriteCtr s) :
    writeAccess effect s = .next (respond (deniedWriteResp s) s) :=
  if_neg fun e => h ((accessAllowed_write s).1 e)

/-- A write of ART_CTR that goes on has had its effect, by a requester that may write, or its answer alone. -/
theorem writeAccess_cases {effect : State → Result} {s t : State} (h : writeAccess effect s = .next t) :
    MayWriteCtr s ∧ effect s = .next t ∨ ¬ MayWriteCtr s ∧ t = respond (deniedWriteResp s) s := by
  by_cases hm : MayWriteCtr s
  · exact .inl ⟨hm, by rwa [writeAccess_of_may effect hm] at h⟩
  · rw [writeAccess_of_not_may effect hm] at h
    exact .inr ⟨hm, by simpa using h.symm⟩

theorem readAccess_of_may {s : State} (sz : Size) (v : Word) (h : MayReadCtr s) :
    readAccess sz v s = .next (respond (.okayData sz v) s) := by
  rw [readAccess, if_pos ((accessAllowed_read s).2 h)]

theorem readAccess_of_not_may {s : State} (sz : Size) (v : Word) (h : ¬ MayReadCtr s) :
    readAccess sz v s = .next (respond (deniedReadResp sz s) s) := by
  rw [readAccess, if_neg fun e => h ((accessAllowed_read s).1 e)]

theorem unprimeWhenDisabled_eq (en : Bool) (s : State) :
    unprimeWhenDisabled en s =
      setPrimed (if en = false ∧ (Config.firstAccessPolicy = .enable ∨ Config.firstAccessPolicy = .run)
          then false else s.primed) s := by
  unfold unprimeWhenDisabled
  exact Eq.refl _

/-- Flagging everything invalid twice is the same as once (R203.5). -/
theorem flush_flush_artCtr (s : State) (w : Word) :
    flush { flush s with artCtr := w } = { flush s with artCtr := w } := by
  simp [flush, cancelRefill, setRefill, invalidateAll, clearValid]

/-- What a write of the two fields leaves: the fields, and the cache as it was or with nothing valid. -/
theorem setCtr_cases (page : Page) (en : Bool) (s : State) :
    ∃ (p : Bool) (u : State), (u = s ∨ u = flush s) ∧
      setCtr page en s = { u with artCtr := ctrWord page en, primed := p } := by
  simp only [setCtr, unprimeWhenDisabled_eq]
  by_cases hd : (enabled s && !en && dropsOnDisable s) = true
  · rw [if_pos hd]
    by_cases hp : page = pcacheaddr s
    · rw [if_pos hp]
      exact ⟨_, flush s, .inr rfl, rfl⟩
    · rw [if_neg hp]
      rw [show flush { s with artCtr := ctrWord page en } =
        { flush s with artCtr := ctrWord page en } from rfl, flush_flush_artCtr]
      exact ⟨_, flush s, .inr rfl, rfl⟩
  · rw [if_neg hd]
    by_cases hp : page = pcacheaddr s
    · rw [if_pos hp]
      exact ⟨_, s, .inl rfl, rfl⟩
    · rw [if_neg hp]
      exact ⟨_, flush s, .inr rfl, rfl⟩

/-- A changed page index leaves nothing valid and no refill. -/
theorem setCtr_of_ne {page : Page} (en : Bool) {s : State} (h : page ≠ pcacheaddr s) :
    ∃ p : Bool, setCtr page en s = { flush s with artCtr := ctrWord page en, primed := p } := by
  simp only [setCtr, unprimeWhenDisabled_eq, if_neg h]
  by_cases hd : (enabled s && !en && dropsOnDisable s) = true
  · rw [if_pos hd]
    rw [show flush { s with artCtr := ctrWord page en } =
      { flush s with artCtr := ctrWord page en } from rfl, flush_flush_artCtr]
    exact ⟨_, rfl⟩
  · rw [if_neg hd]
    exact ⟨_, rfl⟩

/-- A narrow write over byte 0 changes nothing, or, where its effect is not stated, EN to the free value and
`primed` as R102 says; no validity bit changes (R182, R167). -/
theorem narrowWriteEn_cases (s : State) :
    narrowWriteEn s = s ∧ (Config.narrowCtrAccess = .unstated → s.draws.narrowEn = enabled s) ∨
    Config.narrowCtrAccess = .unstated ∧ s.draws.narrowEn ≠ enabled s ∧
      narrowWriteEn s =
        { s with
          artCtr := ctrWord (pcacheaddr s) s.draws.narrowEn
          primed := if s.draws.narrowEn = false ∧
              (Config.firstAccessPolicy = .enable ∨ Config.firstAccessPolicy = .run) then false
            else s.primed } := by
  unfold narrowWriteEn
  split
  · next e => exact .inl ⟨rfl, fun h => by rw [e] at h; cases h⟩
  · next e =>
    split
    · next h => exact .inl ⟨rfl, fun _ => h⟩
    · next h =>
      refine .inr ⟨e, h, ?_⟩
      rw [unprimeWhenDisabled_eq]
      rfl

/-! ### Refill errors -/

/-- The effect of a read depends on the listed effects alone. -/
theorem readEffect_congr {s t : State} (h : t.readEffects = s.readEffects) (p : Port) (a : Word) :
    readEffect t p a = readEffect s p a := by
  simp only [readEffect, h]

/-- A discarded read changes the trace, and the memory by its effect. -/
theorem discardRead_eq (a : Word) (s : State) :
    discardRead a s = { s with trace := .aximThrownAway a :: s.trace, mem := memAfterRead s .axim a } := rfl

/-- Discarded reads stand in the trace, the last first, and have had their effects; nothing else changes. -/
theorem foldl_discardRead (as : List Word) (s : State) :
    as.foldl (fun s a => discardRead a s) s =
      { s with trace := (as.map PortEvent.aximThrownAway).reverse ++ s.trace, mem := memAfterReads s as } := by
  induction as generalizing s with
  | nil => rfl
  | cons a as ih =>
    rw [List.foldl_cons, ih]
    simp only [discardRead_eq, List.map_cons, List.reverse_cons, List.append_assoc, List.singleton_append]
    rfl

theorem readRest_eq (r : Refill) (s : State) :
    readRest r s = { s with trace := ((restAddrs r s).map PortEvent.aximThrownAway).reverse ++ s.trace
                            mem := memAfterReads s (restAddrs r s) } := foldl_discardRead _ s

/-- A failing beat flags everything invalid, ends the refill, and leaves the memory as the reads leave it;
before the first beat the fetch is answered, by ERROR or by a repeat on the non-cacheable path. -/
theorem failBeat_eq (r : Refill) (s : State) :
    failBeat r s =
      let u : State := { flush s with trace := failureTrace s r, mem := memAfterFailure s r }
      if r.done = 0 then
        match Config.errorResponse with
        | .propagate => .next (respond .error u)
        | .retryNoncacheable => forwardRead .b32 (missAddr r) u
      else .next u := by
  simp only [failBeat, raiseRefillError, readRest_eq]
  rfl

/-- But for the trace and the memory a failing beat changes what `flush` does, and the memory keeps its
canonical form. -/
theorem failBeat_cases {r : Refill} {s t : State} (h : failBeat r s = .next t) :
    t = { flush s with trace := t.trace, mem := t.mem } ∧
      (t.mem = memAfterFailure s r ∨
        t.mem = putBytes (memAfterFailure s r) (readEffect s .ahbm (missAddr r))) := by
  rw [failBeat_eq] at h
  dsimp only at h
  split at h
  · split at h
    · obtain rfl := by simpa using h.symm
      exact ⟨rfl, .inl rfl⟩
    · obtain ⟨v, x, rfl, -⟩ := forwardRead_cases h
      exact ⟨rfl, .inr rfl⟩
  · obtain rfl := by simpa using h.symm
    exact ⟨rfl, .inl rfl⟩

theorem failBeat_wf {r : Refill} {s t : State} (hm : Memory.wf s.mem) (h : failBeat r s = .next t) :
    Memory.wf t.mem := by
  have hf : Memory.wf (memAfterFailure s r) := memAfterReads_wf hm _
  rcases (failBeat_cases h).2 with e | e <;> rw [e]
  · exact hf
  · exact putBytes_wf hf _

/-! ### Beats -/

/-- A beat that answers has taken its 64 bits from the memory, or was a refill error; the read has had its
effect. -/
theorem beat_cases {s t : State} (h : beat s = .next t) :
    ∃ r, s.refill = some r ∧
      (t = takeBeat r (beatAt s.mem (beatAddr r)) (takeEffect .axim (beatAddr r) s) ∨
        failBeat r s = .next t) := by
  unfold beat at h
  split at h
  · cases h
  · next r hr =>
    refine ⟨r, hr, ?_⟩
    split at h
    · cases h
    · exact .inr h
    · exact .inl (by simpa using h.symm)

/-- A beat that the memory answers with data. -/
theorem beat_normal {s : State} {r : Refill} (hr : s.refill = some r)
    (h : ReadsNormally s .axim (beatAddr r)) :
    beat s = .next (takeBeat r (beatAt s.mem (beatAddr r)) (takeEffect .axim (beatAddr r) s)) := by
  unfold beat
  rw [hr]
  dsimp only
  split
  · next e => exact absurd e h.2
  · next e => exact absurd e h.1
  · rfl

/-- A wait leaves the fetch next, and performs a beat if a refill is in progress. -/
theorem waitForBeat_cases {bs : List Byte} {s t : State} (h : waitForBeat bs s = .next t) :
    t = setInputs (.transfer bs :: s.inputs) s ∨
      beat (setInputs (.transfer bs :: s.inputs) s) = .next t := by
  unfold waitForBeat at h
  split at h
  · exact .inl (by simpa using h.symm)
  · exact .inr h

end Sys2Proof.Machine
end

