-- ==== Sys2Proof/Laws/PerInstr.lean ====
section
/-! SUPPORT. A statement about every instruction as syntax, one lemma per constructor: an instruction that a
transfer starts is encoded in nine bytes, and an event in none (30_encoding.md R80, R86). -/

namespace Sys2Proof.Laws.EncodedForm

/-- The encoding has nine bytes; the four events, and they alone, have none. -/
def Statement (i : Instr) : Prop :=
  match encode i with
  | some bs => bs.length = 9
  | none => i = .refillBeat ∨ i = .refillErr ∨ i = .invalidateAll ∨ i = .reset

theorem txnRefused (sz : Size) (c : Bool) (a d : Word) : Statement (.txnRefused sz c a d) := rfl
theorem writePage (sz : Size) (c : Bool) (a d : Word) : Statement (.writePage sz c a d) := rfl
theorem writeOther (sz : Size) (c : Bool) (a d : Word) : Statement (.writeOther sz c a d) := rfl
theorem dread (sz : Size) (c : Bool) (a : Word) : Statement (.dread sz c a) := rfl
theorem ifetchNc (sz : Size) (c : Bool) (a : Word) : Statement (.ifetchNc sz c a) := rfl
theorem ifetchCFirst (a : Word) : Statement (.ifetchCFirst a) := rfl
theorem ifetchCHitb (a : Word) : Statement (.ifetchCHitb a) := rfl
theorem ifetchCHitl (a : Word) : Statement (.ifetchCHitl a) := rfl
theorem ifetchCMiss (a : Word) : Statement (.ifetchCMiss a) := rfl
theorem ctrRd32 : Statement .ctrRd32 := rfl
theorem ctrWr32 (w : Word) : Statement (.ctrWr32 w) := rfl
theorem ctrWrn (off : BitVec 2) (n : Narrow) (d : Word) : Statement (.ctrWrn off n d) := rfl
theorem ctrRdn (off : BitVec 2) (n : Narrow) : Statement (.ctrRdn off n) := rfl
theorem regOther (w : Bool) (sz : Size) (off d : Word) : Statement (.regOther w sz off d) := rfl
theorem refillBeat : Statement .refillBeat := .inl rfl
theorem refillErr : Statement .refillErr := .inr (.inl rfl)
theorem invalidateAll : Statement .invalidateAll := .inr (.inr (.inl rfl))
theorem reset : Statement .reset := .inr (.inr (.inr rfl))

end Sys2Proof.Laws.EncodedForm
end

