-- ==== Sys2Proof/Laws/Refill.lean ====
section
/-! SUPPORT. What a beat answered with data does, field by field (R143 to R146). -/

namespace Sys2Proof.Machine

theorem takeBeat_artCtr (r : Refill) (d : DWord) (s : State) : (takeBeat r d s).artCtr = s.artCtr := by
  simp only [takeBeat]; split <;> split <;> rfl

theorem takeBeat_primed (r : Refill) (d : DWord) (s : State) : (takeBeat r d s).primed = s.primed := by
  simp only [takeBeat]; split <;> split <;> rfl

theorem takeBeat_mem (r : Refill) (d : DWord) (s : State) : (takeBeat r d s).mem = s.mem := by
  simp only [takeBeat]; split <;> split <;> rfl

theorem takeBeat_answers (r : Refill) (d : DWord) (s : State) : (takeBeat r d s).answers = s.answers := by
  simp only [takeBeat]; split <;> split <;> rfl

theorem takeBeat_readEffects (r : Refill) (d : DWord) (s : State) :
    (takeBeat r d s).readEffects = s.readEffects := by
  simp only [takeBeat]; split <;> split <;> rfl

theorem takeBeat_privileged (r : Refill) (d : DWord) (s : State) :
    (takeBeat r d s).privileged = s.privileged := by
  simp only [takeBeat]; split <;> split <;> rfl

theorem takeBeat_inputs (r : Refill) (d : DWord) (s : State) : (takeBeat r d s).inputs = s.inputs := by
  simp only [takeBeat]; split <;> split <;> rfl

theorem takeBeat_draws (r : Refill) (d : DWord) (s : State) : (takeBeat r d s).draws = s.draws := by
  simp only [takeBeat]; split <;> split <;> rfl

theorem takeBeat_tick (r : Refill) (d : DWord) (s : State) : (takeBeat r d s).tick = s.tick := by
  simp only [takeBeat]; split <;> split <;> rfl

/-- The buffer after a beat: the quarter filled and marked, valid from the first beat on. -/
theorem takeBeat_buf (r : Refill) (d : DWord) (s : State) :
    (takeBeat r d s).buf =
      { s.buf with
        valid := s.buf.valid || r.done == 0
        seg := putBeat s.buf.seg (beatQuarter r) d
        arrived := markArrived s.buf.arrived (beatQuarter r) } := by
  simp only [takeBeat]
  split <;> split <;> simp_all

/-- The selected line after a beat: the quarter filled, valid after the last beat. -/
theorem takeBeat_line_victim (r : Refill) (d : DWord) (s : State) :
    line (takeBeat r d s) r.victim =
      { line s r.victim with
        valid := (line s r.victim).valid || r.done == 3
        seg := putBeat (line s r.victim).seg (beatQuarter r) d } := by
  simp only [takeBeat]
  split <;> split <;> simp_all

/-- No other line changes. -/
theorem takeBeat_line_ne (r : Refill) (d : DWord) (s : State) {i : LineNo} (h : i ≠ r.victim) :
    line (takeBeat r d s) i = line s i := by
  simp only [takeBeat]
  split <;> split <;> simp [line_complete_ne _ _ h, line_fillQuarter_ne _ _ _ h]

/-- The recency order: a use of the selected line on the last beat. -/
theorem takeBeat_lru (r : Refill) (d : DWord) (s : State) :
    (takeBeat r d s).lru = if r.done = 3 then r.victim :: s.lru.erase r.victim else s.lru := by
  simp only [takeBeat]
  split <;> split <;> simp_all

/-- The refill: one more beat done, or none in progress after the last. -/
theorem takeBeat_refill (r : Refill) (d : DWord) (s : State) :
    (takeBeat r d s).refill = if r.done = 3 then none else some { r with done := r.done + 1 } := by
  simp only [takeBeat]
  split <;> split <;> simp_all

/-- The ports: the beat's read, then on the first beat the answer to the fetch. -/
theorem takeBeat_trace (r : Refill) (d : DWord) (s : State) :
    (takeBeat r d s).trace =
      (if r.done = 0 then
        [.response (.okayData .b32 (segAt (putBeat s.buf.seg (beatQuarter r) d) r.seg))] else []) ++
        .aximRead (beatAddr r) (some d) :: s.trace := by
  simp only [takeBeat]
  split <;> split <;> simp [*]

end Sys2Proof.Machine
end

