-- ==== Sys2Proof/Laws/Step.lean ====
section
/-! SUPPORT. What a step can do, said once. -/

namespace Sys2Proof.Machine

/-- A change of the environment, or an instruction, that is next of what arrives. -/
theorem actOnInput_cases {s t : State} (h : step s = .next t) (ha : nextAction s = actOnInput s) :
    (s.inputs = [] ∧ t = s) ∨
    (∃ a v rest, s.inputs = .otherWrite a v :: rest ∧
      t = redraw (if detectsOther a s
        then flush (setMem (putByte s.mem a v) (setInputs rest s))
        else setMem (putByte s.mem a v) (setInputs rest s))) ∨
    (∃ rules rest, s.inputs = .memoryAnswers rules :: rest ∧
      t = redraw { setInputs rest s with answers := rules }) ∨
    (∃ effects rest, s.inputs = .memoryReadEffects effects :: rest ∧
      t = redraw { setInputs rest s with readEffects := effects }) ∨
    (∃ b rest, s.inputs = .requesterPrivilege b :: rest ∧
      t = redraw { setInputs rest s with privileged := b }) ∨
    (∃ rest, s.inputs = .resetEvent :: rest ∧ t = redraw (resetArt (setInputs rest s))) ∨
    ∃ bs rest i u, s.inputs = .transfer bs :: rest ∧ decode (view s) bs = .ok i ∧
      exec i (setInputs rest s) = .next u ∧ t = redraw u := by
  unfold step at h
  rw [ha] at h
  unfold actOnInput at h
  cases hi : s.inputs with
  | nil => rw [hi] at h; exact .inl ⟨rfl, by simpa using h.symm⟩
  | cons x rest =>
    rw [hi] at h
    cases x with
    | transfer bs =>
      dsimp only [actOnTransfer] at h
      rw [view_setInputs] at h
      cases hd : decode (view s) bs with
      | error e => rw [hd] at h; cases h
      | ok i =>
        rw [hd] at h
        obtain ⟨u, hu, rfl⟩ := redrawn_eq_next h
        exact .inr (.inr (.inr (.inr (.inr (.inr ⟨bs, rest, i, u, rfl, hd, hu, rfl⟩)))))
    | otherWrite a v =>
      refine .inr (.inl ⟨a, v, rest, rfl, ?_⟩)
      dsimp only [actOnOtherWrite] at h
      rw [show detectsOther a (setInputs rest s) = detectsOther a s from rfl] at h
      by_cases hd : detectsOther a s = true
      · rw [if_pos hd] at h ⊢
        simpa [exec, execInvalidateAll] using h.symm
      · rw [if_neg hd] at h ⊢
        simpa using h.symm
    | memoryAnswers rules => exact .inr (.inr (.inl ⟨rules, rest, rfl, by simpa using h.symm⟩))
    | memoryReadEffects effects =>
      exact .inr (.inr (.inr (.inl ⟨effects, rest, rfl, by simpa using h.symm⟩)))
    | resetEvent =>
      exact .inr (.inr (.inr (.inr (.inr (.inl ⟨rest, rfl, by simpa [exec, execReset] using h.symm⟩)))))
    | requesterPrivilege b =>
      exact .inr (.inr (.inr (.inr (.inl ⟨b, rest, rfl, by simpa using h.symm⟩))))
    | powerOrClockChange => cases h

/-- The instruction that a step runs, it runs in the same state but for what arrives and, where a change by
another writer is detected, the memory. -/
theorem nextAction_run {s u : State} {i : Instr} (h : nextAction s = .run i u) :
    ∃ (m : List Host.Cell) (xs : List Input), u = setMem m (setInputs xs s) := by
  have input : ∀ {i : Instr} {u : State}, actOnInput s = .run i u → ∃ m xs, u = setMem m (setInputs xs s) := by
    intro i u h
    unfold actOnInput at h
    split at h
    · cases h
    · next rest _ =>
      unfold actOnTransfer at h
      split at h
      · cases h; exact ⟨s.mem, rest, rfl⟩
      · cases h
    · next a v rest _ =>
      unfold actOnOtherWrite at h
      split at h
      · cases h; exact ⟨putByte s.mem a v, rest, rfl⟩
      · cases h
    · cases h
    · cases h
    · cases h
    · next rest _ => cases h; exact ⟨s.mem, rest, rfl⟩
    · cases h
  unfold nextAction at h
  split at h
  · exact input h
  · split at h
    · cases h; exact ⟨s.mem, s.inputs, rfl⟩
    · exact input h

/-- A change of the environment that no instruction handles leaves the lines and the buffer as they are. -/
theorem nextAction_become {s u : State} (h : nextAction s = .become u) : u.lines = s.lines ∧ u.buf = s.buf := by
  have input : actOnInput s = .become u → u.lines = s.lines ∧ u.buf = s.buf := by
    intro h
    unfold actOnInput at h
    split at h
    · cases h
    · unfold actOnTransfer at h
      split at h <;> cases h
    · unfold actOnOtherWrite at h
      split at h
      · cases h
      · cases h; exact ⟨rfl, rfl⟩
    · cases h; exact ⟨rfl, rfl⟩
    · cases h; exact ⟨rfl, rfl⟩
    · cases h; exact ⟨rfl, rfl⟩
    · cases h
    · cases h
  unfold nextAction at h
  split at h
  · exact input h
  · split at h
    · cases h
    · exact input h

/-- A transfer that comes before the next beat of a refill is a buffer hit on an arrived quarter. -/
theorem servedBetweenBeats_cases {bs : List Byte} {s : State} (h : servedBetweenBeats bs s = true) :
    ∃ a, decode (view s) bs = .ok (.ifetchCHitb a) ∧ s.draws.serveBetween = true ∧
      arrivedAt s.buf.arrived (quarterOf a) = true := by
  unfold servedBetweenBeats at h
  split at h
  · next a ha => exact ⟨a, ha, (Bool.and_eq_true_iff.1 h).1, (Bool.and_eq_true_iff.1 h).2⟩
  · cases h

/-- The ways a step goes to a next state: it idles; it takes a change of the environment; it runs RESET or
a detected INVALIDATE.ALL; it runs the instruction a transfer is sorted into, which during a refill can be
a buffer hit only; or it runs the refill's next beat. -/
theorem step_cases {s t : State} (h : step s = .next t) :
    (s.inputs = [] ∧ s.refill = none ∧ t = s) ∨
    (∃ a v rest, s.inputs = .otherWrite a v :: rest ∧
      t = redraw (if detectsOther a s
        then flush (setMem (putByte s.mem a v) (setInputs rest s))
        else setMem (putByte s.mem a v) (setInputs rest s))) ∨
    (∃ rules rest, s.inputs = .memoryAnswers rules :: rest ∧
      t = redraw { setInputs rest s with answers := rules }) ∨
    (∃ effects rest, s.inputs = .memoryReadEffects effects :: rest ∧
      t = redraw { setInputs rest s with readEffects := effects }) ∨
    (∃ b rest, s.inputs = .requesterPrivilege b :: rest ∧
      t = redraw { setInputs rest s with privileged := b }) ∨
    (∃ rest, s.inputs = .resetEvent :: rest ∧ t = redraw (resetArt (setInputs rest s))) ∨
    (∃ bs rest i u, s.inputs = .transfer bs :: rest ∧ decode (view s) bs = .ok i ∧
      (s.refill = none ∨ ∃ a, i = .ifetchCHitb a ∧ arrivedAt s.buf.arrived (quarterOf a) = true) ∧
      exec i (setInputs rest s) = .next u ∧ t = redraw u) ∨
    (∃ r u, s.refill = some r ∧ exec (nextBeat r s) s = .next u ∧ t = redraw u) := by
  cases hr : s.refill with
  | none =>
    have ha : nextAction s = actOnInput s := by unfold nextAction; rw [hr]
    rcases actOnInput_cases h ha with ⟨e, rfl⟩ | e | e | e | e | e | ⟨bs, rest, i, u, e, hd, hu, ht⟩
    · exact .inl ⟨e, rfl, rfl⟩
    · exact .inr (.inl e)
    · exact .inr (.inr (.inl e))
    · exact .inr (.inr (.inr (.inl e)))
    · exact .inr (.inr (.inr (.inr (.inl e))))
    · exact .inr (.inr (.inr (.inr (.inr (.inl e)))))
    · exact .inr (.inr (.inr (.inr (.inr (.inr (.inl ⟨bs, rest, i, u, e, hd, .inl rfl, hu, ht⟩))))))
  | some r =>
    by_cases hb : beatComesFirst s = true
    · have ha : nextAction s = .run (nextBeat r s) s := by unfold nextAction; rw [hr]; exact if_pos hb
      unfold step at h
      rw [ha] at h
      obtain ⟨u, hu, rfl⟩ := redrawn_eq_next h
      exact .inr (.inr (.inr (.inr (.inr (.inr (.inr ⟨r, u, rfl, hu, rfl⟩))))))
    · have ha : nextAction s = actOnInput s := by unfold nextAction; rw [hr]; exact if_neg hb
      rcases actOnInput_cases h ha with ⟨e, -⟩ | e | e | e | e | e | ⟨bs, rest, i, u, e, hd, hu, ht⟩
      · exact absurd (by unfold beatComesFirst; rw [e]) hb
      · exact .inr (.inl e)
      · exact .inr (.inr (.inl e))
      · exact .inr (.inr (.inr (.inl e)))
      · exact .inr (.inr (.inr (.inr (.inl e))))
      · exact .inr (.inr (.inr (.inr (.inr (.inl e)))))
      · have hs : servedBetweenBeats bs s = true := by
          unfold beatComesFirst at hb
          rw [e] at hb
          simpa using hb
        obtain ⟨a, hd', -, harr⟩ := servedBetweenBeats_cases hs
        obtain rfl : i = .ifetchCHitb a := by rw [hd'] at hd; simpa using hd.symm
        exact .inr (.inr (.inr (.inr (.inr (.inr (.inl ⟨bs, rest, _, u, e, hd, .inr ⟨a, rfl, harr⟩, hu, ht⟩))))))

end Sys2Proof.Machine
end

