-- ==== Sys2Proof/Tests/Slice0.lean ====
section
/-! SUPPORT. Tests of the model's author: the checks of WellFormed, the decoding of words written out from
the spec's encodings, single steps against the vectors of 95_test_vectors.md, and for each obligation with
hypotheses a state and operands that meet them. -/

open Sys2Proof Sys2Proof.Machine

namespace Sys2Proof.Tests

/-! ### WellFormed: each check refuses an ill-formed term -/

theorem test_wf_fetch_misaligned : (Instr.ifetchCMiss 0x2A9BA6E6).wellFormed = false := by decide
theorem test_wf_first_misaligned : (Instr.ifetchCFirst 0x2A9BA6E5).wellFormed = false := by decide
theorem test_wf_hitb_misaligned : (Instr.ifetchCHitb 0x2A9BA6E7).wellFormed = false := by decide
theorem test_wf_hitl_misaligned : (Instr.ifetchCHitl 0x2A9BA6E6).wellFormed = false := by decide
theorem test_wf_nc_misaligned : (Instr.ifetchNc .b16 true 0x2A9BA6E5).wellFormed = false := by decide
theorem test_wf_dread_misaligned : (Instr.dread .b32 false 0x2A9BA6E2).wellFormed = false := by decide
theorem test_wf_writePage_misaligned : (Instr.writePage .b16 false 0x2A900001 0).wellFormed = false := by decide
theorem test_wf_writePage_data : (Instr.writePage .b8 false 0x2A900003 0x100).wellFormed = false := by decide
theorem test_wf_writeOther_misaligned : (Instr.writeOther .b32 false 0x2AA00001 0).wellFormed = false := by decide
theorem test_wf_writeOther_data : (Instr.writeOther .b16 false 0x2AA00000 0x10000).wellFormed = false := by decide
theorem test_wf_refused_misaligned : (Instr.txnRefused .b32 false 2 0).wellFormed = false := by decide
theorem test_wf_refused_data : (Instr.txnRefused .b8 false 0 0x100).wellFormed = false := by decide
theorem test_wf_ctrWrn_misaligned : (Instr.ctrWrn 1 .b16 0).wellFormed = false := by decide
theorem test_wf_ctrWrn_data : (Instr.ctrWrn 1 .b8 0x100).wellFormed = false := by decide
theorem test_wf_ctrRdn_misaligned : (Instr.ctrRdn 3 .b16).wellFormed = false := by decide
theorem test_wf_regOther_ctr : (Instr.regOther true .b8 3 0).wellFormed = false := by decide
theorem test_wf_regOther_misaligned : (Instr.regOther true .b32 6 0).wellFormed = false := by decide
theorem test_wf_regOther_data : (Instr.regOther true .b8 4 0x100).wellFormed = false := by decide
theorem test_wf_regOther_readData : (Instr.regOther false .b32 4 1).wellFormed = false := by decide

/-! ### Decoding: words written out from R84, R92 and the tables of 95_test_vectors.md

The first byte is `kind ++ attr`, the key `attr` in binary as the vectors print it. -/

/-- ART_CTR = 0x0002 A905, not the first access, nothing valid. -/
def v0 : View := { page := 0x2A9, en := true, firstNow := false, bufTag := none, lineTags := [] }

/-- R86: write = 1 and fetch = 1. -/
theorem test_decode_refused :
    decode v0 [0b11010, 0x00, 0x00, 0xA0, 0x2A, 0x78, 0x56, 0x34, 0x12] =
      .ok (.txnRefused .b32 false 0x2AA00000 0x12345678) := by decide
/-- V39 and the example of R162. -/
theorem test_decode_writePage :
    decode v0 [0b10001, 0x02, 0x00, 0x90, 0x2A, 0xEF, 0xBE, 0, 0] =
      .ok (.writePage .b16 false 0x2A900002 0xBEEF) := by decide
/-- V40, and the example of R106. -/
theorem test_decode_writeOther :
    decode v0 [0b10010, 0x00, 0x00, 0x00, 0x24, 0x78, 0x56, 0x34, 0x12] =
      .ok (.writeOther .b32 false 0x24000000 0x12345678) := by decide
/-- V34: `RD32.C`. -/
theorem test_decode_dread :
    decode v0 [0b00110, 0xE4, 0xA6, 0x9B, 0x2A, 0, 0, 0, 0] = .ok (.dread .b32 true 0x2A9BA6E4) := by decide
/-- V32: `IF16.C`. -/
theorem test_decode_nc16 :
    decode v0 [0b01101, 0xE4, 0xA6, 0x9B, 0x2A, 0, 0, 0, 0] = .ok (.ifetchNc .b16 true 0x2A9BA6E4) := by decide
/-- V36: the word below the page. -/
theorem test_decode_ncPage :
    decode v0 [0b01110, 0xFC, 0xFF, 0x8F, 0x2A, 0, 0, 0, 0] = .ok (.ifetchNc .b32 true 0x2A8FFFFC) := by decide
/-- V38. -/
theorem test_decode_first :
    decode { v0 with firstNow := true } [0b01110, 0xE4, 0xA6, 0x9B, 0x2A, 0, 0, 0, 0] =
      .ok (.ifetchCFirst 0x2A9BA6E4) := by decide
/-- V67: a double match is a buffer hit (R123). -/
theorem test_decode_hitb :
    decode { v0 with bufTag := some 0x5D37, lineTags := [0x5D37] } [0b01110, 0xE0, 0xA6, 0x9B, 0x2A, 0, 0, 0, 0] =
      .ok (.ifetchCHitb 0x2A9BA6E0) := by decide
/-- V2: Figure 19. -/
theorem test_decode_hitl :
    decode { v0 with bufTag := some 0x5D38, lineTags := [0x0001, 0x5D37] }
      [0b01110, 0xE4, 0xA6, 0x9B, 0x2A, 0, 0, 0, 0] = .ok (.ifetchCHitl 0x2A9BA6E4) := by decide
/-- V41: the last word of the page. -/
theorem test_decode_miss :
    decode { v0 with lineTags := [0x5D37] } [0b01110, 0xFC, 0xFF, 0x9F, 0x2A, 0, 0, 0, 0] =
      .ok (.ifetchCMiss 0x2A9FFFFC) := by decide
/-- V64: refused by D9. -/
theorem test_decode_misaligned :
    decode v0 [0b01110, 0xE6, 0xA6, 0x9B, 0x2A, 0, 0, 0, 0] = .error .misaligned := by decide
/-- R90: `sz = 0b11` cannot occur. -/
theorem test_decode_badSize : decode v0 [0b01111, 0, 0, 0x90, 0x2A, 0, 0, 0, 0] = .error .badSize := by decide
theorem test_decode_badLength : decode v0 [0b01110, 0, 0, 0x90, 0x2A] = .error .badLength := by decide
theorem test_decode_badKind : decode v0 [0b01001110, 0, 0, 0x90, 0x2A, 0, 0, 0, 0] = .error .unknownKind := by
  decide
theorem test_decode_strayData : decode v0 [0b00010, 0, 0, 0x90, 0x2A, 1, 0, 0, 0] = .error .strayData := by decide
theorem test_decode_strayAttr : decode v0 [0b00101010, 0, 0, 0, 0, 0, 0, 0, 0] = .error .strayAttr := by decide
/-- V20: `CRD32`. -/
theorem test_decode_rd32 : decode v0 [0b00100010, 0, 0, 0, 0, 0, 0, 0, 0] = .ok .ctrRd32 := by decide
/-- V21: `CWR32 0x0002A905`. -/
theorem test_decode_wr32 :
    decode v0 [0b00110010, 0, 0, 0, 0, 0x05, 0xA9, 0x02, 0x00] = .ok (.ctrWr32 0x0002A905) := by decide
/-- The example of R182: `CWR16 +2, 0x0001`. -/
theorem test_decode_wrn :
    decode v0 [0b00110001, 2, 0, 0, 0, 0x01, 0, 0, 0] = .ok (.ctrWrn 2 .b16 0x0001) := by decide
theorem test_decode_rdn : decode v0 [0b00100000, 3, 0, 0, 0, 0, 0, 0, 0] = .ok (.ctrRdn 3 .b8) := by decide
theorem test_decode_regOther :
    decode v0 [0b00100010, 4, 0, 0, 0, 0, 0, 0, 0] = .ok (.regOther false .b32 4 0) := by decide
/-- The four events have no encoding (R86). -/
theorem test_events_have_no_encoding :
    encode .refillBeat = none ∧ encode .refillErr = none ∧ encode .invalidateAll = none ∧
      encode .reset = none := by decide

/-- The opcode table's keys in the state after reset: EN = 0, page 0x000 (log 4). -/
theorem test_tableWords :
    decodeTableWord 8 0b11000 = some (.txnRefused .b8 false 0 0) ∧
    decodeTableWord 8 0b10000 = some (.writePage .b8 false 0 0) ∧
    decodeTableWord 8 0b00000 = some (.dread .b8 false 0) ∧
    decodeTableWord 8 0b01110 = some (.ifetchNc .b32 true 0) ∧
    decodeTableWord 32 0x0002A905 = some (.ctrWr32 0x0002A905) := by decide

/-! ### Address fields (V1, V11, V16, V18) and beats (V50) -/

theorem test_fields_V1 :
    pageOf 0x2A9BA6E4 = 0x2A9 ∧ indexOf 0x2A9BA6E4 = 0x5D37 ∧ segOf 0x2A9BA6E4 = 1 ∧
      quarterOf 0x2A9BA6E4 = 0 ∧ blockBase 0x2A9BA6E4 = 0x2A9BA6E0 := by decide
theorem test_fields_V11 :
    pageOf 0xFFFFFFFC = 0xFFF ∧ indexOf 0xFFFFFFFC = 0x7FFF ∧ segOf 0xFFFFFFFC = 7 ∧
      quarterOf 0xFFFFFFFC = 3 ∧ blockBase 0xFFFFFFFC = 0xFFFFFFE0 := by decide
theorem test_fields_V18 :
    indexOf 0x2A9BA6F4 = 0x5D37 ∧ segOf 0x2A9BA6F4 = 5 ∧ quarterOf 0x2A9BA6F4 = 2 := by decide
/-- V50: bytes 8 to 15 of the block. -/
theorem test_beat_V50 :
    beatAt [(8, 8), (9, 9), (10, 10), (11, 11), (12, 12), (13, 13), (14, 14), (15, 15)] 8 =
      0x0F0E0D0C0B0A0908 := by decide
/-- V51: the miss at 0x0800 001C reads quarters 3, 0, 1, 2. -/
theorem test_wrap_V51 :
    let r := fun n => beatAddr { victim := 0, base := 0x08000000, j0 := 3, seg := 7, done := n }
    r 0 = 0x08000018 ∧ r 1 = 0x08000000 ∧ r 2 = 0x08000008 ∧ r 3 = 0x08000010 := by decide

/-! ### Small states -/

/-- Draws that take no optional event. -/
def quiet : Draws :=
  { first := false, victim := 0, detectDisabled := false, dropOnDisable := false, detectOther := false
    readRest := false, serveBetween := false, beatFirst := false, narrowEn := false, narrowRead := 0
    deniedOkay := false, deniedRead := 0 }

/-- ART_CTR = 0x0002 A905, `primed = 1`, nothing valid (the start of V60). -/
def on : State := { State.reset with artCtr := 0x0002A905, primed := true, draws := quiet }

/-- The memory with the word 0xF000 B800 at the example address. -/
def mem0 : List Host.Cell := storeAt [] 0x2A9BA6E4 0xF000B800 .b32

/-- A line that holds the example block. -/
def exLine : Line := { valid := true, index := 0x5D37, seg := (Vector.replicate 8 0).set 1 0xF000B800 }

/-- Line 29 holds the example block (Figure 19, R121). -/
def withLine : State := setLine 29 exLine (setMem mem0 on)

/-- The state after the example of R121: the buffer a copy of line 29. -/
def withBuffer : State := copyLine 29 withLine

/-- A refill of the example block into line 0 with some beats done, the buffer in step with it. -/
def refilling (done : Fin 4) (valid : Bool) (arrived : Vector Bool 4) : State :=
  { setLine 0 { Line.reset with index := 0x5D37 } on with
    buf := { valid := valid, index := 0x5D37, seg := Vector.replicate 8 0, arrived := arrived }
    refill := some { victim := 0, base := 0x2A9BA6E0, j0 := 0, seg := 1, done := done } }

/-- The refill before its first beat, after its first, and after its third. -/
def before1 : State := refilling 0 false #v[false, false, false, false]
def after1 : State := refilling 1 true #v[true, false, false, false]
def after3 : State := refilling 3 true #v[true, true, true, false]

/-- Why an outcome is a refusal, if it is one. -/
def refusalOf : Result → Option Refusal
  | .refused r => some r
  | _ => none

/-- Whether an outcome is a next state that passes a check. -/
def passes (r : Result) (check : State → Bool) : Bool :=
  match r with
  | .next s => check s
  | _ => false

/-- `withBuffer` with a requester that is not privileged. -/
def lowRequester : State := { withBuffer with privileged := false }

/-- No line and no buffer is valid. -/
def nothingValid (s : State) : Bool := !s.buf.valid && (List.finRange 64).all fun i => !(line s i).valid

/-! ### One step of each instruction -/

theorem test_exec_refused : refusalOf (exec (.txnRefused .b32 true 0 0) on) = some .writeAndFetch := by decide
/-- V80: all bits clear, the byte written. -/
theorem test_exec_writePage :
    passes (exec (.writePage .b8 false 0x2A9FFFFF 0xAA) withBuffer) (fun t =>
      nothingValid t && byteAt t.mem 0x2A9FFFFF == 0xAA) = true := by decide
/-- V81: a write outside the page leaves the line and the buffer valid. -/
theorem test_exec_writeOther :
    passes (exec (.writeOther .b32 false 0x2AA00000 0x12345678) withBuffer) (fun t =>
      (line t 29).valid && t.buf.valid && wordAt t.mem 0x2AA00000 == 0x12345678) = true := by decide
/-- V65: a data read sees the memory. -/
theorem test_exec_dread :
    passes (exec (.dread .b16 false 0x2A9BA6E6) withBuffer) (fun t =>
      t.trace == [.response (.okayData .b16 0xF000), .ahbmRead 0x2A9BA6E6 .b16 (some 0xF000)]) = true := by decide
/-- V35. -/
theorem test_exec_nc :
    passes (exec (.ifetchNc .b32 true 0x2AA00000) withBuffer) (fun t =>
      t.trace == [.response (.okayData .b32 0), .ahbmRead 0x2AA00000 .b32 (some 0)]) = true := by decide
/-- R107's example. -/
theorem test_exec_first :
    passes (exec (.ifetchCFirst 0x2A9BA6E4) (setPrimed false withLine)) (fun t =>
      t.primed && !t.buf.valid &&
        t.trace == [.response (.okayData .b32 0xF000B800), .ahbmRead 0x2A9BA6E4 .b32 (some 0xF000B800)]) =
      true := by decide
/-- R122's example: segment 2 from the buffer, no memory access. -/
theorem test_exec_hitb :
    passes (exec (.ifetchCHitb 0x2A9BA6E8) withBuffer) (fun t =>
      t.trace == [.response (.okayData .b32 0)] && t.lru.head? == some 29) = true := by decide
/-- R126: quarter 3 has not arrived; a beat is read and the fetch waits. -/
theorem test_exec_hitb_waits :
    passes (exec (.ifetchCHitb 0x2A9BA6F8) after1) (fun t =>
      t.trace == [.aximRead 0x2A9BA6E8 (some 0)] && t.inputs == [.transfer (fetchBytes 0x2A9BA6F8)]) =
      true := by decide
/-- R121's example: 0xF000 B800 from line 29, the line copied to the buffer. -/
theorem test_exec_hitl :
    passes (exec (.ifetchCHitl 0x2A9BA6E4) withLine) (fun t =>
      t.trace == [.response (.okayData .b32 0xF000B800)] && t.buf.valid && t.buf.index == 0x5D37 &&
        t.buf.seg == exLine.seg && t.lru.head? == some 29) = true := by decide
/-- V60: the word from the upper half of the beat at 0x2A9BA6E0. -/
theorem test_exec_miss :
    passes (exec (.ifetchCMiss 0x2A9BA6E4) (setMem mem0 on)) (fun t =>
      t.trace == [.response (.okayData .b32 0xF000B800), .aximRead 0x2A9BA6E0 (some 0xF000B80000000000)] &&
        t.buf.valid && t.buf.index == 0x5D37) = true := by decide
/-- V20. -/
theorem test_exec_rd32 :
    passes (exec .ctrRd32 State.reset) (fun t => t.trace == [.response (.okayData .b32 0x00000004)]) = true := by
  decide
/-- V83: the page changes, all bits clear. -/
theorem test_exec_wr32_page :
    passes (exec (.ctrWr32 0x0002A805) withBuffer) (fun t => nothingValid t && t.artCtr == 0x0002A805) = true := by
  decide
/-- V23: the same value invalidates nothing. -/
theorem test_exec_wr32_same :
    passes (exec (.ctrWr32 0x0002A905) withBuffer) (fun t =>
      (line t 29).valid && t.buf.valid && t.artCtr == 0x0002A905) = true := by decide
/-- V26. -/
theorem test_exec_wrn :
    passes (exec (.ctrWrn 1 .b8 0x80) withBuffer) (fun t =>
      t.artCtr == 0x0002A905 && (line t 29).valid && t.trace == [.response .okay]) = true := by decide
theorem test_exec_rdn :
    passes (exec (.ctrRdn 2 .b16) withBuffer) (fun t => t.artCtr == 0x0002A905 && (line t 29).valid) = true := by
  decide
theorem test_exec_regOther : refusalOf (exec (.regOther true .b32 4 1) on) = some .otherRegisterOffset := by
  decide
/-- R143, V51: the second beat of a miss at 0x2A9BA6E4. -/
theorem test_exec_beat :
    passes (exec .refillBeat after1) (fun t =>
      t.trace == [.aximRead 0x2A9BA6E8 (some 0)] && !(line t 0).valid &&
        t.buf.arrived == #v[true, true, false, false]) = true := by decide
/-- R146: after the fourth beat the line is valid. -/
theorem test_exec_lastBeat :
    passes (exec .refillBeat after3) (fun t =>
      (line t 0).valid && t.refill == none && t.lru.head? == some 0) = true := by decide
/-- V90: all bits clear, the refill ends. -/
theorem test_exec_err :
    passes (exec .refillErr (setLine 29 exLine after1)) (fun t =>
      nothingValid t && t.refill == none && t.trace == [.aximRead 0x2A9BA6E8 none]) = true := by decide
/-- R161. -/
theorem test_exec_invalidateAll :
    passes (exec .invalidateAll withBuffer) (fun t =>
      nothingValid t && t.artCtr == 0x0002A905 && (line t 29).index == 0x5D37) = true := by decide
/-- R40. -/
theorem test_exec_reset :
    passes (exec .reset withBuffer) (fun t => nothingValid t && t.artCtr == 0x00000004 && !t.primed) = true := by
  decide

/-- R190, D24: an unprivileged write of the page index is carried out if PRIV_CHECK asks for nothing. -/
theorem test_unprivileged_allowed (h : Config.privCheck = .none) :
    passes (exec (.ctrWr32 0x0002A805) lowRequester) (fun t => nothingValid t && t.artCtr == 0x0002A805) = true := by
  simp only [exec, execCtrWr32, writeAccess_of_may _ (.inr h)]
  decide

/-- R190, D24: otherwise it has no effect. -/
theorem test_unprivileged_denied (h : Config.privCheck ≠ .none) :
    passes (exec (.ctrWr32 0x0002A805) lowRequester) (fun t =>
      (line t 29).valid && t.artCtr == 0x0002A905 && t.trace == [.response .error]) = true := by
  have hm : ¬ MayWriteCtr lowRequester := by simp [MayWriteCtr, lowRequester, h]
  simp only [exec, execCtrWr32, writeAccess_of_not_may _ hm]
  decide

/-- The requester's privilege is an input. -/
theorem test_requester :
    passes (step (setInputs [.requesterPrivilege false] on)) (fun t => !t.privileged && t.inputs == []) = true := by
  decide

/-- R61: a location that a read clears; a second read gives what the first left. -/
theorem test_read_effect :
    let s : State := { setMem mem0 on with
      readEffects := [{ port := .ahbm, addr := 0x2A9BA6E4, bytes := [(0x2A9BA6E7, 0)] }] }
    passes (exec (.dread .b32 false 0x2A9BA6E4) s) (fun t =>
      t.trace.head? == some (.response (.okayData .b32 0xF000B800)) &&
        passes (exec (.dread .b32 false 0x2A9BA6E4) t) (fun u =>
          u.trace.head? == some (.response (.okayData .b32 0x0000B800)))) = true := by decide

/-- R62: a change by another writer that waits for the refill's next beat, and one that does not. -/
theorem test_change_between_beats :
    passes (step { after1 with inputs := [.otherWrite 0x2A9BA6E8 1], draws := { quiet with beatFirst := true } })
      (fun t => t.trace == [.aximRead 0x2A9BA6E8 (some 0)] && t.inputs == [.otherWrite 0x2A9BA6E8 1]) = true ∧
    passes (step { after1 with inputs := [.otherWrite 0x2A9BA6E8 1] })
      (fun t => t.trace == [] && byteAt t.mem 0x2A9BA6E8 == 1) = true := by decide

/-- The very next step after a table word is placed runs it. -/
theorem test_fetchWord_dread :
    passes (step (State.reset.withFetchWord 8 0b00010)) (fun t =>
      t.trace == [.response (.okayData .b32 0), .ahbmRead 0 .b32 (some 0)]) = true := by decide
theorem test_fetchWord_wr32 :
    passes (step (State.reset.withFetchWord 32 0x0002A905)) (fun t => t.artCtr == 0x0002A905) = true := by decide

/-! ### Witnesses: a state and operands that meet the hypotheses of each obligation -/

/-- Every outcome that passes a check is a next state. -/
theorem next_of_passes {r : Result} {check : State → Bool} (h : passes r check = true) :
    ∃ t, r = .next t ∧ check t = true := by
  cases r with
  | next s => exact ⟨s, rfl, h⟩
  | fault e => cases h
  | refused e => cases h

/-- `on` with something that arrives. -/
def arriving (xs : List Input) : State := setInputs xs on

/-- `on` where the memory answers one access by a rule. -/
def answering (p : Port) (write : Bool) (a : Word) (x : Answer) : State :=
  { on with answers := [{ port := p, write := write, addr := a, answer := x }] }

theorem test_wit_EncodedInstructionDecodesBack :
    (Instr.ifetchCHitl 0x2A9BA6E4).wellFormed = true ∧
    View.admits { v0 with lineTags := [0x5D37] } (.ifetchCHitl 0x2A9BA6E4) = true ∧
    encode (.ifetchCHitl 0x2A9BA6E4) = some [0b01110, 0xE4, 0xA6, 0x9B, 0x2A, 0, 0, 0, 0] := by decide

theorem test_wit_DecodedTransferEncodesBack :
    decode v0 [0b00110001, 2, 0, 0, 0, 0x01, 0, 0, 0] = .ok (.ctrWrn 2 .b16 0x0001) := by decide

theorem test_wit_StepRunsDecodedInstruction :
    let s := arriving [.transfer (fetchBytes 0x2A9BA6E4)]
    s.refill = none ∧ s.inputs = .transfer (fetchBytes 0x2A9BA6E4) :: [] ∧
      decode (view s) (fetchBytes 0x2A9BA6E4) = .ok (.ifetchCMiss 0x2A9BA6E4) := by decide

/-- A transfer that qualifies, and one that does not. -/
theorem test_wit_CacheableExactlyWhenQualified :
    decode (view on) (fetchBytes 0x2A9BA6E4) = .ok (.ifetchCMiss 0x2A9BA6E4) ∧
      pageOf 0x2A9BA6E4 = pcacheaddr on ∧ enabled on = true ∧
      decode (view State.reset) (fetchBytes 0x00000004) = .ok (.ifetchNc .b32 true 0x00000004) := by decide

/-- With `primed` = 0, and with `primed` = 1. -/
theorem test_wit_FirstAccessReadsPrimed :
    let u := setPrimed false on
    Size.b32.alignedTo 0x2A9BA6E4 = true ∧
      (pageOf 0x2A9BA6E4 = pcacheaddr on ∧ enabled on = true ∧ on.primed = true) ∧
      pageOf 0x2A9BA6E4 = pcacheaddr u ∧ enabled u = true ∧ u.primed = false := by decide

/-- A buffer match, a line match alone, and no match. -/
theorem test_wit_HitCheckComparesValidIndexes :
    let a : Word := 0x2A9BA6E4
    Size.b32.alignedTo a = true ∧
    (pageOf a = pcacheaddr withBuffer ∧ enabled withBuffer = true ∧ firstNow withBuffer = false ∧
      withBuffer.buf.valid = true ∧ withBuffer.buf.index = indexOf a) ∧
    (pageOf a = pcacheaddr withLine ∧ enabled withLine = true ∧ firstNow withLine = false ∧
      withLine.buf.valid = false ∧ (line withLine 29).valid = true ∧ (line withLine 29).index = indexOf a) ∧
    pageOf a = pcacheaddr on ∧ enabled on = true ∧ firstNow on = false ∧ on.buf.valid = false ∧
      ∀ l : LineNo, ¬ ((line on l).valid = true ∧ (line on l).index = indexOf a) := by decide

theorem test_wit_MisalignedTransferIsRefused :
    let s := arriving [.transfer (txnBytes false true true .b32 0x2A9BA6E6 0)]
    s.refill = none ∧ s.inputs = .transfer (txnBytes false true true .b32 0x2A9BA6E6 0) :: [] ∧
      Size.b32.alignedTo 0x2A9BA6E6 = false := by decide

/-! The invariants and the agreement with memory hold of a state in the middle of a refill, and of a state
with a valid line and a valid buffer. -/

theorem after1_inv : Inv after1 := by
  refine ⟨by unfold ReservedBitsKept; decide, ?_, ?_, ?_, List.Perm.refl _, by decide⟩
  · have h : ∀ i : LineNo, (line after1 i).valid = false := by decide
    intro i j hi
    rw [h] at hi
    cases hi
  · intro h; cases h
  · intro r hr
    cases hr
    refine ⟨by decide, by decide, by decide, by decide, by decide, by decide, ?_, by decide, rfl⟩
    have h : ∀ i : LineNo, (line after1 i).valid = false := by decide
    intro i hi
    rw [h] at hi
    cases hi

theorem after1_coherent : Coherent after1 := by
  refine ⟨?_, fun _ => by decide, ?_⟩
  · have h : ∀ i : LineNo, (line after1 i).valid = false := by decide
    intro i hi
    rw [h] at hi
    cases hi
  · intro r hr
    cases hr
    decide

theorem withBuffer_only : ∀ i : LineNo, (line withBuffer i).valid = true → i = 29 := by decide

theorem withBuffer_inv : Inv withBuffer := by
  refine ⟨by unfold ReservedBitsKept; decide, ?_, ?_, ?_, List.Perm.refl _, by decide⟩
  · intro i j hi hj _
    rw [withBuffer_only i hi, withBuffer_only j hj]
  · intro _ _
    exact ⟨⟨29, by decide⟩, by decide⟩
  · intro r hr; cases hr

theorem withBuffer_coherent : Coherent withBuffer := by
  refine ⟨?_, fun _ => by decide, ?_⟩
  · intro i hi
    rw [withBuffer_only i hi]
    decide
  · intro r hr; cases hr

theorem test_wit_StepKeepsInvariants :
    (Inv after1 ∧ ∃ t, step after1 = .next t) ∧ Inv withBuffer ∧ ∃ t, step withBuffer = .next t :=
  ⟨⟨after1_inv, _, rfl⟩, withBuffer_inv, _, rfl⟩

/-- A match, and none. -/
theorem test_wit_CompareMatchIsAHit :
    (Inv withBuffer ∧ pageOf 0x2A9BA6E4 = pcacheaddr withBuffer ∧ enabled withBuffer = true ∧
      firstNow withBuffer = false ∧
      decode (view withBuffer) (fetchBytes 0x2A9BA6E4) = .ok (.ifetchCHitb 0x2A9BA6E4)) ∧
    pageOf 0x2A9BA700 = pcacheaddr withBuffer ∧
      decode (view withBuffer) (fetchBytes 0x2A9BA700) = .ok (.ifetchCMiss 0x2A9BA700) :=
  ⟨⟨withBuffer_inv, by decide, by decide, by decide, by decide⟩, by decide, by decide⟩

/-- The coherent state with a line, where another writer's change of the page is next and is detected. -/
def overwritten : State :=
  { withBuffer with inputs := [.otherWrite 0x2A9BA6E4 1], draws := { quiet with detectOther := true } }

/-- The same, where reads have an effect outside the page. -/
def effectful : State :=
  { after1 with readEffects := [{ port := .axim, addr := 0x2A9BA6E8, bytes := [(0x2AA00000, 1)] }] }

theorem effectful_plain : PageReadsPlain effectful := by
  intro e he b hb
  obtain rfl := List.mem_singleton.1 he
  obtain rfl := List.mem_singleton.1 hb
  decide

theorem test_wit_StepKeepsCoherence :
    (Inv effectful ∧ Coherent effectful ∧ writeDetectActive effectful = true ∧ PageReadsPlain effectful ∧
      effectful.inputs = [] ∧ ∃ t, step effectful = .next t) ∧
    Inv overwritten ∧ Coherent overwritten ∧ writeDetectActive overwritten = true ∧ PageReadsPlain overwritten ∧
      overwritten.draws.detectOther = true ∧ ∃ t, step overwritten = .next t :=
  ⟨⟨after1_inv, after1_coherent, rfl, effectful_plain, rfl, _, rfl⟩, withBuffer_inv,
    withBuffer_coherent, rfl, nofun, rfl, _, rfl⟩

theorem test_wit_DataReadIsForwarded :
    answerTo withBuffer .ahbm false 0x2A9BA6E4 ≠ some .silent ∧
      answerTo (answering .ahbm false 0x2A9BA6E4 .error) .ahbm false 0x2A9BA6E4 = some .error := by decide

theorem test_wit_NonCacheableFetchIsForwarded :
    ¬ (Size.b16 = .b32 ∧ true = true ∧ pageOf 0x2A9BA6E4 = pcacheaddr withLine ∧ enabled withLine = true) ∧
      answerTo withLine .ahbm false 0x2A9BA6E4 ≠ some .silent := by decide

theorem test_wit_FirstCacheableAccessIsForwarded :
    let s := setPrimed false withLine
    pageOf 0x2A9BA6E4 = pcacheaddr s ∧ enabled s = true ∧ firstNow s = true ∧
      answerTo s .ahbm false 0x2A9BA6E4 ≠ some .silent := by decide

theorem test_wit_ForwardedErrorIsPassedBack :
    let r := answering .ahbm false 0x2A9BA6E4 .error
    let w := answering .ahbm true 0x2AA00000 .error
    (view r).admits (.dread .b32 false 0x2A9BA6E4) = true ∧
    (view r).admits (.ifetchNc .b32 false 0x2A9BA6E4) = true ∧
    (view (setPrimed false r)).admits (.ifetchCFirst 0x2A9BA6E4) = true ∧
    answerTo r .ahbm false 0x2A9BA6E4 = some .error ∧
    (view w).admits (.writeOther .b32 false 0x2AA00000 1) = true ∧
    answerTo w .ahbm true 0x2AA00000 = some .error := by decide

/-- A read of AHBM in each class that reads it, a write in both classes, a miss, a beat and a fetch that waits
for it, and the repeat of a fetch. -/
theorem test_wit_SilentMemoryIsStuck :
    let r := answering .ahbm false 0x2A9BA6E4 .silent
    let f := setPrimed false r
    let w := answering .ahbm true 0x2AA00000 .silent
    let p := answering .ahbm true 0x2A9FFFFF .silent
    let m := answering .axim false 0x2A9BA6E0 .silent
    let b : State := { after1 with answers := [{ port := .axim, write := false, addr := 0x2A9BA6E8, answer := .silent }] }
    let e : State := { before1 with answers := r.answers }
    let x : State := { on with answers := { port := .axim, write := false, addr := 0x2A9BA6E0, answer := .error } :: r.answers }
    (answerTo r .ahbm false 0x2A9BA6E4 = some .silent ∧
      (view r).admits (.ifetchNc .b32 false 0x2A9BA6E4) = true) ∧
    (answerTo f .ahbm false 0x2A9BA6E4 = some .silent ∧ (view f).admits (.ifetchCFirst 0x2A9BA6E4) = true) ∧
    (answerTo w .ahbm true 0x2AA00000 = some .silent ∧ pageOf 0x2AA00000 ≠ pcacheaddr w) ∧
    (answerTo p .ahbm true 0x2A9FFFFF = some .silent ∧ pageOf 0x2A9FFFFF = pcacheaddr p) ∧
    ((view m).admits (.ifetchCMiss 0x2A9BA6E4) = true ∧
      answerTo m .axim false (quarterAddr (blockBase 0x2A9BA6E4) (quarterOf 0x2A9BA6E4)) = some .silent) ∧
    (∃ x : Refill, b.refill = some x ∧ answerTo b .axim false (beatAddr x) = some .silent ∧
      (view b).admits (.ifetchCHitb 0x2A9BA6FC) = true ∧
      arrivedAt b.buf.arrived (quarterOf 0x2A9BA6FC) = false) ∧
    ((view x).admits (.ifetchCMiss 0x2A9BA6E4) = true ∧
      answerTo x .axim false (quarterAddr (blockBase 0x2A9BA6E4) (quarterOf 0x2A9BA6E4)) = some .error ∧
      answerTo x .ahbm false (missAddr (missRefill x 0x2A9BA6E4)) = some .silent) ∧
    ∃ x : Refill, e.refill = some x ∧ x.done = 0 ∧ answerTo e .ahbm false (missAddr x) = some .silent :=
  ⟨by decide, by decide, by decide, by decide, by decide, ⟨_, rfl, by decide, by decide, by decide⟩,
    ⟨by decide, by decide, by decide⟩, _, rfl, rfl, by decide⟩

theorem test_wit_WriteOutsidePageIsForwarded :
    let s := answering .ahbm true 0x2AA00000 .ignored
    Memory.wf withLine.mem ∧ pageOf 0x2AA00000 ≠ pcacheaddr withLine ∧
    answerTo withLine .ahbm true 0x2AA00000 = none ∧
    Memory.wf s.mem ∧ pageOf 0x2AA00000 ≠ pcacheaddr s ∧
    answerTo s .ahbm true 0x2AA00000 = some .ignored := by decide

theorem test_wit_DataReadIgnoresTheCache :
    ∃ t t' : State, (setMem mem0 on).mem = withBuffer.mem ∧ (setMem mem0 on).answers = withBuffer.answers ∧
      exec (.dread .b32 false 0x2A9BA6E4) (setMem mem0 on) = .next t ∧
      exec (.dread .b32 true 0x2A9BA6E4) withBuffer = .next t' := ⟨_, _, rfl, rfl, rfl, rfl⟩

/-- Without an effect on the read, and with one. -/
theorem test_wit_SecondReadSeesTheEffect :
    let s : State := { on with readEffects := [{ port := .ahbm, addr := 0x2AA00000, bytes := [(0x2AA00000, 1)] }] }
    ReadsNormally on .ahbm 0x2AA00000 ∧ readEffect on .ahbm 0x2AA00000 = [] ∧
      ReadsNormally s .ahbm 0x2AA00000 ∧ readEffect s .ahbm 0x2AA00000 = [(0x2AA00000, 1)] :=
  ⟨⟨nofun, nofun⟩, rfl, ⟨nofun, nofun⟩, by decide⟩

theorem test_wit_LineHitReturnsTheSegment : (view withLine).admits (.ifetchCHitl 0x2A9BA6E4) = true := by decide

/-- With a line that holds the index, and with none. -/
theorem test_wit_BufferHitReturnsTheSegment :
    ((view withBuffer).admits (.ifetchCHitb 0x2A9BA6FC) = true ∧
      arrivedAt withBuffer.buf.arrived (quarterOf 0x2A9BA6FC) = true ∧
      (line withBuffer 29).valid = true ∧ (line withBuffer 29).index = indexOf 0x2A9BA6FC ∧
      ∀ j : LineNo, (line withBuffer j).valid = true → (line withBuffer j).index = indexOf 0x2A9BA6FC → j = 29) ∧
    (view after1).admits (.ifetchCHitb 0x2A9BA6E0) = true ∧
      arrivedAt after1.buf.arrived (quarterOf 0x2A9BA6E0) = true ∧
      ∀ i : LineNo, (line after1 i).valid = true → (line after1 i).index ≠ indexOf 0x2A9BA6E0 := by decide

theorem after1_reads (p : Port) (a : Word) : ReadsNormally after1 p a := ⟨nofun, nofun⟩

theorem on_reads (p : Port) (a : Word) : ReadsNormally on p a := ⟨nofun, nofun⟩

theorem test_wit_BufferHitWaitsForItsBeat :
    ∃ r : Refill, (view after1).admits (.ifetchCHitb 0x2A9BA6FC) = true ∧
      arrivedAt after1.buf.arrived (quarterOf 0x2A9BA6FC) = false ∧ after1.refill = some r ∧ r.done ≠ 0 ∧
      ReadsNormally after1 .axim (beatAddr r) :=
  ⟨_, by decide, by decide, rfl, by decide, after1_reads _ _⟩

theorem test_wit_HitReturnsWhatMemoryHolds :
    Coherent withLine ∧ Coherent after1 ∧ Size.b32.alignedTo 0x2A9BA6E4 = true ∧
      (view withLine).admits (.ifetchCHitl 0x2A9BA6E4) = true ∧
      arrivedAt after1.buf.arrived (quarterOf 0x2A9BA6E4) = true ∧
      (view after1).admits (.ifetchCHitb 0x2A9BA6E4) = true :=
  ⟨⟨withBuffer_coherent.1, nofun, nofun⟩, after1_coherent, by decide, by decide, by decide, by decide⟩

theorem test_wit_BufferHitServedBetweenBeats :
    let s : State := { after1 with
      inputs := [.transfer (fetchBytes 0x2A9BA6E4)], draws := { quiet with serveBetween := true } }
    ∃ r : Refill, s.refill = some r ∧ s.inputs = .transfer (fetchBytes 0x2A9BA6E4) :: [] ∧
      Size.b32.alignedTo 0x2A9BA6E4 = true ∧ (view s).admits (.ifetchCHitb 0x2A9BA6E4) = true ∧
      arrivedAt s.buf.arrived (quarterOf 0x2A9BA6E4) = true ∧ s.draws.serveBetween = true :=
  ⟨_, rfl, rfl, by decide, by decide, by decide, rfl⟩

theorem test_wit_MissAnswersFromTheFirstBeat :
    Size.b32.alignedTo 0x2A9BA6FC = true ∧ (view on).admits (.ifetchCMiss 0x2A9BA6FC) = true ∧
      ReadsNormally on .axim (quarterAddr (blockBase 0x2A9BA6FC) (quarterOf 0x2A9BA6FC)) :=
  ⟨by decide, by decide, on_reads _ _⟩

theorem test_wit_BeatFillsItsQuarter :
    (∃ r : Refill, before1.refill = some r ∧ r.done = 0 ∧ ReadsNormally before1 .axim (beatAddr r)) ∧
    ∃ r : Refill, after1.refill = some r ∧ r.done ≠ 3 ∧ r.done ≠ 0 ∧ ReadsNormally after1 .axim (beatAddr r) :=
  ⟨⟨_, rfl, rfl, nofun, nofun⟩, _, rfl, by decide, by decide, nofun, nofun⟩

/-- The first beat, with the miss; the second, in a refill that is consistent; and the fourth. -/
theorem test_wit_LastBeatCompletesTheRefill :
    ((view on).admits (.ifetchCMiss 0x2A9BA6E4) = true ∧
      ReadsNormally on .axim (quarterAddr (blockBase 0x2A9BA6E4) (quarterOf 0x2A9BA6E4))) ∧
    (∃ r : Refill, after1.refill = some r ∧ r.done ≠ 3 ∧ ReadsNormally after1 .axim (beatAddr r) ∧
      RefillConsistent after1) ∧
    ∃ r : Refill, after3.refill = some r ∧ r.done = 3 ∧ ReadsNormally after3 .axim (beatAddr r) :=
  ⟨⟨by decide, on_reads _ _⟩, ⟨_, rfl, by decide, after1_reads _ _, after1_inv.2.2.2.1⟩, _, rfl, rfl, nofun, nofun⟩

theorem test_wit_MissIsAnsweredWithTheSelectedHalf :
    (view on).admits (.ifetchCMiss 0x2A9BA6E4) = true ∧
      ReadsNormally on .axim (BitVec.extractLsb' 3 29 (0x2A9BA6E4 : Word) ++ (0 : BitVec 3)) :=
  ⟨by decide, on_reads _ _⟩

theorem test_wit_RefillReadsEachQuarterOnce :
    blockBase 0xFFFFFFE0 = 0xFFFFFFE0 ∧ blockBase 0x2A9BA6E0 = 0x2A9BA6E0 := by decide

theorem test_wit_RefillLoadsTheBlock :
    on.inputs = [] ∧ Size.b32.alignedTo 0x2A9BA6F4 = true ∧
      (view on).admits (.ifetchCMiss 0x2A9BA6F4) = true ∧
      ∀ j : BitVec 2, ReadsNormally on .axim (quarterAddr (blockBase 0x2A9BA6F4) j) ∧
        readEffect on .axim (quarterAddr (blockBase 0x2A9BA6F4) j) = [] :=
  ⟨rfl, by decide, by decide, fun _ => ⟨on_reads _ _, rfl⟩⟩

theorem test_wit_RefillErrorInvalidatesEverything :
    let s : State := { after1 with draws := { quiet with readRest := true } }
    (∃ r : Refill, after1.refill = some r ∧ r.done ≠ 0 ∧ after1.draws.readRest = false) ∧
      ∃ r : Refill, s.refill = some r ∧ r.done ≠ 0 ∧ s.draws.readRest = true :=
  ⟨⟨_, rfl, by decide, rfl⟩, _, rfl, by decide, rfl⟩

/-- A miss whose first beat the memory answers with ERROR, and a record with no beat done; a repeat of the
fetch is answered. -/
theorem test_wit_FirstBeatErrorAnswersTheFetch :
    let u := answering .axim false 0x2A9BA6E0 .error
    ((view u).admits (.ifetchCMiss 0x2A9BA6E4) = true ∧
      answerTo u .axim false (quarterAddr (blockBase 0x2A9BA6E4) (quarterOf 0x2A9BA6E4)) = some .error ∧
      answerTo u .ahbm false (missAddr (missRefill u 0x2A9BA6E4)) ≠ some .silent) ∧
    Size.b32.alignedTo 0x2A9BA6E4 = true ∧
    ∃ r : Refill, before1.refill = some r ∧ r.done = 0 ∧ answerTo before1 .ahbm false (missAddr r) ≠ some .silent := by
  refine ⟨⟨by decide, by decide, ?_⟩, by decide, _, rfl, rfl, nofun⟩
  simp [answerTo, answering]

/-- The memory answers the second beat of the refill, and the first beat of a miss, with ERROR. -/
theorem test_wit_BeatAnsweredErrorIsRefillError :
    let s : State := { after1 with
      answers := [{ port := .axim, write := false, addr := 0x2A9BA6E8, answer := .error }] }
    let u := answering .axim false 0x2A9BA6E0 .error
    (∃ r : Refill, s.refill = some r ∧ answerTo s .axim false (beatAddr r) = some .error) ∧
    (view u).admits (.ifetchCMiss 0x2A9BA6E4) = true ∧
    answerTo u .axim false (quarterAddr (blockBase 0x2A9BA6E4) (quarterOf 0x2A9BA6E4)) = some .error ∧
    ∃ t, exec (.ifetchCMiss 0x2A9BA6E4) u = .next t := by
  refine ⟨⟨_, rfl, by decide⟩, by decide, by decide, ?_⟩
  cases h : Config.errorResponse with
  | propagate =>
    simp only [exec, execIfetchCMiss]
    rw [inClass_of_admits _ (by decide)]
    exact ⟨_, by simp only [beat, failBeat, raiseRefillError, h]; rfl⟩
  | retryNoncacheable =>
    simp only [exec, execIfetchCMiss]
    rw [inClass_of_admits _ (by decide)]
    exact ⟨_, by simp only [beat, failBeat, raiseRefillError, h]; rfl⟩

/-- A cache that is full, and one that is not. -/
theorem test_wit_VictimIsInvalidOrLeastRecentlyUsed :
    let s : State := { on with lines := Vector.replicate 64 exLine }
    RecencyIsOrder on ∧ cacheFull on = false ∧ RecencyIsOrder s ∧ cacheFull s = true :=
  ⟨List.Perm.refl _, by decide, List.Perm.refl _, by decide⟩

theorem test_wit_LaterUseStandsNearerTheFront :
    (3 : LineNo) ∉ [5, 7, 5] ∧ (7 : LineNo) ∈ [(5 : LineNo), 7, 5] := by decide

/-- A transfer that does not match the buffer, one whose quarter has not arrived, and one that the draw does
not take. -/
theorem test_wit_RefillPrecedesTheNextTransfer :
    let s := setInputs [.transfer (txnBytes false false false .b32 0x2A9BA6E4 0)] after1
    let w := setInputs [.transfer (fetchBytes 0x2A9BA6FC)] after1
    let d := setInputs [.transfer (fetchBytes 0x2A9BA6E4)] after1
    ((∃ r : Refill, s.refill = some r) ∧
      decode (view s) (txnBytes false false false .b32 0x2A9BA6E4 0) = .ok (.dread .b32 false 0x2A9BA6E4)) ∧
    ((∃ r : Refill, w.refill = some r) ∧
      decode (view w) (fetchBytes 0x2A9BA6FC) = .ok (.ifetchCHitb 0x2A9BA6FC) ∧
      arrivedAt w.buf.arrived (quarterOf 0x2A9BA6FC) = false) ∧
    (∃ r : Refill, d.refill = some r) ∧
      decode (view d) (fetchBytes 0x2A9BA6E4) = .ok (.ifetchCHitb 0x2A9BA6E4) ∧
      arrivedAt d.buf.arrived (quarterOf 0x2A9BA6E4) = true ∧ d.draws.serveBetween = false :=
  ⟨⟨⟨_, rfl⟩, by decide⟩, ⟨⟨_, rfl⟩, by decide, by decide⟩, ⟨_, rfl⟩, by decide, by decide, rfl⟩

theorem test_wit_ChangeComesBeforeOrAfterABeat :
    let s := setInputs [.otherWrite 0x2A9BA6E8 1] after1
    let u : State := { s with draws := { quiet with beatFirst := true } }
    (∃ r : Refill, s.refill = some r) ∧ s.inputs = .otherWrite 0x2A9BA6E8 1 :: [] ∧
      isChange (.otherWrite 0x2A9BA6E8 1) = true ∧ s.draws.beatFirst = false ∧
      (∃ r : Refill, u.refill = some r) ∧ u.inputs = .otherWrite 0x2A9BA6E8 1 :: [] ∧ u.draws.beatFirst = true :=
  ⟨⟨_, rfl⟩, rfl, rfl, rfl, ⟨_, rfl⟩, rfl, rfl⟩

/-- The memory takes the write, ignores it, or answers ERROR. -/
theorem test_wit_WriteToPageInvalidatesEverything :
    let i := answering .ahbm true 0x2A9FFFFF .ignored
    let e := answering .ahbm true 0x2A9FFFFF .error
    (Memory.wf withBuffer.mem ∧ pageOf 0x2A9FFFFF = pcacheaddr withBuffer ∧
      answerTo withBuffer .ahbm true 0x2A9FFFFF = none) ∧
    (Memory.wf i.mem ∧ pageOf 0x2A9FFFFF = pcacheaddr i ∧ answerTo i .ahbm true 0x2A9FFFFF = some .ignored) ∧
    Memory.wf e.mem ∧ pageOf 0x2A9FFFFF = pcacheaddr e ∧ answerTo e .ahbm true 0x2A9FFFFF = some .error := by
  decide

theorem test_wit_FailedWriteToPageStillInvalidates :
    let e := answering .ahbm true 0x2A9FFFFF .error
    pageOf 0x2A9FFFFF = pcacheaddr e ∧ answerTo e .ahbm true 0x2A9FFFFF = some .error ∧
      writeDetectActive e = true := by decide

/-- A requester that may write and read, and one that may only if PRIV_CHECK asks for nothing. -/
theorem test_wit_may :
    (MayWriteCtr on ∧ MayWriteCtr after1 ∧ MayWriteCtr withBuffer ∧ MayWriteCtr State.reset ∧ MayReadCtr on) ∧
      (Config.privCheck ≠ .none → ¬ MayWriteCtr lowRequester) ∧
      (Config.privCheck = .accesses → ¬ MayReadCtr lowRequester) :=
  ⟨⟨.inl rfl, .inl rfl, .inl rfl, .inl rfl, .inl rfl⟩, fun h => by simp [MayWriteCtr, lowRequester, h],
    fun h => by simp [MayReadCtr, lowRequester, h]⟩

theorem test_wit_InvalidatingEventCancelsTheRefill :
    (∃ r : Refill, after1.refill = some r) ∧ MayWriteCtr after1 ∧ writeDetectActive after1 = true ∧
    (∃ t, exec (.writePage .b8 false 0x2A9FFFFF 0) after1 = .next t) ∧
    BitVec.extractLsb' 8 12 (0x0002A805 : Word) ≠ pcacheaddr after1 ∧
    (∃ t, exec (.ctrWr32 0x0002A805) after1 = .next t) ∧ ∃ t, exec .invalidateAll after1 = .next t :=
  ⟨⟨_, rfl⟩, .inl rfl, rfl, ⟨_, rfl⟩, by decide, ⟨_, rfl⟩, _, rfl⟩

/-- Each clause: a read, an undetected write to the page, word writes that keep the page with EN = 1, with EN
clear before and with EN cleared, buffer hits that are served and that have nothing to wait for, a beat, and a
miss; and a step that runs no cause. -/
theorem test_wit_NoOtherCauseInvalidates :
    let off : State := { withBuffer with artCtr := 0x0002A904 }
    let lone : State := { withBuffer with buf := { withBuffer.buf with arrived := Vector.replicate 4 false } }
    (¬ invalidationCause after1 .refillBeat ∧ ∃ t, exec .refillBeat after1 = .next t) ∧
    ((∀ (i : Instr) (u : State), nextAction after1 = .run i u → ¬ invalidationCause u i) ∧
      ∃ t, step after1 = .next t) ∧
    (mayInvalidate (.dread .b32 false 0x2A9BA6E4) = false ∧
      ∃ t, exec (.dread .b32 false 0x2A9BA6E4) withBuffer = .next t) ∧
    (pageOf 0x2A9FFFFF = pcacheaddr off ∧
      (Config.writeDetectWhenDisabled ≠ .yes → writeDetectActive off = false) ∧
      ∃ t, exec (.writePage .b8 false 0x2A9FFFFF 0) off = .next t) ∧
    ((Config.privCheck ≠ .none → ¬ MayWriteCtr lowRequester) ∧
      ∃ t, exec (.ctrWr32 0x0002A805) lowRequester = .next t) ∧
    (BitVec.extractLsb' 8 12 (0x0002A905 : Word) = pcacheaddr withBuffer ∧
      BitVec.getLsbD (0x0002A905 : Word) 0 = true ∧ ∃ t, exec (.ctrWr32 0x0002A905) withBuffer = .next t) ∧
    (BitVec.extractLsb' 8 12 (0x0002A904 : Word) = pcacheaddr off ∧ enabled off = false ∧
      ∃ t, exec (.ctrWr32 0x0002A904) off = .next t) ∧
    (BitVec.extractLsb' 8 12 (0x0002A904 : Word) = pcacheaddr withBuffer ∧
      (Config.keepOnDisable ≠ .invalidate → dropsOnDisable withBuffer = false) ∧
      ∃ t, exec (.ctrWr32 0x0002A904) withBuffer = .next t) ∧
    (arrivedAt withBuffer.buf.arrived (quarterOf 0x2A9BA6FC) = true ∧
      ∃ t, exec (.ifetchCHitb 0x2A9BA6FC) withBuffer = .next t) ∧
    (lone.refill = none ∧ arrivedAt lone.buf.arrived (quarterOf 0x2A9BA6FC) = false ∧
      ∃ t, exec (.ifetchCHitb 0x2A9BA6FC) lone = .next t) ∧
    ReadsNormally on .axim (quarterAddr (blockBase 0x2A9BA6E4) (quarterOf 0x2A9BA6E4)) ∧
      ∃ t, exec (.ifetchCMiss 0x2A9BA6E4) on = .next t := by
  have runs : ∀ {i s}, passes (exec i s) (fun _ => true) = true → ∃ t, exec i s = .next t :=
    fun h => let ⟨t, e, _⟩ := next_of_passes h; ⟨t, e⟩
  have lowWrite : ∃ t, exec (.ctrWr32 0x0002A805) lowRequester = .next t := by
    by_cases h : Config.privCheck = .none
    · obtain ⟨t, e, -⟩ := next_of_passes (test_unprivileged_allowed h); exact ⟨t, e⟩
    · obtain ⟨t, e, -⟩ := next_of_passes (test_unprivileged_denied h); exact ⟨t, e⟩
  have quietBeat : ¬ nextBeatFails after1 := fun ⟨_, _, h⟩ => by cases h
  refine ⟨⟨quietBeat, runs (by decide)⟩, ⟨fun i u h => ?_, ?_⟩, ⟨rfl, _, rfl⟩, ⟨by decide, fun h => ?_, runs (by decide)⟩,
    ⟨test_wit_may.2.1, lowWrite⟩,
    ⟨by decide, by decide, _, rfl⟩, ⟨by decide, by decide, _, rfl⟩, ⟨by decide, fun h => ?_, _, rfl⟩,
    ⟨by decide, runs (by decide)⟩, ⟨rfl, by decide, runs (by decide)⟩, on_reads _ _, runs (by decide)⟩
  · have e : nextAction after1 = .run .refillBeat after1 := by decide
    cases e.symm.trans h
    exact quietBeat
  · obtain ⟨t, e, -⟩ := next_of_passes (show passes (step after1) (fun _ => true) = true by decide)
    exact ⟨t, e⟩
  · unfold writeDetectActive
    cases e : Config.writeDetectWhenDisabled <;> first | exact absurd e h | rfl
  · unfold dropsOnDisable
    cases e : Config.keepOnDisable <;> first | exact absurd e h | rfl

theorem test_wit_AfterInvalidationTheNextFetchMisses :
    NothingValid on ∧ Size.b32.alignedTo 0x2A900000 = true ∧ pageOf 0x2A900000 = pcacheaddr on ∧
      enabled on = true ∧ firstNow on = false :=
  ⟨⟨by decide, rfl⟩, by decide, by decide, by decide, rfl⟩

theorem test_wit_StoreThenFetchReturnsTheStoredWord :
    let s := setInputs [.transfer (txnBytes true false false .b32 0x2A9BA6E4 0xE7FEE7FE),
      .transfer (fetchBytes 0x2A9BA6E4)] withBuffer
    Memory.wf s.mem ∧ s.refill = none ∧ enabled s = true ∧
      s.inputs = .transfer (txnBytes true false false .b32 0x2A9BA6E4 0xE7FEE7FE) ::
        .transfer (fetchBytes 0x2A9BA6E4) :: [] ∧
      Size.b32.alignedTo 0x2A9BA6E4 = true ∧ pageOf 0x2A9BA6E4 = pcacheaddr s ∧
      answerTo s .ahbm true 0x2A9BA6E4 = none ∧ ReadsNormally s .ahbm 0x2A9BA6E4 ∧
      ReadsNormally s .axim (quarterAddr (blockBase 0x2A9BA6E4) (quarterOf 0x2A9BA6E4)) :=
  ⟨by decide, rfl, by decide, rfl, by decide, by decide, rfl, ⟨nofun, nofun⟩, nofun, nofun⟩

theorem test_wit_PageChangeHidesOldLines :
    MayWriteCtr withBuffer ∧ BitVec.extractLsb' 8 12 (0x0002AA05 : Word) ≠ pcacheaddr withBuffer ∧
      ∃ t, exec (.ctrWr32 0x0002AA05) withBuffer = .next t := ⟨.inl rfl, by decide, _, rfl⟩

/-- With the change detected, with it unseen, and with it unseen in the middle of a refill. -/
theorem test_wit_OtherWriterMayGoUnseen :
    let s := setInputs [.otherWrite 0x2A9BA6E4 1] withBuffer
    let r := setInputs [.otherWrite 0x2A9BA6E4 1] after1
    (Memory.wf overwritten.mem ∧ overwritten.inputs = .otherWrite 0x2A9BA6E4 1 :: [] ∧
      overwritten.refill = none ∧
      overwritten.draws.detectOther = true ∧ pageOf 0x2A9BA6E4 = pcacheaddr overwritten) ∧
    (Memory.wf s.mem ∧ s.inputs = .otherWrite 0x2A9BA6E4 1 :: [] ∧ s.refill = none ∧
      s.draws.detectOther = false) ∧
    Memory.wf r.mem ∧ r.inputs = .otherWrite 0x2A9BA6E4 1 :: [] ∧ r.draws.beatFirst = false ∧
      r.draws.detectOther = false := by decide

theorem test_wit_ControlReadGivesTheRegister :
    MayReadCtr on ∧ (Config.privCheck = .accesses → ¬ MayReadCtr lowRequester) := ⟨.inl rfl, test_wit_may.2.2⟩

/-- A word that changes the page, one that keeps it with EN = 1, one that clears EN, by a requester that may
write; and one that may not. -/
theorem test_wit_ControlWriteSetsTheFields :
    (MayWriteCtr on ∧ (Config.privCheck ≠ .none → ¬ MayWriteCtr lowRequester)) ∧
    (keepsReserved 0x000FFF05 = true ∧ BitVec.extractLsb' 8 12 (0x000FFF05 : Word) ≠ pcacheaddr on) ∧
    (keepsReserved 0x0002A905 = true ∧ BitVec.extractLsb' 8 12 (0x0002A905 : Word) = pcacheaddr on ∧
      BitVec.getLsbD (0x0002A905 : Word) 0 = true) ∧
    keepsReserved 0x0002A904 = true ∧ BitVec.extractLsb' 8 12 (0x0002A904 : Word) = pcacheaddr on ∧
      enabled on = true ∧ BitVec.getLsbD (0x0002A904 : Word) 0 = false :=
  ⟨⟨.inl rfl, test_wit_may.2.1⟩, by decide⟩

/-- V24 and V25. -/
theorem test_wit_ReservedBitsAreNotWritten :
    MayWriteCtr on ∧ keepsReserved 0x0002A901 = false ∧ keepsReserved 0x8002A905 = false :=
  ⟨.inl rfl, by decide⟩

theorem test_wit_NarrowWriteKeepsThePage :
    MayWriteCtr on ∧ (Config.privCheck ≠ .none → ¬ MayWriteCtr lowRequester) := ⟨.inl rfl, test_wit_may.2.1⟩

theorem test_wit_NarrowReadChangesNothing :
    (MayReadCtr on ∧ (Config.privCheck = .accesses → ¬ MayReadCtr lowRequester)) ∧
      Narrow.b8.toSize.alignedTo (BitVec.setWidth 32 (3 : BitVec 2)) = true ∧
      Narrow.b16.toSize.alignedTo (BitVec.setWidth 32 (2 : BitVec 2)) = true ∧
      Narrow.b16.toSize.alignedTo (BitVec.setWidth 32 (0 : BitVec 2)) = true :=
  ⟨⟨.inl rfl, test_wit_may.2.2⟩, by decide⟩

theorem test_wit_OnlyWordWritesChangeThePage :
    ∃ t, exec (.ctrWr32 0x0002A905) State.reset = .next t ∧
      pcacheaddr t ≠ pcacheaddr State.reset ∧ enabled t ≠ enabled State.reset := by
  obtain ⟨t, h, ht⟩ := next_of_passes
    (show passes (exec (.ctrWr32 0x0002A905) State.reset) (fun t =>
      pcacheaddr t != pcacheaddr State.reset && enabled t != enabled State.reset) = true by decide)
  exact ⟨t, h, by simpa using ht⟩

/-- A write, and a read with an effect. -/
theorem test_wit_OnlyWritesAndReadEffectsChangeMemory :
    let s : State := { on with readEffects := [{ port := .ahbm, addr := 0x2AA00000, bytes := [(0x2AA00000, 1)] }] }
    (on.readEffects = [] ∧ ∃ t, exec (.writeOther .b8 false 0x2AA00000 1) on = .next t ∧ t.mem ≠ on.mem) ∧
    ∃ t, exec (.dread .b8 false 0x2AA00000) s = .next t ∧ readByte t.mem 0x2AA00000 ≠ readByte s.mem 0x2AA00000 := by
  intro s
  obtain ⟨t, h, ht⟩ := next_of_passes
    (show passes (exec (.writeOther .b8 false 0x2AA00000 1) on) (fun t => t.mem != on.mem) = true by decide)
  obtain ⟨u, h', hu⟩ := next_of_passes
    (show passes (exec (.dread .b8 false 0x2AA00000) s)
      (fun t => readByte t.mem 0x2AA00000 != readByte s.mem 0x2AA00000) = true by decide)
  exact ⟨⟨rfl, t, h, by simpa using ht⟩, u, h', by simpa using hu⟩

/-- A line hit, and the fourth beat of a refill into a line that was not the last used. -/
theorem test_wit_OnlyUsesChangeRecency :
    (∃ t, exec (.ifetchCHitl 0x2A9BA6E4) withLine = .next t ∧ t.lru ≠ withLine.lru) ∧
    ∃ t, exec .refillBeat (touch 5 after3) = .next t ∧ t.lru ≠ (touch 5 after3).lru := by
  obtain ⟨t, h, ht⟩ := next_of_passes
    (show passes (exec (.ifetchCHitl 0x2A9BA6E4) withLine) (fun t => t.lru != withLine.lru) = true by decide)
  obtain ⟨u, h', hu⟩ := next_of_passes
    (show passes (exec .refillBeat (touch 5 after3)) (fun t => t.lru != (touch 5 after3).lru) = true by decide)
  exact ⟨⟨t, h, by simpa using ht⟩, u, h', by simpa using hu⟩

theorem test_wit_PowerChangeIsRefused : (arriving [.powerOrClockChange]).inputs = .powerOrClockChange :: [] := rfl

end Sys2Proof.Tests
end

namespace Sys2Proof.Machine

/-! ### Each class that waits for the memory, as the shared operation that it runs -/

/-- An instruction whose arm is guarded by its class does what the class does where R86's row holds. -/
theorem exec_of_admits {i : Instr} {s : State} (effect : State → Result)
    (arm : exec i s = inClass i s effect) (h : (view s).admits i = true) : exec i s = effect s :=
  arm.trans (inClass_of_admits effect h)

theorem exec_dread (sz : Size) (c : Bool) (a : Word) (s : State) :
    exec (.dread sz c a) s = forwardRead sz a (noteNotQualifying s) := rfl

theorem exec_ifetchNc_of_admits {sz : Size} {c : Bool} {a : Word} {s : State}
    (h : (view s).admits (.ifetchNc sz c a) = true) :
    exec (.ifetchNc sz c a) s = forwardRead sz a (noteNotQualifying s) :=
  exec_of_admits (fun s => forwardRead sz a (noteNotQualifying s)) rfl h

theorem exec_ifetchCFirst_of_admits {a : Word} {s : State} (h : (view s).admits (.ifetchCFirst a) = true) :
    exec (.ifetchCFirst a) s = forwardRead .b32 a (setPrimed true s) :=
  exec_of_admits (fun s => forwardRead .b32 a (setPrimed true s)) rfl h

theorem admits_writeOther_iff {sz : Size} {c : Bool} {a d : Word} {s : State} :
    (view s).admits (.writeOther sz c a d) = true ↔ pageOf a ≠ pcacheaddr s := by
  simp [View.admits, view]

theorem admits_writePage_iff {sz : Size} {c : Bool} {a d : Word} {s : State} :
    (view s).admits (.writePage sz c a d) = true ↔ pageOf a = pcacheaddr s := by
  simp [View.admits, view]

theorem exec_writeOther_of_ne {sz : Size} {c : Bool} {a d : Word} {s : State} (h : pageOf a ≠ pcacheaddr s) :
    exec (.writeOther sz c a d) s = forwardWrite sz a d id (noteNotQualifying s) :=
  exec_of_admits (fun s => forwardWrite sz a d id (noteNotQualifying s)) rfl (admits_writeOther_iff.2 h)

theorem exec_writePage_of_eq {sz : Size} {c : Bool} {a d : Word} {s : State} (h : pageOf a = pcacheaddr s) :
    exec (.writePage sz c a d) s =
      forwardWrite sz a d (fun t => if writeDetectActive t then flush t else t) (noteNotQualifying s) :=
  exec_of_admits
    (fun s => forwardWrite sz a d (fun t => if writeDetectActive t then flush t else t) (noteNotQualifying s))
    rfl (admits_writePage_iff.2 h)

theorem exec_ifetchCMiss_of_admits {a : Word} {s : State} (h : (view s).admits (.ifetchCMiss a) = true) :
    exec (.ifetchCMiss a) s = beat (startRefill a s) :=
  exec_of_admits (fun s => beat (startRefill a s)) rfl h

theorem exec_refillBeat (s : State) : exec .refillBeat s = beat s := rfl

theorem exec_refillErr_of_refill {s : State} {r : Refill} (hr : s.refill = some r) :
    exec .refillErr s = failBeat r s := by
  change execRefillErr s = _
  simp only [execRefillErr, hr]

theorem waitForBeat_of_refill {s : State} {r : Refill} (bs : List Byte) (hr : s.refill = some r) :
    waitForBeat bs s = beat (setInputs (.transfer bs :: s.inputs) s) := by
  simp only [waitForBeat, hr]

/-- During a refill a buffer hit on a quarter that has not arrived performs the next beat, the fetch put
back (R126). -/
theorem exec_ifetchCHitb_of_not_arrived {a : Word} {s : State} {r : Refill} (hr : s.refill = some r)
    (h : (view s).admits (.ifetchCHitb a) = true) (hq : arrivedAt s.buf.arrived (quarterOf a) = false) :
    exec (.ifetchCHitb a) s = beat (setInputs (.transfer (fetchBytes a) :: s.inputs) s) := by
  have arm : exec (.ifetchCHitb a) s = inClass (.ifetchCHitb a) s fun s =>
      if arrivedAt s.buf.arrived (quarterOf a) then
        .next (touchMatching (indexOf a) (respond (.okayData .b32 (segAt s.buf.seg (segOf a))) s))
      else waitForBeat (fetchBytes a) s := rfl
  rw [exec_of_admits _ arm h, if_neg (by simp [hq]), waitForBeat_of_refill _ hr]

/-! ### The record of a miss -/

theorem refill_startRefill_eq_missRefill (a : Word) (s : State) :
    (startRefill a s).refill = some (missRefill s a) := rfl

/-- R144: the first beat of a miss reads the quarter that the fetch points to. -/
theorem beatAddr_missRefill (a : Word) (s : State) :
    beatAddr (missRefill s a) = quarterAddr (blockBase a) (quarterOf a) := by
  simp [beatAddr, beatQuarter, missRefill]

/-! ### The shared operations when the memory is silent or fails a beat -/

@[simp] theorem answerTo_noteNotQualifying (s : State) (p : Port) (wr : Bool) (a : Word) :
    answerTo (noteNotQualifying s) p wr a = answerTo s p wr a := rfl

theorem forwardRead_silent {s : State} {a : Word} (sz : Size) (h : answerTo s .ahbm false a = some .silent) :
    forwardRead sz a s = .fault .memoryNeverAnswers := by
  simp only [forwardRead, h]

theorem forwardWrite_silent {s : State} {a : Word} (sz : Size) (d : Word) (before : State → State)
    (h : answerTo s .ahbm true a = some .silent) :
    forwardWrite sz a d before s = .fault .memoryNeverAnswers := by
  simp only [forwardWrite, h]

theorem beat_silent {s : State} {r : Refill} (hr : s.refill = some r)
    (h : answerTo s .axim false (beatAddr r) = some .silent) : beat s = .fault .memoryNeverAnswers := by
  simp only [beat, hr, h]

theorem beat_error {s : State} {r : Refill} (hr : s.refill = some r)
    (h : answerTo s .axim false (beatAddr r) = some .error) : beat s = failBeat r s := by
  simp only [beat, hr, h]

/-- A failing first beat is stuck where the fetch is repeated on AHBM and the repeat is never answered (D17):
the failure leaves the memory's answers as they were. -/
theorem failBeat_repeat_silent {s : State} {r : Refill} (hd : r.done = 0)
    (hc : Config.errorResponse = .retryNoncacheable)
    (h : answerTo s .ahbm false (missAddr r) = some .silent) :
    failBeat r s = .fault .memoryNeverAnswers := by
  rw [failBeat_eq]
  simp only [hd, if_true, hc]
  exact forwardRead_silent _ h

/-! ### The obligation -/

/-- Settles O19: each class that waits runs one of `forwardRead`, `forwardWrite`, `beat` and `failBeat`, and
what it does before leaves the memory's answers as they were. -/
theorem silentMemoryIsStuck : Obligations.SilentMemoryIsStuck := by
  refine ⟨?reads, ?writes, ?miss, ?beats, ?repeatOfMiss, ?repeatOfEvent⟩
  case reads =>
    intro s sz c a h
    refine ⟨?_, fun hnc => ?_, fun hfirst => ?_⟩
    · rw [exec_dread]
      exact forwardRead_silent sz h
    · rw [exec_ifetchNc_of_admits hnc]
      exact forwardRead_silent sz h
    · rw [exec_ifetchCFirst_of_admits hfirst]
      exact forwardRead_silent .b32 h
  case writes =>
    intro s sz c a d h
    refine ⟨fun hne => ?_, fun heq => ?_⟩
    · rw [exec_writeOther_of_ne hne]
      exact forwardWrite_silent sz d _ h
    · rw [exec_writePage_of_eq heq]
      exact forwardWrite_silent sz d _ h
  case miss =>
    intro s a hmiss h
    rw [exec_ifetchCMiss_of_admits hmiss]
    exact beat_silent (refill_startRefill_eq_missRefill a s) (by simpa [beatAddr_missRefill] using h)
  case beats =>
    intro s r hr h
    refine ⟨beat_silent hr h, fun a hhit hq => ?_⟩
    rw [exec_ifetchCHitb_of_not_arrived hr hhit hq]
    exact beat_silent hr h
  case repeatOfMiss =>
    intro s a hmiss herr hc h
    have hfail : exec (.ifetchCMiss a) s = failBeat (missRefill s a) (startRefill a s) := by
      rw [exec_ifetchCMiss_of_admits hmiss]
      exact beat_error (refill_startRefill_eq_missRefill a s) (by simpa [beatAddr_missRefill] using herr)
    rw [hfail]
    exact failBeat_repeat_silent rfl hc h
  case repeatOfEvent =>
    intro s r hr hd hc h
    rw [exec_refillErr_of_refill hr]
    exact failBeat_repeat_silent hd hc h

end Sys2Proof.Machine

namespace Sys2Proof.Machine

/-! ### Changes that leave the cache as it is, and changes that leave nothing valid -/

/-- `t` has the cache of `s`, and a memory in canonical form if `s` has: what answers, port accesses, reads'
effects and changes of the surroundings have in common. -/
structure CacheKept (s t : State) : Prop where
  cache : SameCache s t
  mem_wf : Memory.wf s.mem → Memory.wf t.mem

theorem CacheKept.refl (s : State) : CacheKept s s := ⟨⟨rfl, rfl, rfl, rfl, rfl⟩, id⟩

theorem CacheKept.trans {s t u : State} (h : CacheKept s t) (h' : CacheKept t u) : CacheKept s u := by
  obtain ⟨⟨hctr, hlines, hbuf, hlru, hrefill⟩, hmem⟩ := h
  obtain ⟨⟨hctr', hlines', hbuf', hlru', hrefill'⟩, hmem'⟩ := h'
  exact ⟨⟨hctr'.trans hctr, hlines'.trans hlines, hbuf'.trans hbuf, hlru'.trans hlru,
    hrefill'.trans hrefill⟩, hmem' ∘ hmem⟩

theorem cacheKept_emit (e : PortEvent) (s : State) : CacheKept s (emit e s) :=
  ⟨⟨rfl, rfl, rfl, rfl, rfl⟩, id⟩

theorem cacheKept_respond (r : Resp) (s : State) : CacheKept s (respond r s) := cacheKept_emit _ s

theorem cacheKept_setPrimed (b : Bool) (s : State) : CacheKept s (setPrimed b s) :=
  ⟨⟨rfl, rfl, rfl, rfl, rfl⟩, id⟩

theorem cacheKept_setInputs (xs : List Input) (s : State) : CacheKept s (setInputs xs s) :=
  ⟨⟨rfl, rfl, rfl, rfl, rfl⟩, id⟩

theorem cacheKept_redraw (s : State) : CacheKept s (redraw s) := ⟨⟨rfl, rfl, rfl, rfl, rfl⟩, id⟩

theorem cacheKept_setMem {m : List Host.Cell} {s : State} (hm : Memory.wf s.mem → Memory.wf m) :
    CacheKept s (setMem m s) := ⟨⟨rfl, rfl, rfl, rfl, rfl⟩, hm⟩

theorem cacheKept_takeEffect (p : Port) (a : Word) (s : State) : CacheKept s (takeEffect p a s) :=
  cacheKept_setMem fun hm => memAfterRead_wf hm p a

/-- `t` has ART_CTR and the recency order of `s`, nothing valid and no refill in progress, and a memory in
canonical form if `s` has: what an invalidating event leaves (R161, R149). -/
structure CacheDropped (s t : State) : Prop where
  artCtr : t.artCtr = s.artCtr
  lru : t.lru = s.lru
  nothingValid : NothingValid t
  refill : t.refill = none
  mem_wf : Memory.wf s.mem → Memory.wf t.mem

theorem cacheDropped_flush (s : State) : CacheDropped s (flush s) :=
  ⟨rfl, rfl, flush_nothingValid s, rfl, id⟩

theorem nothingValid_congr {s t : State} (hlines : t.lines = s.lines) (hbuf : t.buf = s.buf)
    (h : NothingValid s) : NothingValid t :=
  ⟨fun i => by rw [line_congr hlines]; exact h.1 i, by rw [hbuf]; exact h.2⟩

theorem CacheDropped.trans_kept {s t u : State} (h : CacheDropped s t) (h' : CacheKept t u) :
    CacheDropped s u := by
  obtain ⟨⟨hctr, hlines, hbuf, hlru, hrefill⟩, hmem⟩ := h'
  exact ⟨hctr.trans h.artCtr, hlru.trans h.lru, nothingValid_congr hlines hbuf h.nothingValid,
    hrefill.trans h.refill, hmem ∘ h.mem_wf⟩

theorem CacheKept.trans_dropped {s t u : State} (h : CacheKept s t) (h' : CacheDropped t u) :
    CacheDropped s u := by
  obtain ⟨⟨hctr, -, -, hlru, -⟩, hmem⟩ := h
  exact ⟨h'.artCtr.trans hctr, h'.lru.trans hlru, h'.nothingValid, h'.refill, h'.mem_wf ∘ hmem⟩

/-! ### What an instruction can do to the cache -/

/-- The effects of an instruction on ART_CTR, the lines, the buffer, the recency order and the refill, in the
states before and after. A change of the memory, the trace, `primed` or the inputs is not described. -/
inductive ExecEffect (s t : State) : Instr → Prop
  /-- Forwarded, answered without effect, or put back. -/
  | kept {i : Instr} (h : CacheKept s t) : ExecEffect s t i
  /-- Everything flagged invalid (R161), by a write to the page, a refill error or the event itself. -/
  | dropped {i : Instr} (h : CacheDropped s t) : ExecEffect s t i
  /-- A use of a line (R125). -/
  | used {i : Instr} (j : LineNo) (h : CacheKept (touch j s) t) : ExecEffect s t i
  /-- A line hit (R121). -/
  | copied (a : Word) (j : LineNo) (hj : (line s j).valid = true)
      (h : CacheKept (touch j (copyLine j s)) t) : ExecEffect s t (.ifetchCHitl a)
  /-- A beat of the refill in progress, answered with data (R143). -/
  | beat {i : Instr} (r : Refill) (d : DWord) (u : State) (hr : s.refill = some r) (hu : CacheKept s u)
      (ht : t = takeBeat r d u) : ExecEffect s t i
  /-- A miss whose first beat is answered with data (R140). -/
  | missed (a : Word) (d : DWord) (u : State) (ha : (view s).admits (.ifetchCMiss a) = true)
      (hu : CacheKept (startRefill a s) u) (ht : t = takeBeat (missRefill s a) d u) :
      ExecEffect s t (.ifetchCMiss a)
  /-- A word write of ART_CTR, the cache as it was or with nothing valid (R181). -/
  | ctrWritten (w : Word) (page : Page) (en : Bool) (u : State) (hmay : MayWriteCtr s)
      (hu : CacheKept s u ∨ CacheDropped s u)
      (ht : CacheKept { u with artCtr := ctrWord page en } t) : ExecEffect s t (.ctrWr32 w)
  /-- A narrow write of ART_CTR over byte 0 whose effect is not stated (R182, D6). -/
  | enWritten (n : Narrow) (d : Word) (en : Bool) (hmay : MayWriteCtr s)
      (hcfg : Config.narrowCtrAccess = .unstated)
      (ht : CacheKept { s with artCtr := ctrWord (pcacheaddr s) en } t) : ExecEffect s t (.ctrWrn 0 n d)
  /-- The reset (R230). -/
  | reset (ht : t = resetArt s) : ExecEffect s t .reset

/-! ### The shared operations -/

theorem forwardRead_kept {sz : Size} {a : Word} {s t : State} (h : forwardRead sz a s = .next t) :
    CacheKept s t := by
  obtain ⟨v, r, rfl, -⟩ := forwardRead_cases h
  exact ((cacheKept_takeEffect .ahbm a s).trans (cacheKept_emit _ _)).trans (cacheKept_respond _ _)

theorem noteNotQualifying_kept (s : State) : CacheKept s (noteNotQualifying s) := by
  rw [noteNotQualifying_eq]
  exact cacheKept_setPrimed _ s

/-- A forwarded write changes the cache by what its class does before it answers, if anything. -/
theorem forwardWrite_before {sz : Size} {a d : Word} {f : State → State} {s t : State}
    (h : forwardWrite sz a d f s = .next t) : ∃ u, CacheKept s u ∧ CacheKept (f u) t := by
  obtain ⟨m, ok, hm, rfl⟩ := forwardWrite_cases h
  have hwf : Memory.wf s.mem → Memory.wf m := by
    intro hs
    obtain rfl | rfl := hm
    · exact hs
    · exact storeAt_wf hs a d sz
  exact ⟨_, (cacheKept_setMem hwf).trans (cacheKept_emit _ _), cacheKept_respond _ _⟩

theorem readAccess_kept {sz : Size} {v : Word} {s t : State} (h : readAccess sz v s = .next t) :
    CacheKept s t := by
  obtain rfl := Host.Outcome.next.inj h
  exact cacheKept_respond _ s

theorem failBeat_dropped {r : Refill} {s t : State} (h : failBeat r s = .next t) : CacheDropped s t := by
  obtain ⟨ht, -⟩ := failBeat_cases h
  have hflush := cacheDropped_flush s
  refine ⟨?_, ?_, ?_, ?_, fun hm => failBeat_wf hm h⟩ <;> rw [ht]
  · exact hflush.artCtr
  · exact hflush.lru
  · exact nothingValid_congr rfl rfl hflush.nothingValid
  · exact hflush.refill

/-- A beat takes its data from the memory, or everything is flagged invalid. -/
theorem beat_effect {s t : State} (h : beat s = .next t) :
    CacheDropped s t ∨ ∃ r d u, s.refill = some r ∧ CacheKept s u ∧ t = takeBeat r d u := by
  obtain ⟨r, hr, rfl | hfail⟩ := beat_cases h
  · exact .inr ⟨r, _, _, hr, cacheKept_takeEffect _ _ s, rfl⟩
  · exact .inl (failBeat_dropped hfail)

theorem waitForBeat_effect {bs : List Byte} {s t : State} {i : Instr} (h : waitForBeat bs s = .next t) :
    ExecEffect s t i := by
  have hput := cacheKept_setInputs (.transfer bs :: s.inputs) s
  obtain rfl | hbeat := waitForBeat_cases h
  · exact .kept hput
  · obtain hd | ⟨r, d, u, hr, hu, rfl⟩ := beat_effect hbeat
    · exact .dropped (hput.trans_dropped hd)
    · exact .beat r d u hr (hput.trans hu) rfl

/-! ### The classes -/

theorem execWritePage_effect {sz : Size} {c : Bool} {a d : Word} {s t : State} {i : Instr}
    (h : execWritePage sz c a d s = .next t) : ExecEffect s t i := by
  obtain ⟨-, h⟩ := inClass_eq_next h
  obtain ⟨u, hu, ht⟩ := forwardWrite_before h
  have hsu := (noteNotQualifying_kept s).trans hu
  split at ht
  · exact .dropped (hsu.trans_dropped ((cacheDropped_flush u).trans_kept ht))
  · exact .kept (hsu.trans ht)

theorem execWriteOther_kept {sz : Size} {c : Bool} {a d : Word} {s t : State}
    (h : execWriteOther sz c a d s = .next t) : CacheKept s t := by
  obtain ⟨-, h⟩ := inClass_eq_next h
  obtain ⟨u, hu, ht⟩ := forwardWrite_before h
  exact ((noteNotQualifying_kept s).trans hu).trans ht

theorem execIfetchNc_kept {sz : Size} {c : Bool} {a : Word} {s t : State}
    (h : execIfetchNc sz c a s = .next t) : CacheKept s t := by
  obtain ⟨-, h⟩ := inClass_eq_next h
  exact (noteNotQualifying_kept s).trans (forwardRead_kept h)

theorem execIfetchCFirst_kept {a : Word} {s t : State} (h : execIfetchCFirst a s = .next t) :
    CacheKept s t := by
  obtain ⟨-, h⟩ := inClass_eq_next h
  exact (cacheKept_setPrimed true s).trans (forwardRead_kept h)

theorem execIfetchCHitb_effect {a : Word} {s t : State} {i : Instr}
    (h : execIfetchCHitb a s = .next t) : ExecEffect s t i := by
  obtain ⟨-, h⟩ := inClass_eq_next h
  split at h
  · obtain rfl := Host.Outcome.next.inj h
    obtain ⟨j, -, e⟩ | ⟨-, e⟩ := touchMatching_cases (indexOf a)
      (respond (.okayData .b32 (segAt s.buf.seg (segOf a))) s) <;> rw [e]
    · exact .used j ⟨⟨rfl, rfl, rfl, rfl, rfl⟩, id⟩
    · exact .kept (cacheKept_respond _ s)
  · exact waitForBeat_effect h

theorem execIfetchCHitl_effect {a : Word} {s t : State} (h : execIfetchCHitl a s = .next t) :
    ExecEffect s t (.ifetchCHitl a) := by
  obtain ⟨-, h⟩ := inClass_eq_next h
  split at h
  · cases h
  · next j hj =>
    obtain rfl := Host.Outcome.next.inj h
    exact .copied a j (findLine_some hj).1 ⟨⟨rfl, rfl, rfl, rfl, rfl⟩, id⟩

theorem execIfetchCMiss_effect {a : Word} {s t : State} (h : execIfetchCMiss a s = .next t) :
    ExecEffect s t (.ifetchCMiss a) := by
  obtain ⟨ha, h⟩ := inClass_eq_next h
  obtain hd | ⟨r, d, u, hr, hu, rfl⟩ := beat_effect h
  · exact .dropped ⟨hd.artCtr, hd.lru, hd.nothingValid, hd.refill, hd.mem_wf⟩
  · obtain rfl := Option.some.inj ((refill_startRefill_eq_missRefill a s).symm.trans hr)
    exact .missed a d u ha hu rfl

theorem execCtrWr32_effect {w : Word} {s t : State} (h : execCtrWr32 w s = .next t) :
    ExecEffect s t (.ctrWr32 w) := by
  obtain ⟨hmay, h⟩ | ⟨-, rfl⟩ := writeAccess_cases h
  · split at h
    · obtain rfl := Host.Outcome.next.inj h
      obtain ⟨p, u, hu, e⟩ := setCtr_cases (w.extractLsb' 8 12) (w.getLsbD 0) s
      rw [e]
      refine .ctrWritten w _ _ u hmay ?_ ⟨⟨rfl, rfl, rfl, rfl, rfl⟩, id⟩
      obtain rfl | rfl := hu
      · exact .inl (.refl _)
      · exact .inr (cacheDropped_flush s)
    · cases h
  · exact .kept (cacheKept_respond _ s)

theorem execCtrWrn_effect {off : BitVec 2} {n : Narrow} {d : Word} {s t : State}
    (h : execCtrWrn off n d s = .next t) : ExecEffect s t (.ctrWrn off n d) := by
  obtain ⟨hmay, h⟩ | ⟨-, rfl⟩ := writeAccess_cases h
  · obtain rfl := Host.Outcome.next.inj h
    split
    · next hoff =>
      obtain rfl : off = 0 := by simpa [coversByte0] using hoff
      obtain ⟨e, -⟩ | ⟨hcfg, -, e⟩ := narrowWriteEn_cases s <;> rw [e]
      · exact .kept (cacheKept_respond _ s)
      · exact .enWritten n d _ hmay hcfg ⟨⟨rfl, rfl, rfl, rfl, rfl⟩, id⟩
    · exact .kept (cacheKept_respond _ s)
  · exact .kept (cacheKept_respond _ s)

theorem execRefillErr_dropped {s t : State} (h : execRefillErr s = .next t) : CacheDropped s t := by
  unfold execRefillErr at h
  split at h
  · cases h
  · exact failBeat_dropped h

/-- What each instruction can do to the cache, said once. -/
theorem exec_effect {i : Instr} {s t : State} (h : exec i s = .next t) : ExecEffect s t i := by
  cases i with
  | txnRefused sz c a d => cases h
  | writePage sz c a d => exact execWritePage_effect h
  | writeOther sz c a d => exact .kept (execWriteOther_kept h)
  | dread sz c a => exact .kept ((noteNotQualifying_kept s).trans (forwardRead_kept h))
  | ifetchNc sz c a => exact .kept (execIfetchNc_kept h)
  | ifetchCFirst a => exact .kept (execIfetchCFirst_kept h)
  | ifetchCHitb a => exact execIfetchCHitb_effect h
  | ifetchCHitl a => exact execIfetchCHitl_effect h
  | ifetchCMiss a => exact execIfetchCMiss_effect h
  | ctrRd32 => exact .kept (readAccess_kept h)
  | ctrWr32 w => exact execCtrWr32_effect h
  | ctrWrn off n d => exact execCtrWrn_effect h
  | ctrRdn off n => exact .kept (readAccess_kept h)
  | regOther write sz off d => cases h
  | refillBeat =>
    obtain hd | ⟨r, d, u, hr, hu, ht⟩ := beat_effect h
    · exact .dropped hd
    · exact .beat r d u hr hu ht
  | refillErr => exact .dropped (execRefillErr_dropped h)
  | invalidateAll =>
    obtain rfl := Host.Outcome.next.inj h
    exact .dropped (cacheDropped_flush s)
  | reset => exact .reset (Host.Outcome.next.inj h).symm

/-! ### The invariants under changes of the cache -/

theorem Inv.of_kept {s t : State} (hs : Inv s) (h : CacheKept s t) : Inv t := by
  obtain ⟨hctr, htags, hbuf, hrefill, hlru, hmem⟩ := hs
  obtain ⟨⟨ectr, elines, ebuf, elru, erefill⟩, hwf⟩ := h
  have eline := line_congr elines
  refine ⟨?_, ?_, ?_, ?_, ?_, hwf hmem⟩
  · simpa only [ReservedBitsKept, ectr] using hctr
  · simpa only [LineTagsDistinct, eline] using htags
  · simpa only [BufferHasSource, eline, ebuf, erefill] using hbuf
  · simpa only [RefillConsistent, eline, ebuf, erefill] using hrefill
  · simpa only [RecencyIsOrder, elru] using hlru

/-- With nothing valid and no refill the invariants of R38.1 to R38.3 have nothing to say. -/
theorem inv_of_nothingValid {s : State} (hctr : ReservedBitsKept s) (hn : NothingValid s)
    (hr : s.refill = none) (hlru : RecencyIsOrder s) (hmem : Memory.wf s.mem) : Inv s := by
  obtain ⟨hlines, hbuf⟩ := hn
  refine ⟨hctr, ?_, ?_, ?_, hlru, hmem⟩
  · intro i j hi
    simp [hlines i] at hi
  · intro _ hv
    simp [hbuf] at hv
  · intro r hr'
    simp [hr] at hr'

theorem Inv.of_dropped {s t : State} (hs : Inv s) (h : CacheDropped s t) : Inv t := by
  obtain ⟨hctr, -, -, -, hlru, hmem⟩ := hs
  refine inv_of_nothingValid ?_ h.nothingValid h.refill ?_ (h.mem_wf hmem)
  · simpa only [ReservedBitsKept, h.artCtr] using hctr
  · simpa only [RecencyIsOrder, h.lru] using hlru

theorem Inv.touch {s : State} (hs : Inv s) (i : LineNo) : Inv (touch i s) := by
  obtain ⟨hctr, htags, hbuf, hrefill, hlru, hmem⟩ := hs
  exact ⟨hctr, htags, hbuf, hrefill, touch_recencyIsOrder i hlru, hmem⟩

/-- A valid line copied to the buffer is the buffer's source, as long as no refill fills the buffer. -/
theorem Inv.copyLine {s : State} (hs : Inv s) (hr : s.refill = none) {i : LineNo}
    (hi : (line s i).valid = true) : Inv (copyLine i s) := by
  obtain ⟨hctr, htags, -, -, hlru, hmem⟩ := hs
  refine ⟨hctr, htags, ?_, ?_, hlru, hmem⟩
  · intro _ _
    exact ⟨⟨i, hi, rfl, rfl⟩, fun j => arrivedAt_replicate true j⟩
  · intro r hr'
    simp [hr] at hr'

/-- ART_CTR written with its two fields keeps the reserved bits. -/
theorem Inv.setCtrWord {s : State} (hs : Inv s) (page : Page) (en : Bool) :
    Inv { s with artCtr := ctrWord page en } := by
  obtain ⟨-, htags, hbuf, hrefill, hlru, hmem⟩ := hs
  exact ⟨keepsReserved_ctrWord page en, htags, hbuf, hrefill, hlru, hmem⟩

theorem keepsReserved_resetValue : keepsReserved 0x00000004 = true := by decide

theorem resetArt_nothingValid (s : State) : NothingValid (resetArt s) :=
  ⟨fun i => by rw [line_resetArt]; rfl, rfl⟩

theorem Inv.resetArt {s : State} (hs : Inv s) : Inv (resetArt s) := by
  obtain ⟨-, -, -, -, hlru, hmem⟩ := hs
  refine inv_of_nothingValid keepsReserved_resetValue (resetArt_nothingValid s) rfl ?_ hmem
  exact foldl_touch_recencyIsOrder (Config.resetUses s.tick) hlru

/-! ### A beat -/

/-- What a beat of the refill `r` finds, the first beat among them: R38.3 for the lines and the buffer, which
is valid from the first beat on. -/
structure BeatReady (r : Refill) (s : State) : Prop where
  tags : LineTagsDistinct s
  buf_index : s.buf.index = indexOf r.base
  victim_invalid : (line s r.victim).valid = false
  arrived_iff : ∀ j : BitVec 2, arrivedAt s.buf.arrived j = true ↔ (j - r.j0).toNat < r.done.val
  base_aligned : blockBase r.base = r.base
  victim_index : (line s r.victim).index = s.buf.index
  segs_agree : ∀ k : BitVec 3, arrivedAt s.buf.arrived (quarterOfSeg k) = true →
    segAt s.buf.seg k = segAt (line s r.victim).seg k
  index_fresh : ∀ i : LineNo, (line s i).valid = true → (line s i).index ≠ s.buf.index
  buf_valid : r.done = 0 ∨ s.buf.valid = true

theorem BeatReady.of_kept {r : Refill} {s t : State} (hs : BeatReady r s) (h : CacheKept s t) :
    BeatReady r t := by
  obtain ⟨⟨-, elines, ebuf, -, -⟩, -⟩ := h
  have eline := line_congr elines
  obtain ⟨htags, hidx, hvict, harr, hbase, hvidx, hsegs, hfresh, hvalid⟩ := hs
  refine ⟨by simpa only [LineTagsDistinct, eline] using htags, ?_, ?_, ?_, hbase, ?_, ?_, ?_, ?_⟩ <;>
    simpa only [eline, ebuf]

theorem beatReady_of_inv {r : Refill} {s : State} (hs : Inv s) (hr : s.refill = some r) : BeatReady r s := by
  obtain ⟨-, htags, -, hrefill, -, -⟩ := hs
  obtain ⟨hidx, hvict, harr, hbase, hvidx, hsegs, hfresh, -, hvalid⟩ := hrefill r hr
  exact ⟨htags, hidx, hvict, harr, hbase, hvidx, hsegs, hfresh, .inr hvalid⟩

/-- R86: no valid line holds the index of a miss. -/
theorem index_ne_of_admits_miss {a : Word} {s : State} (h : (view s).admits (.ifetchCMiss a) = true)
    (i : LineNo) (hi : (line s i).valid = true) : (line s i).index ≠ indexOf a := by
  intro hx
  have hmem : indexOf a ∈ validTags s := mem_validTags.2 ⟨i, hi, hx⟩
  simp [View.admits, hmem] at h

/-- After the eviction (R140) a valid line is a line that was valid, and not the victim. -/
theorem startRefill_valid {a : Word} {s : State} {i : LineNo} (h : (line (startRefill a s) i).valid = true) :
    line (startRefill a s) i = line s i ∧ (line s i).valid = true := by
  by_cases hi : i = victim s
  · subst hi
    simp at h
  · have e := line_startRefill_ne a s hi
    exact ⟨e, e ▸ h⟩

/-- A miss makes the state ready for its first beat. -/
theorem beatReady_startRefill {a : Word} {s : State} (htags : LineTagsDistinct s)
    (ha : (view s).admits (.ifetchCMiss a) = true) : BeatReady (missRefill s a) (startRefill a s) where
  tags i j hi hj hx := by
    obtain ⟨ei, hi⟩ := startRefill_valid hi
    obtain ⟨ej, hj⟩ := startRefill_valid hj
    rw [ei, ej] at hx
    exact htags i j hi hj hx
  buf_index := (indexOf_blockBase a).symm
  victim_invalid := congrArg Line.valid (line_startRefill_victim a s)
  arrived_iff j := by simp [missRefill]
  base_aligned := blockBase_blockBase a
  victim_index := congrArg Line.index (line_startRefill_victim a s)
  segs_agree k hk := by simp at hk
  index_fresh i hi := by
    obtain ⟨ei, hi⟩ := startRefill_valid hi
    rw [ei]
    exact index_ne_of_admits_miss ha i hi
  buf_valid := .inl rfl

/-- Counted from the first quarter of the burst, the quarter of the next beat is the number of beats done. -/
theorem sub_eq_done_iff (r : Refill) (j : BitVec 2) : (j - r.j0).toNat = r.done.val ↔ j = beatQuarter r := by
  have hd := r.done.isLt
  have hq : (BitVec.ofNat 2 r.done.val).toNat = r.done.val := by
    rw [BitVec.toNat_ofNat]
    omega
  have hsub : (j - r.j0).toNat = r.done.val ↔ j - r.j0 = BitVec.ofNat 2 r.done.val := by
    rw [← BitVec.toNat_inj, hq]
  rw [hsub, beatQuarter, BitVec.sub_eq_iff_eq_add, BitVec.add_comm]

/-- After a beat the marked quarters are those of the beats done, this one included. -/
theorem BeatReady.takeBeat_arrived_iff {r : Refill} {s : State} (hs : BeatReady r s) (d : DWord)
    (j : BitVec 2) :
    arrivedAt (takeBeat r d s).buf.arrived j = true ↔ (j - r.j0).toNat < r.done.val + 1 := by
  rw [takeBeat_buf, Nat.lt_succ_iff_lt_or_eq, sub_eq_done_iff, ← hs.arrived_iff]
  simp [arrivedAt_markArrived]

/-- After a beat the buffer and the victim agree on every marked quarter, this one included. -/
theorem BeatReady.takeBeat_segs_agree {r : Refill} {s : State} (hs : BeatReady r s) (d : DWord)
    (k : BitVec 3) (hk : arrivedAt (takeBeat r d s).buf.arrived (quarterOfSeg k) = true) :
    segAt (takeBeat r d s).buf.seg k = segAt (line (takeBeat r d s) r.victim).seg k := by
  simp only [takeBeat_buf, arrivedAt_markArrived] at hk
  simp only [takeBeat_buf, takeBeat_line_victim, segAt_putBeat]
  by_cases hq : quarterOfSeg k = beatQuarter r
  · simp only [hq, if_true]
  · simp only [if_neg hq]
    exact hs.segs_agree k (by simpa [hq] using hk)

/-- A line valid after a beat is the victim after the last beat, or was valid and is as it was. -/
theorem BeatReady.takeBeat_valid {r : Refill} {s : State} (hs : BeatReady r s) (d : DWord) {i : LineNo}
    (h : (line (takeBeat r d s) i).valid = true) :
    i = r.victim ∧ r.done = 3 ∨ line (takeBeat r d s) i = line s i ∧ (line s i).valid = true := by
  by_cases hi : i = r.victim
  · subst hi
    rw [takeBeat_line_victim] at h
    exact .inl ⟨rfl, by simpa [hs.victim_invalid] using h⟩
  · have e := takeBeat_line_ne r d s hi
    exact .inr ⟨e, e ▸ h⟩

theorem BeatReady.takeBeat_victim_index {r : Refill} {s : State} (hs : BeatReady r s) (d : DWord) :
    (line (takeBeat r d s) r.victim).index = s.buf.index := by
  rw [takeBeat_line_victim]
  exact hs.victim_index

theorem BeatReady.takeBeat_tags {r : Refill} {s : State} (hs : BeatReady r s) (d : DWord) :
    LineTagsDistinct (takeBeat r d s) := by
  intro i j hi hj hx
  obtain ⟨rfl, -⟩ | ⟨ei, hi⟩ := hs.takeBeat_valid d hi <;>
    obtain ⟨rfl, -⟩ | ⟨ej, hj⟩ := hs.takeBeat_valid d hj
  · rfl
  · rw [hs.takeBeat_victim_index, ej] at hx
    exact absurd hx.symm (hs.index_fresh j hj)
  · rw [hs.takeBeat_victim_index, ei] at hx
    exact absurd hx (hs.index_fresh i hi)
  · rw [ei, ej] at hx
    exact hs.tags i j hi hj hx

/-- After the last beat the buffer is whole and a copy of the line just completed (R146). -/
theorem BeatReady.takeBeat_bufferHasSource {r : Refill} {s : State} (hs : BeatReady r s) (d : DWord) :
    BufferHasSource (takeBeat r d s) := by
  intro hr _
  have h3 : r.done = 3 := by
    rw [takeBeat_refill] at hr
    by_contra h3
    simp [h3] at hr
  have hwhole : ∀ j, arrivedAt (takeBeat r d s).buf.arrived j = true := fun j => by
    rw [hs.takeBeat_arrived_iff, h3]
    exact (j - r.j0).isLt
  refine ⟨⟨r.victim, ?_, ?_, ?_⟩, hwhole⟩
  · simp [takeBeat_line_victim, h3]
  · rw [hs.takeBeat_victim_index, takeBeat_buf]
  · exact seg_ext fun k => (hs.takeBeat_segs_agree d k (hwhole _)).symm

/-- After any other beat the refill is consistent, with one more beat done. -/
theorem BeatReady.takeBeat_refillConsistent {r : Refill} {s : State} (hs : BeatReady r s) (d : DWord) :
    RefillConsistent (takeBeat r d s) := by
  intro r' hr'
  have h3 : r.done ≠ 3 := by
    intro h3
    simp [takeBeat_refill, h3] at hr'
  obtain rfl : { r with done := r.done + 1 } = r' := by
    simpa [takeBeat_refill, h3] using hr'
  have hdone : (r.done + 1).val = r.done.val + 1 := Fin.val_add_one_of_lt (Fin.lt_last_iff_ne_last.2 h3)
  have hindex : (takeBeat r d s).buf.index = s.buf.index := by rw [takeBeat_buf]
  refine ⟨hindex.trans hs.buf_index, ?_, ?_, hs.base_aligned, ?_, hs.takeBeat_segs_agree d, ?_, ?_, ?_⟩
  · simp [takeBeat_line_victim, hs.victim_invalid, h3]
  · intro j
    rw [hs.takeBeat_arrived_iff, hdone]
  · rw [hindex]
    exact hs.takeBeat_victim_index d
  · intro i hi
    obtain ⟨-, h⟩ | ⟨ei, hi⟩ := hs.takeBeat_valid d hi
    · exact absurd h h3
    · rw [ei, hindex]
      exact hs.index_fresh i hi
  · intro h0
    rw [show r.done + 1 = 0 from h0] at hdone
    cases hdone
  · rw [takeBeat_buf]
    simpa [or_comm] using hs.buf_valid

/-- A beat answered with data establishes the invariants where it finds what it needs. -/
theorem BeatReady.inv_takeBeat {r : Refill} {s : State} (hs : BeatReady r s) (hctr : ReservedBitsKept s)
    (hlru : RecencyIsOrder s) (hmem : Memory.wf s.mem) (d : DWord) : Inv (takeBeat r d s) := by
  refine ⟨?_, hs.takeBeat_tags d, hs.takeBeat_bufferHasSource d, hs.takeBeat_refillConsistent d, ?_, ?_⟩
  · simpa only [ReservedBitsKept, takeBeat_artCtr] using hctr
  · unfold RecencyIsOrder
    rw [takeBeat_lru]
    split
    · exact touch_recencyIsOrder r.victim hlru
    · exact hlru
  · rw [takeBeat_mem]
    exact hmem

/-- The beat's read may have had its effect, and a fetch that waits may have been put back, before its data
are taken. -/
theorem BeatReady.inv_takeBeat_of_kept {r : Refill} {s u : State} (hs : BeatReady r s)
    (hctr : ReservedBitsKept s) (hlru : RecencyIsOrder s) (hmem : Memory.wf s.mem) (hu : CacheKept s u)
    (d : DWord) : Inv (takeBeat r d u) := by
  have hready := hs.of_kept hu
  obtain ⟨⟨ectr, -, -, elru, -⟩, hwf⟩ := hu
  exact hready.inv_takeBeat (by simpa only [ReservedBitsKept, ectr] using hctr)
    (by simpa only [RecencyIsOrder, elru] using hlru) (hwf hmem) d

/-! ### Every instruction, and every step -/

/-- Every instruction keeps the invariants, but for a line hit during a refill, which no step runs (R148): it
would write the buffer that the refill fills. -/
theorem exec_inv {i : Instr} {s t : State} (hs : Inv s) (h : exec i s = .next t)
    (hhit : (∃ a, i = .ifetchCHitl a) → s.refill = none) : Inv t := by
  have ⟨hctr, htags, _, _, hlru, hmem⟩ := hs
  cases exec_effect h with
  | kept hk => exact hs.of_kept hk
  | dropped hd => exact hs.of_dropped hd
  | used j hk => exact (hs.touch j).of_kept hk
  | copied a j hj hk => exact ((hs.copyLine (hhit ⟨a, rfl⟩) hj).touch j).of_kept hk
  | beat r d u hr hu ht =>
    subst ht
    exact (beatReady_of_inv hs hr).inv_takeBeat_of_kept hctr hlru hmem hu d
  | missed a d u ha hu ht =>
    subst ht
    exact (beatReady_startRefill htags ha).inv_takeBeat_of_kept hctr hlru hmem hu d
  | ctrWritten w page en u hmay hu hk =>
    have hinv : Inv u := hu.elim hs.of_kept hs.of_dropped
    exact (hinv.setCtrWord page en).of_kept hk
  | enWritten n d en hmay hcfg hk => exact (hs.setCtrWord _ en).of_kept hk
  | reset ht => exact ht ▸ hs.resetArt

theorem nextBeat_ne_ifetchCHitl (r : Refill) (s : State) (a : Word) : nextBeat r s ≠ .ifetchCHitl a := by
  unfold nextBeat
  split <;> nofun

theorem Inv.redraw {s : State} (hs : Inv s) : Inv (redraw s) := hs.of_kept (cacheKept_redraw s)

theorem Inv.setInputs {s : State} (hs : Inv s) (xs : List Input) : Inv (setInputs xs s) :=
  hs.of_kept (cacheKept_setInputs xs s)

/-- How the memory answers, the effects of its reads and the requester's privilege are in no invariant. -/
theorem Inv.setSurroundings {s : State} (hs : Inv s) {rules : List AnswerRule} {effects : List ReadEffect}
    {b : Bool} : Inv { s with answers := rules, readEffects := effects, privileged := b } :=
  hs.of_kept ⟨⟨rfl, rfl, rfl, rfl, rfl⟩, id⟩

/-- Settles O13: a change of the environment keeps the cache or drops it, and every instruction that a step
runs keeps the invariants. -/
theorem stepKeepsInvariants : Obligations.StepKeepsInvariants := by
  intro s t hs h
  obtain ⟨-, -, rfl⟩ | ⟨a, v, rest, -, rfl⟩ | ⟨rules, rest, -, rfl⟩ | ⟨effects, rest, -, rfl⟩ |
    ⟨b, rest, -, rfl⟩ | ⟨rest, -, rfl⟩ | ⟨bs, rest, i, u, -, -, hrefill, hu, rfl⟩ | ⟨r, u, -, hu, rfl⟩ :=
    step_cases h
  · exact hs
  · have hput : Inv (setMem (putByte s.mem a v) (setInputs rest s)) :=
      (hs.setInputs rest).of_kept (cacheKept_setMem fun hm => putByte_wf hm a v)
    split
    · exact (hput.of_dropped (cacheDropped_flush _)).redraw
    · exact hput.redraw
  · exact (hs.setInputs rest).setSurroundings.redraw
  · exact (hs.setInputs rest).setSurroundings.redraw
  · exact (hs.setInputs rest).setSurroundings.redraw
  · exact (hs.setInputs rest).resetArt.redraw
  · refine (exec_inv (hs.setInputs rest) hu ?_).redraw
    rintro ⟨a, rfl⟩
    obtain hnone | ⟨_, hi, -⟩ := hrefill
    · exact hnone
    · cases hi
  · refine (exec_inv hs hu ?_).redraw
    rintro ⟨a, hi⟩
    exact absurd hi (nextBeat_ne_ifetchCHitl r s a)

/-! ### ART_CTR -/

/-- ART_CTR changes only by the reset, by a word write, or in EN by a narrow write over byte 0 whose effect is
not stated; a write is by a requester that may write. -/
theorem exec_artCtr_cases {i : Instr} {s t : State} (h : exec i s = .next t) :
    t.artCtr = s.artCtr ∨ i = .reset ∨ MayWriteCtr s ∧ ((∃ w, i = .ctrWr32 w) ∨
      pcacheaddr t = pcacheaddr s ∧ Config.narrowCtrAccess = .unstated ∧ ∃ n d, i = .ctrWrn 0 n d) := by
  cases exec_effect h with
  | kept hk => exact .inl hk.cache.1
  | dropped hd => exact .inl hd.artCtr
  | used j hk => exact .inl hk.cache.1
  | copied a j hj hk => exact .inl hk.cache.1
  | beat r d u hr hu ht => exact .inl (by rw [ht, takeBeat_artCtr]; exact hu.cache.1)
  | missed a d u ha hu ht => exact .inl (by rw [ht, takeBeat_artCtr]; exact hu.cache.1)
  | ctrWritten w page en u hmay hu hk => exact .inr (.inr ⟨hmay, .inl ⟨w, rfl⟩⟩)
  | enWritten n d en hmay hcfg hk =>
    have hpage : pcacheaddr t = pcacheaddr s :=
      (pcacheaddr_congr hk.cache.1).trans (pcacheaddr_of_ctrWord _ en)
    exact .inr (.inr ⟨hmay, .inr ⟨hpage, hcfg, n, d, rfl⟩⟩)
  | reset ht => exact .inr (.inl rfl)

/-- Settles O55: by the instructions that can change ART_CTR; the narrow write keeps the page index. -/
theorem onlyWordWritesChangeThePage : Obligations.OnlyWordWritesChangeThePage := by
  intro s t i h
  obtain hsame | hreset | ⟨hmay, hword | ⟨hpage, hnarrow⟩⟩ := exec_artCtr_cases h
  · exact ⟨fun hne => absurd (pcacheaddr_congr hsame) hne, fun hne => absurd (enabled_congr hsame) hne⟩
  · exact ⟨fun _ => .inl hreset, fun _ => .inl hreset⟩
  · exact ⟨fun _ => .inr ⟨hmay, hword⟩, fun _ => .inr ⟨hmay, .inl hword⟩⟩
  · exact ⟨fun hne => absurd hpage hne, fun _ => .inr ⟨hmay, .inr hnarrow⟩⟩

/-! ### The state after reset -/

theorem line_reset (i : LineNo) : line State.reset i = Line.reset := by
  simp [line, State.reset]

theorem reset_nothingValid : NothingValid State.reset :=
  ⟨fun i => by rw [line_reset]; rfl, rfl⟩

/-- Settles O10: ART_CTR's fields by evaluation, the validity bits line by line. -/
theorem resetStateHasResetValues : Obligations.ResetStateHasResetValues :=
  ⟨rfl, by decide, by decide, reset_nothingValid, rfl, rfl⟩

/-- Settles O12: nothing is valid after reset, and the recency order is that of the line numbers. -/
theorem resetStateSatisfiesInvariants : Obligations.ResetStateSatisfiesInvariants :=
  inv_of_nothingValid keepsReserved_resetValue reset_nothingValid rfl (List.Perm.refl _)
    ⟨List.Pairwise.nil, nofun⟩

end Sys2Proof.Machine

namespace Sys2Proof.Machine

/-! ### How an instruction changes the memory -/

/-- Effects of reads, in some order, take the memory of `s` to `m`; with none of them `m` is that memory. -/
def ChangedByReads (s : State) (m : List Host.Cell) : Prop :=
  ∃ bs : List (Word × Byte), (∀ b ∈ bs, ∃ e ∈ s.readEffects, b ∈ e.bytes) ∧ m = putBytes s.mem bs

theorem ChangedByReads.refl (s : State) : ChangedByReads s s.mem := ⟨[], nofun, rfl⟩

/-- Which reads have effects, and on what memory, is all that counts of a state. -/
theorem ChangedByReads.of_same {s u : State} {m : List Host.Cell} (h : ChangedByReads u m)
    (hmem : u.mem = s.mem) (heff : u.readEffects = s.readEffects) : ChangedByReads s m := by
  simpa only [ChangedByReads, hmem, heff] using h

theorem ChangedByReads.read {s : State} {m : List Host.Cell} (h : ChangedByReads s m) (p : Port) (a : Word) :
    ChangedByReads s (putBytes m (readEffect s p a)) := by
  obtain ⟨bs, hbs, rfl⟩ := h
  refine ⟨bs ++ readEffect s p a, fun b hb => ?_, (List.foldl_append ..).symm⟩
  obtain hb | hb := List.mem_append.1 hb
  · exact hbs b hb
  · exact mem_readEffect hb

theorem changedByReads_memAfterRead (s : State) (p : Port) (a : Word) :
    ChangedByReads s (memAfterRead s p a) := (ChangedByReads.refl s).read p a

theorem changedByReads_memAfterReads (s : State) (as : List Word) :
    ChangedByReads s (memAfterReads s as) := by
  have from_any : ∀ m, ChangedByReads s m →
      ChangedByReads s (as.foldl (fun m a => putBytes m (readEffect s .axim a)) m) := by
    induction as with
    | nil => exact fun m hm => hm
    | cons a as ih => exact fun m hm => ih _ (hm.read .axim a)
  exact from_any s.mem (.refl s)

/-- A byte that differs after reads is listed in an effect. -/
theorem ChangedByReads.mem_bytes_of_ne {s : State} {m : List Host.Cell} (h : ChangedByReads s m) {n : Nat}
    (hn : readByte m n ≠ readByte s.mem n) : ∃ e ∈ s.readEffects, ∃ b ∈ e.bytes, n = b.1.toNat := by
  obtain ⟨bs, hbs, rfl⟩ := h
  by_contra hno
  refine hn (readByte_putBytes_ne s.mem bs n fun b hb e => ?_)
  obtain ⟨x, hx, hbx⟩ := hbs b hb
  exact hno ⟨x, hx, b, hbx, e⟩

/-- A memory without effects on reads is as it was. -/
theorem ChangedByReads.eq_of_plain {s : State} {m : List Host.Cell} (h : ChangedByReads s m)
    (hs : s.readEffects = []) : m = s.mem := by
  obtain ⟨bs, hbs, rfl⟩ := h
  obtain rfl : bs = [] := List.eq_nil_iff_forall_not_mem.2 fun b hb => by simpa [hs] using hbs b hb
  rfl

theorem forwardRead_mem {sz : Size} {a : Word} {s t : State} (h : forwardRead sz a s = .next t) :
    ChangedByReads s t.mem := by
  obtain ⟨v, r, rfl, -⟩ := forwardRead_cases h
  exact changedByReads_memAfterRead s .ahbm a

theorem failBeat_mem {r : Refill} {s t : State} (h : failBeat r s = .next t) : ChangedByReads s t.mem := by
  have hfail : ChangedByReads s (memAfterFailure s r) := changedByReads_memAfterReads s _
  obtain e | e := (failBeat_cases h).2 <;> rw [e]
  · exact hfail
  · exact hfail.read .ahbm _

theorem beat_mem {s t : State} (h : beat s = .next t) : ChangedByReads s t.mem := by
  obtain ⟨r, -, rfl | hfail⟩ := beat_cases h
  · rw [takeBeat_mem]
    exact changedByReads_memAfterRead s _ _
  · exact failBeat_mem hfail

theorem execIfetchNc_forwards {sz : Size} {c : Bool} {a : Word} {s t : State}
    (h : execIfetchNc sz c a s = .next t) : forwardRead sz a (noteNotQualifying s) = .next t :=
  (inClass_eq_next h).2

theorem execIfetchCFirst_forwards {a : Word} {s t : State} (h : execIfetchCFirst a s = .next t) :
    forwardRead .b32 a (setPrimed true s) = .next t := (inClass_eq_next h).2

theorem execIfetchCMiss_mem {a : Word} {s t : State} (h : execIfetchCMiss a s = .next t) :
    ChangedByReads s t.mem := (beat_mem (inClass_eq_next h).2).of_same rfl rfl

/-- A use changes the recency order alone (R142). -/
theorem touchMatching_eq (idx : Index) (s : State) :
    ∃ l : List LineNo, touchMatching idx s = { s with lru := l } := by
  obtain ⟨j, -, e⟩ | ⟨-, e⟩ := touchMatching_cases idx s <;> exact ⟨_, e⟩

theorem execIfetchCHitb_mem {a : Word} {s t : State} (h : execIfetchCHitb a s = .next t) :
    ChangedByReads s t.mem := by
  obtain ⟨-, h⟩ := inClass_eq_next h
  split at h
  · obtain rfl := Host.Outcome.next.inj h
    obtain ⟨l, e⟩ := touchMatching_eq (indexOf a) (respond (.okayData .b32 (segAt s.buf.seg (segOf a))) s)
    rw [e]
    exact .refl s
  · obtain rfl | hbeat := waitForBeat_cases h
    · exact .refl s
    · exact (beat_mem hbeat).of_same rfl rfl

theorem execIfetchCHitl_mem {a : Word} {s t : State} (h : execIfetchCHitl a s = .next t) :
    t.mem = s.mem := by
  obtain ⟨-, h⟩ := inClass_eq_next h
  split at h
  · cases h
  · obtain rfl := Host.Outcome.next.inj h
    rfl

theorem setCtr_mem (page : Page) (en : Bool) (s : State) : (setCtr page en s).mem = s.mem := by
  obtain ⟨p, u, rfl | rfl, e⟩ := setCtr_cases page en s <;> rw [e]
  rfl

theorem execCtrWr32_mem {w : Word} {s t : State} (h : execCtrWr32 w s = .next t) : t.mem = s.mem := by
  obtain ⟨-, h⟩ | ⟨-, rfl⟩ := writeAccess_cases h
  · split at h
    · obtain rfl := Host.Outcome.next.inj h
      exact setCtr_mem _ _ s
    · cases h
  · rfl

theorem execCtrWrn_mem {off : BitVec 2} {n : Narrow} {d : Word} {s t : State}
    (h : execCtrWrn off n d s = .next t) : t.mem = s.mem := by
  obtain ⟨-, h⟩ | ⟨-, rfl⟩ := writeAccess_cases h
  · obtain rfl := Host.Outcome.next.inj h
    split
    · obtain ⟨e, -⟩ | ⟨-, -, e⟩ := narrowWriteEn_cases s <;> rw [e] <;> rfl
    · rfl
  · rfl

theorem readAccess_mem {sz : Size} {v : Word} {s t : State} (h : readAccess sz v s = .next t) :
    t.mem = s.mem := by
  obtain rfl := Host.Outcome.next.inj h
  rfl

theorem execRefillErr_mem {s t : State} (h : execRefillErr s = .next t) : ChangedByReads s t.mem := by
  unfold execRefillErr at h
  split at h
  · cases h
  · exact failBeat_mem h

/-- What a write that is forwarded leaves in the memory, where what its class does before the answer keeps the
memory: the store, or what was there. -/
theorem forwardWrite_mem {sz : Size} {a d : Word} {f : State → State} {s t : State}
    (hf : ∀ u, (f u).mem = u.mem) (h : forwardWrite sz a d f s = .next t) :
    t.mem = s.mem ∨ t.mem = storeAt s.mem a d sz := by
  obtain ⟨m, ok, hm, rfl⟩ := forwardWrite_cases h
  simpa [hf] using hm

@[simp] theorem noteNotQualifying_mem (s : State) : (noteNotQualifying s).mem = s.mem := rfl

theorem execWriteOther_mem {sz : Size} {c : Bool} {a d : Word} {s t : State}
    (h : execWriteOther sz c a d s = .next t) : t.mem = s.mem ∨ t.mem = storeAt s.mem a d sz := by
  simpa using forwardWrite_mem (f := id) (fun _ => rfl) (inClass_eq_next h).2

/-- Every instruction but the two write classes changes the memory by effects of reads alone (R55, R61). -/
theorem exec_mem {i : Instr} {s t : State} (h : exec i s = .next t) :
    (∃ (sz : Size) (c : Bool) (a d : Word), i = .writePage sz c a d ∨ i = .writeOther sz c a d) ∨
      ChangedByReads s t.mem := by
  have same : t.mem = s.mem → ChangedByReads s t.mem := fun e => e ▸ .refl s
  cases i with
  | txnRefused sz c a d => cases h
  | writePage sz c a d => exact .inl ⟨sz, c, a, d, .inl rfl⟩
  | writeOther sz c a d => exact .inl ⟨sz, c, a, d, .inr rfl⟩
  | dread sz c a => exact .inr ((forwardRead_mem h).of_same rfl rfl)
  | ifetchNc sz c a => exact .inr ((forwardRead_mem (execIfetchNc_forwards h)).of_same rfl rfl)
  | ifetchCFirst a => exact .inr ((forwardRead_mem (execIfetchCFirst_forwards h)).of_same rfl rfl)
  | ifetchCHitb a => exact .inr (execIfetchCHitb_mem h)
  | ifetchCHitl a => exact .inr (same (execIfetchCHitl_mem h))
  | ifetchCMiss a => exact .inr (execIfetchCMiss_mem h)
  | ctrRd32 => exact .inr (same (readAccess_mem h))
  | ctrWr32 w => exact .inr (same (execCtrWr32_mem h))
  | ctrWrn off n d => exact .inr (same (execCtrWrn_mem (n := n) (d := d) h))
  | ctrRdn off n => exact .inr (same (readAccess_mem h))
  | regOther write sz off d => cases h
  | refillBeat => exact .inr (beat_mem h)
  | refillErr => exact .inr (execRefillErr_mem h)
  | invalidateAll =>
    obtain rfl := Host.Outcome.next.inj h
    exact .inr (.refl s)
  | reset =>
    obtain rfl := Host.Outcome.next.inj h
    exact .inr (.refl s)

/-- Settles O56: by what each instruction can do to the memory. -/
theorem onlyWritesAndReadEffectsChangeMemory : Obligations.OnlyWritesAndReadEffectsChangeMemory := by
  intro s t i h
  obtain hwrite | hreads := exec_mem h
  · exact ⟨fun _ _ => hwrite, fun _ _ => .inl hwrite⟩
  · exact ⟨fun hne hplain => absurd (hreads.eq_of_plain hplain) hne,
      fun n hn => .inr (hreads.mem_bytes_of_ne hn)⟩

/-! ### The addresses of a block and of an aligned access lie in one page -/

theorem pageOf_fields (p : Page) (i : Index) : pageOf (p ++ i ++ (0 : BitVec 5)) = p := by
  apply BitVec.eq_of_getLsbD_eq
  intro n hn
  simp only [pageOf, BitVec.getLsbD_extractLsb', BitVec.getLsbD_append]
  interval_cases n <;> simp

theorem indexOf_fields (p : Page) (i : Index) : indexOf (p ++ i ++ (0 : BitVec 5)) = i := by
  apply BitVec.eq_of_getLsbD_eq
  intro n hn
  simp only [indexOf, BitVec.getLsbD_extractLsb', BitVec.getLsbD_append]
  interval_cases n <;> simp

/-- R85: a page, an index and five zeros are a block's base. -/
theorem blockBase_fields (p : Page) (i : Index) :
    blockBase (p ++ i ++ (0 : BitVec 5)) = p ++ i ++ (0 : BitVec 5) := by
  rw [← blockBase_eq_fields (p ++ i ++ (0 : BitVec 5)), pageOf_fields, indexOf_fields]

/-- The bytes of a block's segments lie in the block's page. -/
theorem pageOf_segAddr_add {base : Word} (hb : blockBase base = base) (k : BitVec 3) {j : Nat} (hj : j < 4) :
    pageOf (segAddr base k + BitVec.ofNat 32 j) = pageOf base := by
  have hbase : base.toNat / 32 * 32 = base.toNat := by rw [← toNat_blockBase, hb]
  have hk := k.isLt
  have hlt := base.isLt
  apply BitVec.eq_of_toNat_eq
  rw [toNat_pageOf, toNat_pageOf]
  simp only [segAddr, BitVec.toNat_add, BitVec.toNat_ofNat]
  omega

/-- The bytes of an aligned access lie in the page of its address (R59). -/
theorem pageOf_add_of_aligned {sz : Size} {a : Word} (ha : sz.alignedTo a = true) {k : Nat}
    (hk : k < sizeBytes sz) : pageOf (a + BitVec.ofNat 32 k) = pageOf a := by
  have hmod : a.toNat % sizeBytes sz = 0 := by
    cases sz with
    | b8 => exact Nat.mod_one _
    | b16 =>
      have h : a.extractLsb' 0 1 = 0 := by simpa [Size.alignedTo] using ha
      simpa [sizeBytes] using congrArg BitVec.toNat h
    | b32 => exact alignedTo_b32 ha
  have hlt := a.isLt
  apply BitVec.eq_of_toNat_eq
  rw [toNat_pageOf, toNat_pageOf]
  simp only [BitVec.toNat_add, BitVec.toNat_ofNat]
  cases sz <;> simp only [sizeBytes] at hk hmod <;> omega

/-! ### Two memories that hold the same bytes in a page -/

/-- Every byte of the page is the same in both memories. -/
def SamePage (page : Page) (m m' : List Host.Cell) : Prop :=
  ∀ b : Word, pageOf b = page → byteAt m' b = byteAt m b

/-- The words of a block of the page are the same. -/
theorem SamePage.wordAt_segAddr {page : Page} {m m' : List Host.Cell} (h : SamePage page m m') {base : Word}
    (hb : blockBase base = base) (hp : pageOf base = page) (k : BitVec 3) :
    wordAt m' (segAddr base k) = wordAt m (segAddr base k) := by
  have hbyte : ∀ j < 4,
      byteAt m' (segAddr base k + BitVec.ofNat 32 j) = byteAt m (segAddr base k + BitVec.ofNat 32 j) :=
    fun j hj => h _ ((pageOf_segAddr_add hb k hj).trans hp)
  have h0 := hbyte 0 (by omega)
  simp only [BitVec.add_zero] at h0
  simp only [wordAt, h0, hbyte 1 (by omega), hbyte 2 (by omega), hbyte 3 (by omega)]

theorem samePage_putByte {page : Page} (m : List Host.Cell) {a : Word} (v : Byte) (ha : pageOf a ≠ page) :
    SamePage page m (putByte m a v) := fun _ hb =>
  byteAt_putByte_ne m v fun e => ha (e ▸ hb)

/-- A store to another page, aligned to its width, does not reach into this one. -/
theorem samePage_storeAt {page : Page} (m : List Host.Cell) {sz : Size} {a : Word} (d : Word)
    (hal : sz.alignedTo a = true) (ha : pageOf a ≠ page) : SamePage page m (storeAt m a d sz) := by
  intro b hb
  refine readByte_storeAt_ne m a d sz _ fun k hk e => ha ?_
  rw [← pageOf_add_of_aligned hal hk, ← BitVec.eq_of_toNat_eq e, hb]

/-- Where no read has an effect on the page, reads leave the page as it was (R239). -/
theorem ChangedByReads.samePage {s : State} {m : List Host.Cell} (h : ChangedByReads s m)
    (hp : PageReadsPlain s) : SamePage (pcacheaddr s) s.mem m := by
  intro b hb
  by_contra hne
  obtain ⟨e, he, x, hx, hbx⟩ := h.mem_bytes_of_ne hne
  exact hp e he x hx (BitVec.eq_of_toNat_eq hbx ▸ hb)

/-! ### Agreement of the cache with the memory under changes of the state -/

theorem coherent_of_nothingValid {s : State} (hn : NothingValid s) (hr : s.refill = none) : Coherent s := by
  obtain ⟨hlines, hbuf⟩ := hn
  refine ⟨fun i hi => ?_, fun hv => ?_, fun r hr' => ?_⟩
  · simp [hlines i] at hi
  · simp [hbuf] at hv
  · simp [hr] at hr'

theorem CacheDropped.coherent {s t : State} (h : CacheDropped s t) : Coherent t :=
  coherent_of_nothingValid h.nothingValid h.refill

/-- The cache still agrees with a memory that holds the same bytes in the page; the rest of the state does not
matter. -/
theorem Coherent.congr {s t : State} (hs : Coherent s) (hpage : pcacheaddr t = pcacheaddr s)
    (hlines : t.lines = s.lines) (hbuf : t.buf = s.buf) (hrefill : t.refill = s.refill)
    (hm : SamePage (pcacheaddr s) s.mem t.mem) : Coherent t := by
  obtain ⟨hline, hbufseg, hbase⟩ := hs
  refine ⟨?_, ?_, ?_⟩
  · intro i hi k
    rw [line_congr hlines] at hi
    have hword := hm.wordAt_segAddr (blockBase_fields _ (line s i).index) (pageOf_fields _ _) k
    simp only [lineBase, hpage, line_congr hlines]
    rw [hword]
    exact hline i hi k
  · intro hv k hk
    rw [hbuf] at hv hk
    have hword := hm.wordAt_segAddr (blockBase_fields _ s.buf.index) (pageOf_fields _ _) k
    simp only [bufBase, hpage, hbuf]
    rw [hword]
    exact hbufseg hv k hk
  · intro r hr
    rw [hpage]
    exact hbase r (hrefill ▸ hr)

theorem Coherent.of_kept {s t : State} (hs : Coherent s) (h : CacheKept s t)
    (hm : SamePage (pcacheaddr s) s.mem t.mem) : Coherent t := by
  obtain ⟨⟨hctr, hlines, hbuf, -, hrefill⟩, -⟩ := h
  exact hs.congr (pcacheaddr_congr hctr) hlines hbuf hrefill hm

theorem Coherent.redraw {s : State} (hs : Coherent s) : Coherent (redraw s) := hs

/-- A valid line copied to the buffer agrees with the memory there too. -/
theorem Coherent.copyLine {s : State} (hs : Coherent s) {i : LineNo} (hi : (line s i).valid = true) :
    Coherent (copyLine i s) := by
  obtain ⟨hline, -, hbase⟩ := hs
  exact ⟨hline, fun _ k _ => hline i hi k, hbase⟩

/-- After the eviction of a miss the lines that are still valid agree with the memory, and the buffer is not
valid (R140). -/
theorem Coherent.startRefill {s : State} (hs : Coherent s) {a : Word} (ha : pageOf a = pcacheaddr s) :
    Coherent (startRefill a s) := by
  obtain ⟨hline, -, -⟩ := hs
  refine ⟨fun i hi k => ?_, fun hv => ?_, fun r hr => ?_⟩
  · obtain ⟨e, hi⟩ := startRefill_valid hi
    simp only [lineBase, e]
    exact hline i hi k
  · simp at hv
  · obtain rfl := Option.some.inj hr
    exact (pageOf_blockBase a).trans ha

/-! ### A beat -/

/-- R85: the block that a refill of the page fills the buffer with is that of the refill's base. -/
theorem BeatReady.bufBase_eq {r : Refill} {s : State} (hs : BeatReady r s)
    (hp : pageOf r.base = pcacheaddr s) : bufBase s = r.base := by
  rw [bufBase, hs.buf_index, ← hp, blockBase_eq_fields, hs.base_aligned]

/-- After a beat every arrived quarter of the buffer, the one just read among them, holds what the memory holds,
where the beat's own effect leaves the page alone. -/
theorem BeatReady.takeBeat_buf_coherent {r : Refill} {s u : State} (hb : BeatReady r s) (hs : Coherent s)
    (hr : s.refill = some r) (hu : CacheKept s u) (hm : SamePage (pcacheaddr s) s.mem u.mem) (k : BitVec 3)
    (hk : arrivedAt (takeBeat r (beatAt s.mem (beatAddr r)) u).buf.arrived (quarterOfSeg k) = true) :
    segAt (takeBeat r (beatAt s.mem (beatAddr r)) u).buf.seg k = wordAt u.mem (segAddr (bufBase u) k) := by
  obtain ⟨-, hbufseg, hbase⟩ := hs
  have hpage := hbase r hr
  have hubase : bufBase u = r.base :=
    (hb.of_kept hu).bufBase_eq (hpage.trans (pcacheaddr_congr hu.cache.1).symm)
  obtain ⟨⟨-, -, hubuf, -, -⟩, -⟩ := hu
  rw [hubase, hm.wordAt_segAddr hb.base_aligned hpage]
  simp only [takeBeat_buf, arrivedAt_markArrived, hubuf] at hk
  simp only [takeBeat_buf, segAt_putBeat, hubuf]
  by_cases hq : quarterOfSeg k = beatQuarter r
  · rw [if_pos hq, beatAddr, ← hq, beatAt_segment]
  · rw [if_neg hq, ← hb.bufBase_eq hpage]
    have hold : arrivedAt s.buf.arrived (quarterOfSeg k) = true := by simpa [hq] using hk
    have hvalid : s.buf.valid = true := by
      refine hb.buf_valid.resolve_left fun h0 => ?_
      have hlt := (hb.arrived_iff _).1 hold
      simp [h0] at hlt
    exact hbufseg hvalid k hold

/-- A beat answered with data keeps the agreement: its quarter is what the memory holds, and the line that the
last beat makes valid is a copy of the buffer. -/
theorem BeatReady.coherent_takeBeat {r : Refill} {s u : State} (hb : BeatReady r s) (hs : Coherent s)
    (hr : s.refill = some r) (hu : CacheKept s u) (hm : SamePage (pcacheaddr s) s.mem u.mem) :
    Coherent (takeBeat r (beatAt s.mem (beatAddr r)) u) := by
  have hready := hb.of_kept hu
  have hbuf := hb.takeBeat_buf_coherent hs hr hu hm
  obtain ⟨hline, -, hbase⟩ := hs.of_kept hu hm
  have hrefill : u.refill = some r := by
    obtain ⟨⟨-, -, -, -, e⟩, -⟩ := hu
    exact e.trans hr
  generalize beatAt s.mem (beatAddr r) = d at hbuf ⊢
  have hpage : pcacheaddr (takeBeat r d u) = pcacheaddr u := pcacheaddr_congr (takeBeat_artCtr r d u)
  have hindex : (takeBeat r d u).buf.index = u.buf.index := by rw [takeBeat_buf]
  refine ⟨fun i hi k => ?_, fun _ k hk => ?_, fun r' hr' => ?_⟩
  · rw [takeBeat_mem, lineBase, hpage]
    obtain ⟨rfl, h3⟩ | ⟨e, hi⟩ := hready.takeBeat_valid d hi
    · have hwhole := (hready.takeBeat_arrived_iff d (quarterOfSeg k)).2
        (by rw [h3]; exact (quarterOfSeg k - r.j0).isLt)
      rw [← hready.takeBeat_segs_agree d k hwhole, hready.takeBeat_victim_index]
      exact hbuf k hwhole
    · rw [e]
      exact hline i hi k
  · rw [takeBeat_mem, bufBase, hpage, hindex]
    exact hbuf k hk
  · rw [hpage]
    rw [takeBeat_refill] at hr'
    split at hr'
    · cases hr'
    · obtain rfl := Option.some.inj hr'
      exact hbase r hrefill

/-- A beat keeps the agreement, or flags everything invalid. -/
theorem beat_coherent {r : Refill} {s t : State} (hr : s.refill = some r) (hb : BeatReady r s)
    (hs : Coherent s) (hp : PageReadsPlain s) (h : beat s = .next t) : Coherent t := by
  obtain ⟨r', hr', rfl | hfail⟩ := beat_cases h
  · obtain rfl := Option.some.inj (hr.symm.trans hr')
    exact hb.coherent_takeBeat hs hr (cacheKept_takeEffect _ _ s)
      ((changedByReads_memAfterRead s _ _).samePage hp)
  · exact (failBeat_dropped hfail).coherent

theorem beat_coherent_of_inv {s t : State} (hi : Inv s) (hs : Coherent s) (hp : PageReadsPlain s)
    (h : beat s = .next t) : Coherent t := by
  obtain ⟨r, hr, -⟩ := beat_cases h
  exact beat_coherent hr (beatReady_of_inv hi hr) hs hp h

/-! ### Every instruction -/

/-- A write to the page that is detected leaves nothing valid (R162). -/
theorem execWritePage_dropped {sz : Size} {c : Bool} {a d : Word} {s t : State}
    (hd : writeDetectActive s = true) (h : execWritePage sz c a d s = .next t) : CacheDropped s t := by
  obtain ⟨m, ok, hm, rfl⟩ := forwardWrite_cases (inClass_eq_next h).2
  have hactive : writeDetectActive
      (emit (.ahbmWrite a sz d ok) (setMem m (noteNotQualifying s))) = true := hd
  rw [if_pos hactive]
  refine ⟨rfl, rfl, nothingValid_congr rfl rfl (flush_nothingValid _), rfl, fun hs => ?_⟩
  obtain rfl | rfl := hm
  · exact hs
  · exact storeAt_wf hs a d sz

/-- A forwarded read keeps the agreement, whatever its class has noted in `primed` before. -/
theorem forwardRead_setPrimed_coherent {sz : Size} {a : Word} {b : Bool} {s t : State} (hs : Coherent s)
    (hp : PageReadsPlain s) (h : forwardRead sz a (setPrimed b s) = .next t) : Coherent t :=
  hs.of_kept ((cacheKept_setPrimed b s).trans (forwardRead_kept h))
    (((forwardRead_mem h).of_same rfl rfl).samePage hp)

theorem execWriteOther_coherent {sz : Size} {c : Bool} {a d : Word} {s t : State} (hs : Coherent s)
    (hal : sz.alignedTo a = true) (h : execWriteOther sz c a d s = .next t) : Coherent t := by
  refine hs.of_kept (execWriteOther_kept h) ?_
  obtain e | e := execWriteOther_mem h <;> rw [e]
  · exact fun _ _ => rfl
  · exact samePage_storeAt s.mem d hal (admits_writeOther_iff.1 (inClass_eq_next h).1)

theorem execIfetchCHitb_coherent {a : Word} {s t : State} (hi : Inv s) (hs : Coherent s)
    (hp : PageReadsPlain s) (h : execIfetchCHitb a s = .next t) : Coherent t := by
  obtain ⟨-, h⟩ := inClass_eq_next h
  split at h
  · obtain rfl := Host.Outcome.next.inj h
    obtain ⟨l, e⟩ := touchMatching_eq (indexOf a) (respond (.okayData .b32 (segAt s.buf.seg (segOf a))) s)
    rw [e]
    exact hs
  · obtain rfl | hbeat := waitForBeat_cases h
    · exact hs
    · have hput := hi.setInputs (.transfer (txnBytes false true true .b32 a 0) :: s.inputs)
      exact beat_coherent_of_inv hput hs hp hbeat

theorem execIfetchCHitl_coherent {a : Word} {s t : State} (hs : Coherent s)
    (h : execIfetchCHitl a s = .next t) : Coherent t := by
  obtain ⟨-, h⟩ := inClass_eq_next h
  split at h
  · cases h
  · next j hj =>
    obtain rfl := Host.Outcome.next.inj h
    exact hs.copyLine (findLine_some hj).1

theorem execIfetchCMiss_coherent {a : Word} {s t : State} (hi : Inv s) (hs : Coherent s)
    (hp : PageReadsPlain s) (h : execIfetchCMiss a s = .next t) : Coherent t := by
  obtain ⟨ha, h⟩ := inClass_eq_next h
  have hpage : pageOf a = pcacheaddr s := by
    simp only [View.admits, View.qualifies, view_page, Bool.and_eq_true, beq_iff_eq] at ha
    tauto
  obtain ⟨-, htags, -⟩ := hi
  exact beat_coherent (refill_startRefill_eq_missRefill a s) (beatReady_startRefill htags ha)
    (hs.startRefill hpage) hp h

/-- A write of ART_CTR changes the page only if it flags everything invalid (R164). -/
theorem setCtr_coherent {s : State} (hs : Coherent s) (page : Page) (en : Bool) :
    Coherent (setCtr page en s) := by
  by_cases hpage : page = pcacheaddr s
  · obtain ⟨p, u, rfl | rfl, e⟩ := setCtr_cases page en s <;> rw [e]
    · exact hs.congr ((pcacheaddr_of_ctrWord page en).trans hpage) rfl rfl rfl fun _ _ => rfl
    · exact coherent_of_nothingValid (nothingValid_congr rfl rfl (flush_nothingValid s)) rfl
  · obtain ⟨p, e⟩ := setCtr_of_ne en hpage
    rw [e]
    exact coherent_of_nothingValid (nothingValid_congr rfl rfl (flush_nothingValid s)) rfl

theorem execCtrWr32_coherent {w : Word} {s t : State} (hs : Coherent s)
    (h : execCtrWr32 w s = .next t) : Coherent t := by
  obtain ⟨-, h⟩ | ⟨-, rfl⟩ := writeAccess_cases h
  · split at h
    · obtain rfl := Host.Outcome.next.inj h
      exact setCtr_coherent hs _ _
    · cases h
  · exact hs

theorem execCtrWrn_coherent {off : BitVec 2} {n : Narrow} {d : Word} {s t : State} (hs : Coherent s)
    (h : execCtrWrn off n d s = .next t) : Coherent t := by
  obtain ⟨-, h⟩ | ⟨-, rfl⟩ := writeAccess_cases h
  · obtain rfl := Host.Outcome.next.inj h
    split
    · obtain ⟨e, -⟩ | ⟨-, -, e⟩ := narrowWriteEn_cases s <;> rw [e]
      · exact hs
      · exact hs.congr (pcacheaddr_of_ctrWord _ _) rfl rfl rfl fun _ _ => rfl
    · exact hs
  · exact hs

/-- Every instruction keeps the agreement of the cache with the memory, while writes to the page are detected
and reads leave the page alone; a write outside the page has to be aligned, or it could reach into the page. -/
theorem exec_coherent {i : Instr} {s t : State} (hi : Inv s) (hs : Coherent s)
    (hd : writeDetectActive s = true) (hp : PageReadsPlain s)
    (hal : ∀ sz c a d, i = .writeOther sz c a d → sz.alignedTo a = true) (h : exec i s = .next t) :
    Coherent t := by
  cases i with
  | txnRefused sz c a d => cases h
  | writePage sz c a d => exact (execWritePage_dropped hd h).coherent
  | writeOther sz c a d => exact execWriteOther_coherent hs (hal sz c a d rfl) h
  | dread sz c a => exact forwardRead_setPrimed_coherent hs hp h
  | ifetchNc sz c a => exact forwardRead_setPrimed_coherent hs hp (execIfetchNc_forwards h)
  | ifetchCFirst a => exact forwardRead_setPrimed_coherent hs hp (execIfetchCFirst_forwards h)
  | ifetchCHitb a => exact execIfetchCHitb_coherent hi hs hp h
  | ifetchCHitl a => exact execIfetchCHitl_coherent hs h
  | ifetchCMiss a => exact execIfetchCMiss_coherent hi hs hp h
  | ctrRd32 => exact hs.of_kept (readAccess_kept h) fun _ _ => by rw [readAccess_mem h]
  | ctrWr32 w => exact execCtrWr32_coherent hs h
  | ctrWrn off n d => exact execCtrWrn_coherent (n := n) (d := d) hs h
  | ctrRdn off n => exact hs.of_kept (readAccess_kept h) fun _ _ => by rw [readAccess_mem h]
  | regOther write sz off d => cases h
  | refillBeat => exact beat_coherent_of_inv hi hs hp h
  | refillErr => exact (execRefillErr_dropped h).coherent
  | invalidateAll =>
    obtain rfl := Host.Outcome.next.inj h
    exact (cacheDropped_flush s).coherent
  | reset =>
    obtain rfl := Host.Outcome.next.inj h
    exact coherent_of_nothingValid (resetArt_nothingValid s) rfl

/-! ### What the decoder reads is aligned -/

/-- What the decoder reads is sorted by one of R86's two tables, its address aligned to its width (R59). -/
theorem decode_ok_cases {v : View} {bs : List Byte} {i : Instr} (h : decode v bs = .ok i) :
    ∃ (w f c : Bool) (sz : Size) (a d : Word), sz.alignedTo a = true ∧
      (i = sortTxn v w f c sz a d ∨ i = sortReg w sz a d) := by
  unfold decode at h
  split at h
  · cases h
  · next p _ =>
    simp only [decodePacket] at h
    split at h
    · cases h
    · next sz _ =>
      split at h
      · cases h
      · next hal =>
        refine ⟨p.attr.getLsbD 4, p.attr.getLsbD 3, p.attr.getLsbD 2, sz, p.addr, p.data,
          by simpa using hal, ?_⟩
        split at h
        · cases h
        · split at h
          · exact .inl (by simpa using h.symm)
          · split at h
            · split at h
              · cases h
              · exact .inr (by simpa using h.symm)
            · cases h

theorem sortTxn_eq_writeOther {v : View} {w f c c' : Bool} {sz sz' : Size} {a a' d d' : Word}
    (h : sortTxn v w f c sz a d = .writeOther sz' c' a' d') : sz = sz' ∧ a = a' := by
  unfold sortTxn at h
  repeat' split at h
  all_goals cases h
  exact ⟨rfl, rfl⟩

theorem sortReg_ne_writeOther {w c : Bool} {sz sz' : Size} {a a' d d' : Word} :
    sortReg w sz a d ≠ .writeOther sz' c a' d' := by
  unfold sortReg
  split
  · split <;> nofun
  · nofun

/-- A write outside the page that the decoder reads is aligned (R59, D9). -/
theorem aligned_of_decode_writeOther {v : View} {bs : List Byte} {sz : Size} {c : Bool} {a d : Word}
    (h : decode v bs = .ok (.writeOther sz c a d)) : sz.alignedTo a = true := by
  obtain ⟨w, f, c', sz', a', d', hal, htxn | hreg⟩ := decode_ok_cases h
  · obtain ⟨rfl, rfl⟩ := sortTxn_eq_writeOther htxn.symm
    exact hal
  · exact absurd hreg.symm sortReg_ne_writeOther

theorem nextBeat_ne_writeOther (r : Refill) (s : State) (sz : Size) (c : Bool) (a d : Word) :
    nextBeat r s ≠ .writeOther sz c a d := by
  unfold nextBeat
  split <;> nofun

/-! ### Every step -/

/-- Settles O14: a change by another writer is outside the page or flags everything invalid, and every
instruction that a step runs keeps the agreement. -/
theorem stepKeepsCoherence : Obligations.StepKeepsCoherence := by
  intro s t hi hs hd hp hother h
  obtain ⟨-, -, rfl⟩ | ⟨a, v, rest, hin, rfl⟩ | ⟨rules, rest, -, rfl⟩ |
    ⟨effects, rest, -, rfl⟩ | ⟨b, rest, -, rfl⟩ | ⟨rest, -, rfl⟩ |
    ⟨bs, rest, i, u, -, hdec, -, hu, rfl⟩ | ⟨r, u, -, hu, rfl⟩ := step_cases h
  · exact hs
  · split
    · exact (cacheDropped_flush _).coherent
    · next hdet =>
      have hout : pageOf a ≠ pcacheaddr s := fun ha =>
        hdet (by simp [detectsOther, hother a v rest hin ha, ha])
      exact hs.congr rfl rfl rfl rfl (samePage_putByte s.mem v hout)
  · exact hs
  · exact hs
  · exact hs
  · exact coherent_of_nothingValid (resetArt_nothingValid (setInputs rest s)) rfl
  · refine (exec_coherent (hi.setInputs rest) hs hd hp ?_ hu).redraw
    rintro sz c a d rfl
    exact aligned_of_decode_writeOther hdec
  · refine (exec_coherent hi hs hd hp ?_ hu).redraw
    exact fun sz c a d e => absurd e (nextBeat_ne_writeOther r s sz c a d)

end Sys2Proof.Machine

namespace Sys2Proof.Machine

/-! ### Steps that take the next of what arrives -/

theorem nextAction_of_no_refill {s : State} (hr : s.refill = none) : nextAction s = actOnInput s := by
  simp only [nextAction, hr]

theorem nextAction_of_beatFirst {s : State} {r : Refill} (hr : s.refill = some r)
    (hb : beatComesFirst s = true) : nextAction s = .run (nextBeat r s) s := by
  simp only [nextAction, hr, hb, if_true]

/-- A change of the environment comes before or after the next beat as the draw says (R148). -/
theorem beatComesFirst_of_change {s : State} {x : Input} {rest : List Input} (hin : s.inputs = x :: rest)
    (hx : isChange x = true) : beatComesFirst s = s.draws.beatFirst := by
  unfold beatComesFirst
  rw [hin]
  cases x with
  | transfer bytes => cases hx
  | powerOrClockChange => cases hx
  | resetEvent => rfl
  | otherWrite a v => rfl
  | memoryAnswers rules => rfl
  | memoryReadEffects effects => rfl
  | requesterPrivilege b => rfl

/-- A change of the environment that no beat comes before is what the step takes. -/
theorem nextAction_of_change {s : State} {x : Input} {rest : List Input} (hin : s.inputs = x :: rest)
    (hx : isChange x = true) (h : s.refill = none ∨ s.draws.beatFirst = false) :
    nextAction s = actOnInput s := by
  cases hr : s.refill with
  | none => exact nextAction_of_no_refill hr
  | some r =>
    have hb : s.draws.beatFirst = false := h.resolve_left (by simp [hr])
    simp only [nextAction, hr, beatComesFirst_of_change hin hx, hb, Bool.false_eq_true, if_false]

theorem step_of_run {s u : State} {i : Instr} (h : nextAction s = .run i u) :
    step s = redrawn (exec i u) := by
  simp only [step, h]

theorem step_of_become {s u : State} (h : nextAction s = .become u) : step s = .next (redraw u) := by
  simp only [step, h, redrawn_next]

/-- A transfer that is next with no refill in progress is run as the class it is sorted into. -/
theorem step_of_decode {s : State} {bs : List Byte} {rest : List Input} {i : Instr} (hr : s.refill = none)
    (hin : s.inputs = .transfer bs :: rest) (hd : decode (view s) bs = .ok i) :
    step s = redrawn (exec i (setInputs rest s)) := by
  refine step_of_run ?_
  rw [nextAction_of_no_refill hr]
  simp only [actOnInput, hin, actOnTransfer, view_setInputs, hd]

/-- A transfer that the decoder rejects is refused. -/
theorem step_of_decode_error {s : State} {bs : List Byte} {rest : List Input} {e : Reject}
    (hr : s.refill = none) (hin : s.inputs = .transfer bs :: rest) (hd : decode (view s) bs = .error e) :
    step s = .refused (.undecodable e) := by
  have hnext : nextAction s = .refuse (.undecodable e) := by
    rw [nextAction_of_no_refill hr]
    simp only [actOnInput, hin, actOnTransfer, view_setInputs, hd]
  simp only [step, hnext]

/-- Settles O9: the decoder rejects a transaction that is not aligned to its width. -/
theorem misalignedTransferIsRefused : Obligations.MisalignedTransferIsRefused := by
  intro s write fetch cattr sz a d rest hr hin hal
  refine step_of_decode_error hr hin ?_
  simp [decode_txnBytes, hal]

/-- A change by another writer that is not detected changes a byte of the memory; one that is detected flags
everything invalid too (R66, D19). -/
theorem step_of_otherWrite {s : State} {a : Word} {v : Byte} {rest : List Input}
    (hin : s.inputs = .otherWrite a v :: rest) (h : s.refill = none ∨ s.draws.beatFirst = false) :
    step s = .next (redraw (if detectsOther a s
      then flush (setMem (putByte s.mem a v) (setInputs rest s))
      else setMem (putByte s.mem a v) (setInputs rest s))) := by
  have hnext : nextAction s = actOnOtherWrite a v (setInputs rest s) := by
    rw [nextAction_of_change hin rfl h]
    simp only [actOnInput, hin]
  have hdet : detectsOther a (setInputs rest s) = detectsOther a s := rfl
  unfold actOnOtherWrite at hnext
  rw [hdet] at hnext
  split at hnext
  · next hd =>
    rw [step_of_run hnext, if_pos hd]
    rfl
  · next hd =>
    rw [step_of_become hnext, if_neg hd]
    rfl

theorem detectsOther_iff (a : Word) (s : State) :
    detectsOther a s = true ↔ s.draws.detectOther = true ∧ pageOf a = pcacheaddr s := by
  simp [detectsOther]

/-- Settles O49: by the two outcomes of the draw. -/
theorem otherWriterMayGoUnseen : Obligations.OtherWriterMayGoUnseen := by
  intro s a v rest hm hin h
  have hsame : byteAt (putByte s.mem a v) a = v := byteAt_putByte_same hm a v
  have hother : ∀ n : Nat, n ≠ a.toNat → readByte (putByte s.mem a v) n = readByte s.mem n :=
    fun n hn => readByte_writeByte_ne s.mem _ n v hn
  refine ⟨_, step_of_otherWrite hin h, ?_⟩
  rw [← detectsOther_iff]
  split
  · next hd =>
    exact ⟨hsame, hother, rfl, fun _ => nothingValid_congr rfl rfl (flush_nothingValid _),
      fun hnd => absurd hd hnd, rfl, rfl⟩
  · next hd =>
    exact ⟨hsame, hother, rfl, fun hd' => absurd hd' hd, fun _ => ⟨rfl, rfl, rfl, rfl, rfl⟩, rfl, rfl⟩

/-- Settles O40: a beat that comes first is run; else the change is taken, whichever it is. -/
theorem changeComesBeforeOrAfterABeat : Obligations.ChangeComesBeforeOrAfterABeat := by
  intro s r x rest hr hin hx
  refine ⟨fun hb => ?_, fun hb => ?_⟩
  · exact step_of_run (nextAction_of_beatFirst hr ((beatComesFirst_of_change hin hx).trans hb))
  · have hnext := nextAction_of_change hin hx (.inr hb)
    unfold actOnInput at hnext
    rw [hin] at hnext
    cases x with
    | transfer bytes => cases hx
    | powerOrClockChange => cases hx
    | resetEvent => exact ⟨_, step_of_run hnext, rfl, rfl⟩
    | memoryAnswers rules => exact ⟨_, step_of_become hnext, rfl, rfl⟩
    | memoryReadEffects effects => exact ⟨_, step_of_become hnext, rfl, rfl⟩
    | requesterPrivilege b => exact ⟨_, step_of_become hnext, rfl, rfl⟩
    | otherWrite a v =>
      refine ⟨_, step_of_otherWrite hin (.inr hb), ?_⟩
      split <;> exact ⟨rfl, rfl⟩

/-! ### Data reads -/

/-- A forwarded read is answered with what the memory answers, data or ERROR (R108, R109). -/
theorem forwardRead_trace {sz : Size} {a : Word} {s t : State} (h : forwardRead sz a s = .next t) :
    t.trace = .response (readResp sz (ahbmData s sz a)) :: .ahbmRead a sz (ahbmData s sz a) :: s.trace := by
  unfold forwardRead at h
  split at h
  · cases h
  · next he =>
    obtain rfl := Host.Outcome.next.inj h
    rw [ahbmData, if_pos he]
    rfl
  · next he =>
    obtain rfl := Host.Outcome.next.inj h
    rw [ahbmData, if_neg he]
    rfl

/-- Settles O21: the answer to a data read is the memory's, which no part of the cache is in. -/
theorem dataReadIgnoresTheCache : Obligations.DataReadIgnoresTheCache := by
  intro s s' t t' sz c c' a hmem hans h h'
  have hdata : ahbmData (noteNotQualifying s) sz a = ahbmData (noteNotQualifying s') sz a := by
    change ahbmData s sz a = ahbmData s' sz a
    simp only [ahbmData, hmem, answerTo_congr hans]
  rw [exec_dread] at h h'
  rw [forwardRead_trace h, forwardRead_trace h', hdata]
  rfl

/-- A data read that the memory answers with data gives them, and leaves what its effect leaves (R105, R61). -/
theorem exec_dread_normal {s : State} (sz : Size) (c : Bool) {a : Word} (h : ReadsNormally s .ahbm a) :
    ∃ t, exec (.dread sz c a) s = .next t ∧
      t.trace.head? = some (.response (.okayData sz (loadAt s.mem a sz))) ∧
      t.mem = memAfterRead s .ahbm a ∧ t.answers = s.answers := by
  have hn : ReadsNormally (noteNotQualifying s) .ahbm a := h
  rw [exec_dread, forwardRead_normal sz hn]
  exact ⟨_, rfl, rfl, rfl, rfl⟩

/-- Settles O22: the second read is a data read in the state that the first one leaves. -/
theorem secondReadSeesTheEffect : Obligations.SecondReadSeesTheEffect := by
  intro s sz c a h
  obtain ⟨t, ht, httrace, htmem, htans⟩ := exec_dread_normal sz c h
  obtain ⟨u, hu, hutrace, -, -⟩ := exec_dread_normal sz c (readsNormally_congr htans h)
  rw [htmem] at hutrace
  refine ⟨t, u, ht, hu, httrace, hutrace, fun hplain => ?_⟩
  rw [hutrace, httrace, memAfterRead_of_plain hplain]

/-! ### Hits -/

theorem admits_ifetchCHitl_iff {a : Word} {s : State} :
    (view s).admits (.ifetchCHitl a) = true ↔
      (pageOf a = pcacheaddr s ∧ enabled s = true) ∧ firstNow s = false ∧ bufMatch s (indexOf a) = false ∧
        (validTags s).contains (indexOf a) = true := by
  simp only [View.admits, View.qualifies, bufTag_iff]
  simp [and_assoc]

theorem admits_ifetchCHitb_iff {a : Word} {s : State} :
    (view s).admits (.ifetchCHitb a) = true ↔
      (pageOf a = pcacheaddr s ∧ enabled s = true) ∧ firstNow s = false ∧ s.buf.valid = true ∧
        s.buf.index = indexOf a := by
  simp only [View.admits, View.qualifies, bufTag_iff]
  simp [bufMatch, and_assoc]

/-- R85: the block that holds an address of the page. -/
theorem fields_eq_blockBase {a : Word} {p : Page} {i : Index} (hp : pageOf a = p) (hi : i = indexOf a) :
    p ++ i ++ (0 : BitVec 5) = blockBase a := by
  rw [← hp, hi, blockBase_eq_fields]

/-- R121: a line hit answers the segment of a valid line with the address's index. -/
theorem exec_ifetchCHitl_of_admits {a : Word} {s : State} (h : (view s).admits (.ifetchCHitl a) = true) :
    ∃ i, (line s i).valid = true ∧ (line s i).index = indexOf a ∧ exec (.ifetchCHitl a) s =
      .next (touch i (copyLine i (respond (.okayData .b32 (segAt (line s i).seg (segOf a))) s))) := by
  obtain ⟨-, -, -, hmem⟩ := admits_ifetchCHitl_iff.1 h
  obtain ⟨i, hi⟩ := findLine_isSome hmem
  obtain ⟨hvalid, hindex⟩ := findLine_some hi
  refine ⟨i, hvalid, hindex, ?_⟩
  change execIfetchCHitl a s = _
  rw [execIfetchCHitl, inClass_of_admits _ h, hi]

/-- R122: a buffer hit on an arrived quarter answers the segment of the buffer. -/
theorem exec_ifetchCHitb_of_arrived {a : Word} {s : State} (h : (view s).admits (.ifetchCHitb a) = true)
    (hq : arrivedAt s.buf.arrived (quarterOf a) = true) :
    exec (.ifetchCHitb a) s =
      .next (touchMatching (indexOf a) (respond (.okayData .b32 (segAt s.buf.seg (segOf a))) s)) := by
  change execIfetchCHitb a s = _
  rw [execIfetchCHitb, inClass_of_admits _ h, if_pos hq]

/-- Settles O26: the line or the buffer that answers holds the segment of the block at the address. -/
theorem hitReturnsWhatMemoryHolds : Obligations.HitReturnsWhatMemoryHolds := by
  intro s a i hs hal hi hadm
  obtain ⟨hline, hbuf, -⟩ := hs
  obtain rfl | ⟨rfl, hq⟩ := hi
  · obtain ⟨⟨hpage, -⟩, -, -, -⟩ := admits_ifetchCHitl_iff.1 hadm
    obtain ⟨l, hvalid, hindex, hexec⟩ := exec_ifetchCHitl_of_admits hadm
    have hseg : segAt (line s l).seg (segOf a) = wordAt s.mem a := by
      rw [hline l hvalid, lineBase, fields_eq_blockBase hpage hindex, segAddr_blockBase hal]
    refine ⟨_, hexec, ?_⟩
    rw [touch_trace, copyLine_trace, respond_trace, hseg]
    rfl
  · obtain ⟨⟨hpage, -⟩, -, hvalid, hindex⟩ := admits_ifetchCHitb_iff.1 hadm
    have hseg : segAt s.buf.seg (segOf a) = wordAt s.mem a := by
      rw [hbuf hvalid _ (by rwa [quarterOfSeg_segOf]), bufBase, fields_eq_blockBase hpage hindex,
        segAddr_blockBase hal]
    refine ⟨_, exec_ifetchCHitb_of_arrived hadm hq, ?_⟩
    obtain ⟨l, e⟩ := touchMatching_eq (indexOf a) (respond (.okayData .b32 (segAt s.buf.seg (segOf a))) s)
    rw [e, hseg]
    rfl

/-! ### A store to the page and the fetch after it -/

/-- With nothing valid a cacheable fetch is the first or a miss (R102, R166). -/
theorem decode_fetchBytes_of_nothingValid {s : State} {a : Word} (hn : NothingValid s)
    (hal : Size.b32.alignedTo a = true) (hpage : pageOf a = pcacheaddr s) (hen : enabled s = true) :
    decode (view s) (fetchBytes a) = .ok (if firstNow s then .ifetchCFirst a else .ifetchCMiss a) := by
  simp [fetchBytes, decode_txnBytes, hal, Size.holds, sortTxn, View.qualifies, hpage, hen, hn.bufTag_eq,
    hn.validTags_eq]

theorem admits_ifetchCFirst_iff {a : Word} {s : State} :
    (view s).admits (.ifetchCFirst a) = true ↔
      (pageOf a = pcacheaddr s ∧ enabled s = true) ∧ firstNow s = true := by
  simp [View.admits, View.qualifies]

theorem admits_ifetchCMiss_of_nothingValid {s : State} {a : Word} (hn : NothingValid s)
    (hpage : pageOf a = pcacheaddr s) (hen : enabled s = true) (hf : firstNow s = false) :
    (view s).admits (.ifetchCMiss a) = true := by
  simp [View.admits, View.qualifies, hpage, hen, hf, hn.bufTag_eq, hn.validTags_eq]

/-- R107: the first cacheable access is answered with the memory's word. -/
theorem exec_ifetchCFirst_normal {s : State} {a : Word} (ha : (view s).admits (.ifetchCFirst a) = true)
    (h : ReadsNormally s .ahbm a) :
    ∃ t, exec (.ifetchCFirst a) s = .next t ∧
      t.trace.head? = some (.response (.okayData .b32 (wordAt s.mem a))) := by
  have hn : ReadsNormally (setPrimed true s) .ahbm a := h
  rw [exec_ifetchCFirst_of_admits ha, forwardRead_normal .b32 hn]
  exact ⟨_, rfl, rfl⟩

/-- R144: a miss is answered with the memory's word at its address. -/
theorem exec_ifetchCMiss_normal {s : State} {a : Word} (ha : (view s).admits (.ifetchCMiss a) = true)
    (hal : Size.b32.alignedTo a = true)
    (h : ReadsNormally s .axim (quarterAddr (blockBase a) (quarterOf a))) :
    ∃ t, exec (.ifetchCMiss a) s = .next t ∧
      t.trace.head? = some (.response (.okayData .b32 (wordAt s.mem a))) := by
  have hn : ReadsNormally (startRefill a s) .axim (beatAddr (missRefill s a)) := by
    rw [beatAddr_missRefill]
    exact h
  have hquarter : quarterOfSeg (segOf a) = beatQuarter (missRefill s a) := by
    simp [quarterOfSeg_segOf, beatQuarter, missRefill]
  rw [exec_ifetchCMiss_of_admits ha, beat_normal (refill_startRefill_eq_missRefill a s) hn]
  refine ⟨_, rfl, ?_⟩
  rw [takeBeat_trace, if_pos (show (missRefill s a).done = 0 from rfl)]
  rw [show (missRefill s a).seg = segOf a from rfl, segAt_putBeat, if_pos hquarter]
  rw [beatAddr, ← hquarter, beatAt_segment, show (missRefill s a).base = blockBase a from rfl,
    segAddr_blockBase hal]
  rfl

/-- A fetch of the page that comes next with nothing valid is answered with the memory's word, on either path
(R107, R144). -/
theorem step_fetch_of_nothingValid {s : State} {a : Word} {rest : List Input} (hn : NothingValid s)
    (hr : s.refill = none) (hin : s.inputs = .transfer (fetchBytes a) :: rest)
    (hal : Size.b32.alignedTo a = true) (hpage : pageOf a = pcacheaddr s) (hen : enabled s = true)
    (hahbm : ReadsNormally s .ahbm a)
    (haxim : ReadsNormally s .axim (quarterAddr (blockBase a) (quarterOf a))) :
    ∃ t, step s = .next t ∧ t.trace.head? = some (.response (.okayData .b32 (wordAt s.mem a))) := by
  have hdec := decode_fetchBytes_of_nothingValid hn hal hpage hen
  rw [step_of_decode hr hin hdec]
  cases hf : firstNow s with
  | true =>
    have ha : (view (setInputs rest s)).admits (.ifetchCFirst a) = true :=
      admits_ifetchCFirst_iff.2 ⟨⟨hpage, hen⟩, hf⟩
    obtain ⟨t, ht, htrace⟩ := exec_ifetchCFirst_normal ha hahbm
    rw [if_pos rfl, ht]
    exact ⟨_, rfl, htrace⟩
  | false =>
    have ha : (view (setInputs rest s)).admits (.ifetchCMiss a) = true :=
      admits_ifetchCMiss_of_nothingValid hn hpage hen hf
    obtain ⟨t, ht, htrace⟩ := exec_ifetchCMiss_normal ha hal haxim
    rw [if_neg Bool.false_ne_true, ht]
    exact ⟨_, rfl, htrace⟩

/-- R162: a store to the page that the memory takes, while the detector is active, is in the memory with its
answer and leaves nothing valid. -/
theorem exec_writePage_stored {s : State} (sz : Size) {a : Word} (c : Bool) (d : Word)
    (hpage : pageOf a = pcacheaddr s) (hd : writeDetectActive s = true)
    (h : answerTo s .ahbm true a = none) :
    ∃ t, exec (.writePage sz c a d) s = .next t ∧ CacheDropped s t ∧ t.mem = storeAt s.mem a d sz ∧
      t.inputs = s.inputs ∧ t.answers = s.answers ∧ t.trace.head? = some (.response .okay) := by
  have hactive : writeDetectActive
      (emit (.ahbmWrite a sz d true) (setMem (storeAt s.mem a d sz) (noteNotQualifying s))) = true := hd
  have hexec : exec (.writePage sz c a d) s = .next (respond .okay (flush
      (emit (.ahbmWrite a sz d true) (setMem (storeAt s.mem a d sz) (noteNotQualifying s))))) := by
    rw [exec_writePage_of_eq hpage]
    simp only [forwardWrite, answerTo_noteNotQualifying, h, noteNotQualifying_mem, hactive, if_true]
  exact ⟨_, hexec, execWritePage_dropped hd hexec, rfl, rfl, rfl, rfl⟩

/-- Settles O47: the store leaves its word in the memory and nothing valid in the cache, so that the fetch is
answered from the memory. -/
theorem storeThenFetchReturnsTheStoredWord : Obligations.StoreThenFetchReturnsTheStoredWord := by
  intro s c a d rest hm hr hen hin hal hpage hstore hahbm haxim
  have hdec : decode (view s) (txnBytes true false c .b32 a d) = .ok (.writePage .b32 c a d) := by
    simp [decode_txnBytes, hal, Size.holds, sortTxn, hpage]
  have hd : writeDetectActive s = true := by simp [writeDetectActive, hen]
  obtain ⟨t, ht, hdropped, hmem, hinputs, hanswers, htrace⟩ :=
    exec_writePage_stored (s := setInputs (.transfer (fetchBytes a) :: rest) s) .b32 c d hpage hd hstore
  have hstep : step s = .next (redraw t) := by
    rw [step_of_decode hr hin hdec, ht, redrawn_next]
  obtain ⟨u, hu, hutrace⟩ := step_fetch_of_nothingValid (s := redraw t) (a := a) (rest := rest)
    (nothingValid_congr rfl rfl hdropped.nothingValid) hdropped.refill hinputs hal
    (hpage.trans (pcacheaddr_congr hdropped.artCtr).symm) ((enabled_congr hdropped.artCtr).trans hen)
    (readsNormally_congr hanswers hahbm) (readsNormally_congr hanswers haxim)
  have hword : wordAt (redraw t).mem a = d := by
    rw [redraw_mem, hmem]
    exact wordAt_storeAt hm a d
  exact ⟨redraw t, u, hstep, hu, htrace, by rw [hutrace, hword]⟩

end Sys2Proof.Machine

namespace Sys2Proof

/-! ### The fields of a transfer that can occur -/

/-- What R59 (decision D9) and R9 ask of a transfer's direction, width, address and data: the address is a
multiple of the width, no data bit stands above the width, and a read has no data. -/
structure FieldsFit (w : Bool) (sz : Size) (a d : Word) : Prop where
  aligned : sz.alignedTo a = true
  holds : sz.holds d = true
  noDataOnRead : w = false → d = 0

@[simp] theorem Size.holds_zero (sz : Size) : sz.holds 0 = true := by cases sz <;> rfl

theorem fieldsFit_of_write {sz : Size} {a d : Word} (h : (sz.alignedTo a && sz.holds d) = true) :
    FieldsFit true sz a d :=
  ⟨(Bool.and_eq_true_iff.1 h).1, (Bool.and_eq_true_iff.1 h).2, nofun⟩

theorem fieldsFit_of_read {sz : Size} {a : Word} (h : sz.alignedTo a = true) : FieldsFit false sz a 0 :=
  ⟨h, sz.holds_zero, fun _ => rfl⟩

theorem decode_txnBytes_of_fit {w : Bool} {sz : Size} {a d : Word} (h : FieldsFit w sz a d) (v : View)
    (f c : Bool) : decode v (txnBytes w f c sz a d) = .ok (sortTxn v w f c sz a d) := by
  simpa [decode_txnBytes, h.aligned, h.holds] using h.noDataOnRead

theorem decode_regBytes_of_fit {w : Bool} {sz : Size} {a d : Word} (h : FieldsFit w sz a d) (v : View) :
    decode v (regBytes w sz a d) = .ok (sortReg w sz a d) := by
  simpa [decode_regBytes, h.aligned, h.holds] using h.noDataOnRead

/-! ### The layout, from the bytes to the fields and back -/

theorem append_extract_kind_attr (b : Byte) : b.extractLsb' 5 3 ++ b.extractLsb' 0 5 = b := by
  apply BitVec.eq_of_getLsbD_eq
  intro i hi
  simp only [BitVec.getLsbD_append, BitVec.getLsbD_extractLsb']
  interval_cases i <;> simp

theorem wordBytes_append (b₃ b₂ b₁ b₀ : Byte) : wordBytes (b₃ ++ b₂ ++ b₁ ++ b₀) = [b₀, b₁, b₂, b₃] := by
  simp only [wordBytes, List.cons.injEq, and_true]
  refine ⟨?_, ?_, ?_, ?_⟩ <;>
  · apply BitVec.eq_of_getLsbD_eq
    intro i hi
    simp only [BitVec.getLsbD_append, BitVec.getLsbD_extractLsb']
    interval_cases i <;> simp

/-- Nine bytes are the bytes of the fields read from them: no bit is dropped. -/
theorem Packet.toBytes_of_ofBytes {bs : List Byte} {p : Packet} (h : Packet.ofBytes bs = some p) :
    p.toBytes = bs := by
  unfold Packet.ofBytes at h
  split at h
  · obtain rfl := Option.some.inj h
    simp [Packet.toBytes, append_extract_kind_attr, wordBytes_append]
  · cases h

theorem Size.toKey_of_ofKey {k : BitVec 2} {sz : Size} (h : Size.ofKey k = some sz) : sz.toKey = k := by
  unfold Size.ofKey at h
  split at h <;> cases h <;> rfl

/-- R84: a key with a width is the key of its own four fields. -/
theorem attrKey_of_fields {k : BitVec 5} {sz : Size} (h : Size.ofKey (k.extractLsb' 0 2) = some sz) :
    attrKey (k.getLsbD 4) (k.getLsbD 3) (k.getLsbD 2) sz = k := by
  rw [attrKey, Size.toKey_of_ofKey h]
  apply BitVec.eq_of_getLsbD_eq
  intro i hi
  simp only [BitVec.getLsbD_append, BitVec.getLsbD_extractLsb', BitVec.getLsbD_ofBool]
  interval_cases i <;> simp

/-- What the decoder reads is the transaction or the register access with some fitting fields, sorted by
that kind's table of R86. -/
theorem exists_fields_of_decode {v : View} {bs : List Byte} {i : Instr} (h : decode v bs = .ok i) :
    ∃ (w : Bool) (sz : Size) (a d : Word), FieldsFit w sz a d ∧
      ((∃ f c, bs = txnBytes w f c sz a d ∧ i = sortTxn v w f c sz a d) ∨
        bs = regBytes w sz a d ∧ i = sortReg w sz a d) := by
  unfold decode at h
  split at h
  · cases h
  next p hp =>
  obtain rfl := Packet.toBytes_of_ofBytes hp
  obtain ⟨kind, attr, a, d⟩ := p
  simp only [decodePacket] at h
  split at h
  · cases h
  next sz hsz =>
  have hattr := attrKey_of_fields hsz
  split at h
  · cases h
  next hal =>
  split at h
  · cases h
  next hdata =>
  have hfit : FieldsFit (attr.getLsbD 4) sz a d := by
    obtain ⟨hholds, hread⟩ : sz.holds d = true ∧ (attr.getLsbD 4 = false → d = 0) := by
      simpa using hdata
    exact ⟨by simpa using hal, hholds, hread⟩
  refine ⟨_, sz, a, d, hfit, ?_⟩
  split at h
  next hkind =>
    obtain rfl : kind = 0 := by simpa using hkind
    refine .inl ⟨attr.getLsbD 3, attr.getLsbD 2, ?_, (Except.ok.inj h).symm⟩
    rw [txnBytes, hattr]
  split at h
  · next hkind =>
    obtain rfl : kind = 1 := by simpa using hkind
    split at h
    · cases h
    next hstray =>
    obtain ⟨hf, hc⟩ : attr.getLsbD 3 = false ∧ attr.getLsbD 2 = false := by simpa using hstray
    rw [hf, hc] at hattr
    refine .inr ⟨?_, (Except.ok.inj h).symm⟩
    rw [regBytes, hattr]
  · cases h

/-! ### R86's first table: the class that a transaction is sorted into -/

/-- What the row of a class fixes of the transaction itself (direction, fetch, cacheable property, width),
apart from the row's condition on the state, which is `View.admits`. -/
inductive TxnRow (a d : Word) : (w f c : Bool) → Size → Instr → Prop
  | txnRefused (c : Bool) (sz : Size) : TxnRow a d true true c sz (.txnRefused sz c a d)
  | writePage (c : Bool) (sz : Size) : TxnRow a d true false c sz (.writePage sz c a d)
  | writeOther (c : Bool) (sz : Size) : TxnRow a d true false c sz (.writeOther sz c a d)
  | dread (c : Bool) (sz : Size) : TxnRow a d false false c sz (.dread sz c a)
  | ifetchNc (c : Bool) (sz : Size) : TxnRow a d false true c sz (.ifetchNc sz c a)
  | ifetchCFirst : TxnRow a d false true true .b32 (.ifetchCFirst a)
  | ifetchCHitb : TxnRow a d false true true .b32 (.ifetchCHitb a)
  | ifetchCHitl : TxnRow a d false true true .b32 (.ifetchCHitl a)
  | ifetchCMiss : TxnRow a d false true true .b32 (.ifetchCMiss a)

/-- The rows of R86 exclude each other: a transaction of a row whose condition holds is sorted there. -/
theorem TxnRow.sortTxn_eq {a d : Word} {w f c : Bool} {sz : Size} {i : Instr} {v : View}
    (hrow : TxnRow a d w f c sz i) (hadm : v.admits i = true) : sortTxn v w f c sz a d = i := by
  cases hrow with
  | txnRefused => rfl
  | dread => rfl
  | writePage => simpa [sortTxn, View.admits] using hadm
  | writeOther => simpa [sortTxn, View.admits] using hadm
  | ifetchNc =>
    have hq : v.qualifies sz c a = false := by simpa [View.admits] using hadm
    simp [sortTxn, hq]
  | ifetchCFirst =>
    simp only [View.admits, Bool.and_eq_true] at hadm
    obtain ⟨hq, hfirst⟩ := hadm
    simp [sortTxn, hq, hfirst]
  | ifetchCHitb =>
    simp only [View.admits, Bool.and_eq_true, Bool.not_eq_true'] at hadm
    obtain ⟨⟨hq, hfirst⟩, hbuf⟩ := hadm
    simp [sortTxn, hq, hfirst, hbuf]
  | ifetchCHitl =>
    simp only [View.admits, Bool.and_eq_true, Bool.not_eq_true'] at hadm
    obtain ⟨⟨⟨hq, hfirst⟩, hbuf⟩, hline⟩ := hadm
    simpa [sortTxn, hq, hfirst, hbuf] using hline
  | ifetchCMiss =>
    simp only [View.admits, Bool.and_eq_true, Bool.not_eq_true'] at hadm
    obtain ⟨⟨⟨hq, hfirst⟩, hbuf⟩, hline⟩ := hadm
    simpa [sortTxn, hq, hfirst, hbuf] using hline

/-- Only a 32-bit fetch with the cacheable property qualifies (R100). -/
theorem size_cattr_of_qualifies {v : View} {sz : Size} {c : Bool} {a : Word}
    (h : v.qualifies sz c a = true) : sz = .b32 ∧ c = true := by
  simp only [View.qualifies, Bool.and_eq_true, beq_iff_eq] at h
  obtain ⟨⟨⟨hsz, hc⟩, -⟩, -⟩ := h
  exact ⟨hsz, hc⟩

/-- R86 is complete: the row that the sorting stops at is one of the transaction's, and its condition on the
state holds. -/
theorem sortTxn_row (v : View) (w f c : Bool) (sz : Size) (a d : Word) :
    TxnRow a d w f c sz (sortTxn v w f c sz a d) ∧ v.admits (sortTxn v w f c sz a d) = true := by
  match w, f with
  | true, true => exact ⟨.txnRefused c sz, rfl⟩
  | false, false => exact ⟨.dread c sz, rfl⟩
  | true, false =>
    by_cases hpage : pageOf a = v.page
    · rw [show sortTxn v true false c sz a d = .writePage sz c a d by simp [sortTxn, hpage]]
      exact ⟨.writePage c sz, by simp [View.admits, hpage]⟩
    · rw [show sortTxn v true false c sz a d = .writeOther sz c a d by simp [sortTxn, hpage]]
      exact ⟨.writeOther c sz, by simp [View.admits, hpage]⟩
  | false, true =>
    cases hq : v.qualifies sz c a with
    | false =>
      rw [show sortTxn v false true c sz a d = .ifetchNc sz c a by simp [sortTxn, hq]]
      exact ⟨.ifetchNc c sz, by simp [View.admits, hq]⟩
    | true =>
      obtain ⟨rfl, rfl⟩ := size_cattr_of_qualifies hq
      simp only [sortTxn, hq, Bool.and_true, Bool.not_true, Bool.false_eq_true, if_false]
      split
      next hfirst => exact ⟨.ifetchCFirst, by simp [View.admits, hq, hfirst]⟩
      next hfirst =>
      split
      next hbuf => exact ⟨.ifetchCHitb, by simpa [View.admits, hq, hfirst] using hbuf⟩
      next hbuf =>
      split
      next hline => exact ⟨.ifetchCHitl, by simpa [View.admits, hq, hfirst, hbuf] using hline⟩
      next hline => exact ⟨.ifetchCMiss, by simpa [View.admits, hq, hfirst, hbuf] using hline⟩

theorem TxnRow.wellFormed {a d : Word} {w f c : Bool} {sz : Size} {i : Instr}
    (hrow : TxnRow a d w f c sz i) (hfit : FieldsFit w sz a d) : i.wellFormed = true := by
  obtain ⟨hal, hholds, -⟩ := hfit
  cases hrow <;> simp [Instr.wellFormed, hal, hholds]

theorem TxnRow.encode_eq {a d : Word} {w f c : Bool} {sz : Size} {i : Instr}
    (hrow : TxnRow a d w f c sz i) (hfit : FieldsFit w sz a d) : encode i = some (txnBytes w f c sz a d) := by
  have hread := hfit.noDataOnRead
  cases hrow <;> simp [encode, hread]

/-! ### R86's second table: the class that a register access is sorted into -/

/-- What the row of a class fixes of an aligned register access: offset, direction and width. -/
inductive RegRow (d : Word) : (w : Bool) → Size → (off : Word) → Instr → Prop
  | ctrRd32 : RegRow d false .b32 0 .ctrRd32
  | ctrWr32 : RegRow d true .b32 0 (.ctrWr32 d)
  | ctrWrn (off : BitVec 2) (n : Narrow) : RegRow d true n.toSize (off.setWidth 32) (.ctrWrn off n d)
  | ctrRdn (off : BitVec 2) (n : Narrow) : RegRow d false n.toSize (off.setWidth 32) (.ctrRdn off n)
  | regOther (w : Bool) (sz : Size) (off : Word) (h : off.extractLsb' 2 30 ≠ 0) :
      RegRow d w sz off (.regOther w sz off d)

/-- A byte offset 0 to 3 is one of the bytes of ART_CTR. -/
theorem high_of_byteOffset (off : BitVec 2) : (off.setWidth 32).extractLsb' 2 30 = 0 := by
  revert off
  decide

theorem low_of_byteOffset (off : BitVec 2) : (off.setWidth 32).extractLsb' 0 2 = off := by
  revert off
  decide

/-- An offset of one of the bytes of ART_CTR is a byte offset 0 to 3. -/
theorem byteOffset_of_high_eq_zero {off : Word} (h : off.extractLsb' 2 30 = 0) :
    (off.extractLsb' 0 2).setWidth 32 = off := by
  have hnat := congrArg BitVec.toNat h
  apply BitVec.eq_of_toNat_eq
  simp only [BitVec.extractLsb'_toNat, BitVec.toNat_setWidth, Nat.shiftRight_eq_div_pow,
    BitVec.ofNat_eq_ofNat, BitVec.toNat_zero] at hnat ⊢
  omega

/-- R86 on the bytes of ART_CTR: the one 32-bit offset is 0. -/
theorem eq_zero_of_aligned {off : Word} (h : off.extractLsb' 2 30 = 0)
    (hal : Size.b32.alignedTo off = true) : off = 0 := by
  rw [← byteOffset_of_high_eq_zero h, show off.extractLsb' 0 2 = 0 by simpa [Size.alignedTo] using hal]
  rfl

theorem sortReg_byteOffset_write (off : BitVec 2) (n : Narrow) (d : Word) :
    sortReg true n.toSize (off.setWidth 32) d = .ctrWrn off n d := by
  cases n <;> simp [sortReg, Narrow.toSize, high_of_byteOffset, low_of_byteOffset]

theorem sortReg_byteOffset_read (off : BitVec 2) (n : Narrow) (d : Word) :
    sortReg false n.toSize (off.setWidth 32) d = .ctrRdn off n := by
  cases n <;> simp [sortReg, Narrow.toSize, high_of_byteOffset, low_of_byteOffset]

theorem sortReg_of_high_ne_zero {off : Word} (h : off.extractLsb' 2 30 ≠ 0) (w : Bool) (sz : Size) (d : Word) :
    sortReg w sz off d = .regOther w sz off d :=
  if_neg (by simpa using h)

theorem Size.eq_b32_or_narrow (sz : Size) : sz = .b32 ∨ ∃ n : Narrow, sz = n.toSize := by
  cases sz with
  | b8 => exact .inr ⟨.b8, rfl⟩
  | b16 => exact .inr ⟨.b16, rfl⟩
  | b32 => exact .inl rfl

/-- The rows exclude each other: a register access of a row is sorted there. -/
theorem RegRow.sortReg_eq {w : Bool} {sz : Size} {off d : Word} {i : Instr} (hrow : RegRow d w sz off i) :
    sortReg w sz off d = i := by
  cases hrow with
  | ctrRd32 => rfl
  | ctrWr32 => rfl
  | ctrWrn off n => exact sortReg_byteOffset_write off n d
  | ctrRdn off n => exact sortReg_byteOffset_read off n d
  | regOther _ _ _ hhigh => exact sortReg_of_high_ne_zero hhigh w sz d

/-- The table is complete: an aligned register access is sorted into a class whose row it is of. -/
theorem sortReg_row {sz : Size} {off : Word} (hal : sz.alignedTo off = true) (w : Bool) (d : Word) :
    RegRow d w sz off (sortReg w sz off d) := by
  by_cases hhigh : off.extractLsb' 2 30 = 0
  · obtain rfl | ⟨n, rfl⟩ := sz.eq_b32_or_narrow
    · obtain rfl := eq_zero_of_aligned hhigh hal
      cases w with
      | false => exact .ctrRd32
      | true => exact .ctrWr32
    · obtain ⟨k, rfl⟩ : ∃ k : BitVec 2, off = k.setWidth 32 := ⟨_, (byteOffset_of_high_eq_zero hhigh).symm⟩
      cases w with
      | false => rw [sortReg_byteOffset_read]; exact .ctrRdn k n
      | true => rw [sortReg_byteOffset_write]; exact .ctrWrn k n
  · rw [sortReg_of_high_ne_zero hhigh]
    exact .regOther w sz off hhigh

/-- The classes of register accesses have no condition on the state (R86). -/
theorem RegRow.admits {w : Bool} {sz : Size} {off d : Word} {i : Instr} (hrow : RegRow d w sz off i)
    (v : View) : v.admits i = true := by
  cases hrow <;> rfl

theorem RegRow.wellFormed {w : Bool} {sz : Size} {off d : Word} {i : Instr}
    (hrow : RegRow d w sz off i) (hfit : FieldsFit w sz off d) : i.wellFormed = true := by
  obtain ⟨hal, hholds, hread⟩ := hfit
  cases hrow with
  | ctrRd32 => rfl
  | ctrWr32 => rfl
  | ctrWrn off n => simp [Instr.wellFormed, hal, hholds]
  | ctrRdn off n => simp [Instr.wellFormed, hal]
  | regOther _ _ _ hhigh => cases w <;> simp_all [Instr.wellFormed]

theorem RegRow.encode_eq {w : Bool} {sz : Size} {off d : Word} {i : Instr}
    (hrow : RegRow d w sz off i) (hfit : FieldsFit w sz off d) : encode i = some (regBytes w sz off d) := by
  have hread := hfit.noDataOnRead
  cases hrow <;> simp [encode, hread]

/-! ### The obligations about the encoding -/

theorem decode_of_txnRow {v : View} {w f c : Bool} {sz : Size} {a d : Word} {i : Instr}
    (hfit : FieldsFit w sz a d) (hrow : TxnRow a d w f c sz i) (hadm : v.admits i = true) :
    decode v (txnBytes w f c sz a d) = .ok i := by
  rw [decode_txnBytes_of_fit hfit, hrow.sortTxn_eq hadm]

theorem decode_of_regRow {v : View} {w : Bool} {sz : Size} {off d : Word} {i : Instr}
    (hfit : FieldsFit w sz off d) (hrow : RegRow d w sz off i) : decode v (regBytes w sz off d) = .ok i := by
  rw [decode_regBytes_of_fit hfit, hrow.sortReg_eq]

theorem fieldsFit_of_wellFormed_regOther {w : Bool} {sz : Size} {off d : Word}
    (h : (Instr.regOther w sz off d).wellFormed = true) :
    FieldsFit w sz off d ∧ off.extractLsb' 2 30 ≠ 0 := by
  obtain ⟨⟨⟨hal, hhigh⟩, hholds⟩, hread⟩ :
      ((sz.alignedTo off = true ∧ off.extractLsb' 2 30 ≠ 0) ∧ sz.holds d = true) ∧ (w = true ∨ d = 0) := by
    simpa [Instr.wellFormed] using h
  exact ⟨⟨hal, hholds, fun hw => hread.resolve_left (by simp [hw])⟩, hhigh⟩

/-- Settles O1: the fields of a well-formed instruction's transfer fit and are of the row of its class, where
the sorting stops. -/
theorem encodedInstructionDecodesBack : Obligations.EncodedInstructionDecodesBack := by
  intro v i bs hwf hadm henc
  cases i <;> cases henc
  case txnRefused sz c a d => exact decode_of_txnRow (fieldsFit_of_write hwf) (.txnRefused c sz) hadm
  case writePage sz c a d => exact decode_of_txnRow (fieldsFit_of_write hwf) (.writePage c sz) hadm
  case writeOther sz c a d => exact decode_of_txnRow (fieldsFit_of_write hwf) (.writeOther c sz) hadm
  case dread sz c a => exact decode_of_txnRow (fieldsFit_of_read hwf) (.dread c sz) hadm
  case ifetchNc sz c a => exact decode_of_txnRow (fieldsFit_of_read hwf) (.ifetchNc c sz) hadm
  case ifetchCFirst a => exact decode_of_txnRow (fieldsFit_of_read hwf) .ifetchCFirst hadm
  case ifetchCHitb a => exact decode_of_txnRow (fieldsFit_of_read hwf) .ifetchCHitb hadm
  case ifetchCHitl a => exact decode_of_txnRow (fieldsFit_of_read hwf) .ifetchCHitl hadm
  case ifetchCMiss a => exact decode_of_txnRow (fieldsFit_of_read hwf) .ifetchCMiss hadm
  case ctrRd32 => exact decode_of_regRow (fieldsFit_of_read rfl) .ctrRd32
  case ctrWr32 w => exact decode_of_regRow (fieldsFit_of_write rfl) .ctrWr32
  case ctrWrn off n d => exact decode_of_regRow (fieldsFit_of_write hwf) (.ctrWrn off n)
  case ctrRdn off n => exact decode_of_regRow (fieldsFit_of_read hwf) (.ctrRdn off n)
  case regOther w sz off d =>
    obtain ⟨hfit, hhigh⟩ := fieldsFit_of_wellFormed_regOther hwf
    exact decode_of_regRow hfit (.regOther w sz off hhigh)

/-- Settles O2: the decoder reads fields that fit and sorts them into a class whose row they are of. -/
theorem decodedTransferEncodesBack : Obligations.DecodedTransferEncodesBack := by
  intro v bs i h
  obtain ⟨w, sz, a, d, hfit, ⟨f, c, rfl, rfl⟩ | ⟨rfl, rfl⟩⟩ := exists_fields_of_decode h
  · obtain ⟨hrow, hadm⟩ := sortTxn_row v w f c sz a d
    exact ⟨hrow.wellFormed hfit, hadm, hrow.encode_eq hfit⟩
  · have hrow := sortReg_row hfit.aligned w d
    exact ⟨hrow.wellFormed hfit, hrow.admits v, hrow.encode_eq hfit⟩

/-- Settles O3, vector by vector. -/
theorem specWordsDecode : Obligations.SpecWordsDecode := by
  refine ⟨?fetchNc, ?dread, ?writePage, ?writeOther, ?first, ?miss, ?lineHit, ?bufferHit, ?ctrWr32⟩ <;> decide

end Sys2Proof

namespace Sys2Proof.Machine

/-- Settles O4: what is next with no refill in progress is the transfer, run as it is sorted. -/
theorem stepRunsDecodedInstruction : Obligations.StepRunsDecodedInstruction :=
  fun _ _ _ _ hr hin hd => step_of_decode hr hin hd

/-- R86: the class has no meaning but its refusal. -/
theorem exec_txnRefused (sz : Size) (c : Bool) (a d : Word) (s : State) :
    exec (.txnRefused sz c a d) s = .refused .writeAndFetch := rfl

/-- Settles O58: the class's arm looks at neither the state nor the operands. -/
theorem writeAndFetchIsRefused : Obligations.WriteAndFetchIsRefused :=
  fun s sz cattr a d => exec_txnRefused sz cattr a d s

end Sys2Proof.Machine

namespace Sys2Proof.Machine

/-! ### The non-cacheable path: what is forwarded is answered with the memory's answer (R108, R109) -/

theorem ahbmData_of_error {s : State} {a : Word} (sz : Size) (h : answerTo s .ahbm false a = some .error) :
    ahbmData s sz a = none := if_pos h

theorem ahbmTakes_of_error {s : State} {a : Word} (h : answerTo s .ahbm true a = some .error) :
    ahbmTakes s a = false := by simp [ahbmTakes, h]

theorem ne_silent_of_error {s : State} {p : Port} {wr : Bool} {a : Word}
    (h : answerTo s p wr a = some .error) : answerTo s p wr a ≠ some .silent := by simp [h]

/-- A forwarded read that the memory answers at all is answered with its answer, data or ERROR; the trace, the
read's own effect and `primed` as it is set before are all that changes (R61, R109). -/
theorem forwardRead_setPrimed_answered {s : State} {a : Word} (sz : Size) (p : Bool)
    (h : answerTo s .ahbm false a ≠ some .silent) :
    ∃ t : State, forwardRead sz a (setPrimed p s) = .next t ∧
      t.trace = .response (readResp sz (ahbmData s sz a)) :: .ahbmRead a sz (ahbmData s sz a) :: s.trace ∧
      SameCache s t ∧ t.primed = p ∧ t.mem = memAfterRead s .ahbm a ∧ SameSurroundings s t := by
  obtain ⟨t, ht⟩ : ∃ t, forwardRead sz a (setPrimed p s) = .next t := by
    unfold forwardRead
    split
    next hsilent => exact absurd hsilent h
    next => exact ⟨_, rfl⟩
    next => exact ⟨_, rfl⟩
  have htrace := forwardRead_trace ht
  obtain ⟨v, r, rfl, -⟩ := forwardRead_cases ht
  exact ⟨_, ht, htrace, ⟨rfl, rfl, rfl, rfl, rfl⟩, rfl, rfl, rfl, rfl, rfl, rfl, rfl, rfl⟩

/-- A store leaves the covered bytes written and every other byte as it was (R57). -/
theorem memoryAfterStore_storeAt {m : List Host.Cell} (hm : Memory.wf m) (a d : Word) (sz : Size) :
    MemoryAfterStore m (storeAt m a d sz) a d sz :=
  ⟨fun _ hk => byteAt_storeAt hm a d sz hk, fun n hn => readByte_storeAt_ne m a d sz n hn⟩

/-- The memory after a write on AHBM that is answered: stored, or as it was if the write is ignored or answered
ERROR (logs 26, 41). -/
def memAfterWrite (s : State) (sz : Size) (a d : Word) : List Host.Cell :=
  if ahbmStores s a then storeAt s.mem a d sz else s.mem

theorem memAfterWrite_of_error {s : State} {a : Word} (sz : Size) (d : Word)
    (h : answerTo s .ahbm true a = some .error) : memAfterWrite s sz a d = s.mem := by
  simp [memAfterWrite, ahbmStores, h]

theorem memAfterWrite_spec {s : State} (hm : Memory.wf s.mem) (sz : Size) (a d : Word) :
    if ahbmStores s a then MemoryAfterStore s.mem (memAfterWrite s sz a d) a d sz
    else memAfterWrite s sz a d = s.mem := by
  unfold memAfterWrite
  split
  · exact memoryAfterStore_storeAt hm a d sz
  · rfl

/-- A forwarded write that the memory answers at all, said once for its answers: the memory is written, then
the class has its own effect, then the memory's answer is the response (R109). -/
theorem forwardWrite_setPrimed_answered {s : State} {a : Word} (sz : Size) (d : Word)
    (before : State → State) (p : Bool) (h : answerTo s .ahbm true a ≠ some .silent) :
    forwardWrite sz a d before (setPrimed p s) =
      .next (respond (if ahbmTakes s a then .okay else .error)
        (before (emit (.ahbmWrite a sz d (ahbmTakes s a))
          (setMem (memAfterWrite s sz a d) (setPrimed p s))))) := by
  unfold forwardWrite
  rw [answerTo_setPrimed]
  cases hans : answerTo s .ahbm true a with
  | none =>
    have htakes : ahbmTakes s a = true := by simp [ahbmTakes, hans]
    have hmem : memAfterWrite s sz a d = storeAt s.mem a d sz := by simp [memAfterWrite, ahbmStores, hans]
    rw [htakes, hmem]
    rfl
  | some answer =>
    cases answer with
    | silent => exact absurd hans h
    | error =>
      rw [ahbmTakes_of_error hans, memAfterWrite_of_error sz d hans]
      rfl
    | ignored =>
      have htakes : ahbmTakes s a = true := by simp [ahbmTakes, hans]
      have hmem : memAfterWrite s sz a d = s.mem := by simp [memAfterWrite, ahbmStores, hans]
      rw [htakes, hmem]
      rfl

theorem admits_ifetchNc_iff {sz : Size} {c : Bool} {a : Word} {s : State} :
    (view s).admits (.ifetchNc sz c a) = true ↔
      ¬ (sz = .b32 ∧ c = true ∧ pageOf a = pcacheaddr s ∧ enabled s = true) := by
  simp only [View.admits, View.qualifies, view_page, view_en, Bool.not_eq_true', ← Bool.not_eq_true,
    Bool.and_eq_true, beq_iff_eq, and_assoc]

/-! ### The classes of the non-cacheable path -/

/-- Settles O15: DREAD is the forwarded read, `primed` set as for an access that does not qualify. -/
theorem dataReadIsForwarded : Obligations.DataReadIsForwarded := by
  intro s sz c a h
  rw [exec_dread, noteNotQualifying_eq]
  exact forwardRead_setPrimed_answered sz _ h

/-- Settles O16: a fetch that does not qualify is of the class, which forwards it. -/
theorem nonCacheableFetchIsForwarded : Obligations.NonCacheableFetchIsForwarded := by
  intro s sz c a hnot h
  rw [exec_ifetchNc_of_admits (admits_ifetchNc_iff.2 hnot), noteNotQualifying_eq]
  exact forwardRead_setPrimed_answered sz _ h

/-- Settles O17: the first qualifying fetch sets `primed` and is forwarded. -/
theorem firstCacheableAccessIsForwarded : Obligations.FirstCacheableAccessIsForwarded := by
  intro s a hpage hen hfirst h
  rw [exec_ifetchCFirst_of_admits (admits_ifetchCFirst_iff.2 ⟨⟨hpage, hen⟩, hfirst⟩)]
  exact forwardRead_setPrimed_answered .b32 true h

/-- R106: a write outside the page that is answered is in the trace with its answer, and changes the memory as
the write does; the cache is as it was. -/
theorem exec_writeOther_answered {s : State} {a : Word} (sz : Size) (c : Bool) (d : Word)
    (hpage : pageOf a ≠ pcacheaddr s) (h : answerTo s .ahbm true a ≠ some .silent) :
    ∃ t : State, exec (.writeOther sz c a d) s = .next t ∧
      t.trace = .response (if ahbmTakes s a then .okay else .error) ::
        .ahbmWrite a sz d (ahbmTakes s a) :: s.trace ∧
      t.mem = memAfterWrite s sz a d ∧
      SameCache s t ∧ t.primed = primedAfterNotQualifying s ∧ SameSurroundings s t := by
  rw [exec_writeOther_of_ne hpage, noteNotQualifying_eq, forwardWrite_setPrimed_answered sz d id _ h]
  exact ⟨_, rfl, rfl, rfl, ⟨rfl, rfl, rfl, rfl, rfl⟩, rfl, rfl, rfl, rfl, rfl, rfl, rfl⟩

/-- Settles O20: what a write that is answered leaves in the memory is a store, or what was there. -/
theorem writeOutsidePageIsForwarded : Obligations.WriteOutsidePageIsForwarded := by
  intro s sz c a d hm hpage h
  obtain ⟨t, ht, htrace, hmem, hframe⟩ := exec_writeOther_answered sz c d hpage h
  exact ⟨t, ht, htrace, hmem ▸ memAfterWrite_spec hm sz a d, hframe⟩

/-! ### ERROR on the non-cacheable path -/

/-- Each reading class of the non-cacheable path is a forwarded read, but for what it does to `primed`. -/
theorem exec_reading_class {s : State} {i : Instr} {sz : Size} {c : Bool} {a : Word}
    (hi : i = .dread sz c a ∨ i = .ifetchNc sz c a ∨ i = .ifetchCFirst a) (h : (view s).admits i = true) :
    ∃ (z : Size) (p : Bool), exec i s = forwardRead z a (setPrimed p s) := by
  obtain rfl | rfl | rfl := hi
  · exact ⟨sz, _, by rw [exec_dread, noteNotQualifying_eq]⟩
  · exact ⟨sz, _, by rw [exec_ifetchNc_of_admits h, noteNotQualifying_eq]⟩
  · exact ⟨.b32, true, exec_ifetchCFirst_of_admits h⟩

/-- Settles O18: the answer that the memory gives the forwarded access is the response, and ERROR is one. -/
theorem forwardedErrorIsPassedBack : Obligations.ForwardedErrorIsPassedBack := by
  intro s i sz c a d hadm
  refine ⟨fun hi herr => ?reads, fun hi herr => ?write⟩
  case reads =>
    obtain ⟨z, p, hexec⟩ := exec_reading_class hi hadm
    obtain ⟨t, ht, htrace, hcache, -, hmem, hsurr⟩ :=
      forwardRead_setPrimed_answered z p (ne_silent_of_error herr)
    rw [ahbmData_of_error z herr] at htrace
    exact ⟨t, hexec.trans ht, by rw [htrace]; rfl, hcache, hmem, hsurr⟩
  case write =>
    subst hi
    obtain ⟨t, ht, htrace, hmem, hcache, -, hsurr⟩ :=
      exec_writeOther_answered sz c d (admits_writeOther_iff.1 hadm) (ne_silent_of_error herr)
    rw [ahbmTakes_of_error herr] at htrace
    exact ⟨t, ht, by rw [htrace]; rfl, hcache, hmem.trans (memAfterWrite_of_error sz d herr), hsurr⟩

/-- Settles O42: the flush stands before the answer, whichever answer the memory gives. -/
theorem failedWriteToPageStillInvalidates : Obligations.FailedWriteToPageStillInvalidates := by
  intro s sz c a d hpage herr hactive
  have hforwarded (e : PortEvent) (m : List Host.Cell) (p : Bool) :
      writeDetectActive (emit e (setMem m (setPrimed p s))) = true := hactive
  rw [exec_writePage_of_eq hpage, noteNotQualifying_eq,
    forwardWrite_setPrimed_answered sz d _ _ (ne_silent_of_error herr), ahbmTakes_of_error herr,
    memAfterWrite_of_error sz d herr]
  rw [if_pos (hforwarded _ _ _)]
  exact ⟨_, rfl, rfl, nothingValid_congr rfl rfl (flush_nothingValid _), rfl, rfl⟩

/-! ### The cacheable path: which transfers are sorted into it, and which of them as the first -/

/-- A class of the cacheable path admits a transaction only if it qualifies (R86, R100). -/
theorem qualifies_of_admits {v : View} {i : Instr} {a : Word}
    (hi : i = .ifetchCFirst a ∨ i = .ifetchCHitb a ∨ i = .ifetchCHitl a ∨ i = .ifetchCMiss a)
    (h : v.admits i = true) : v.qualifies .b32 true a = true := by
  obtain rfl | rfl | rfl | rfl := hi <;> simp only [View.admits, Bool.and_eq_true] at h
  · obtain ⟨hq, -⟩ := h
    exact hq
  · obtain ⟨⟨hq, -⟩, -⟩ := h
    exact hq
  · obtain ⟨⟨⟨hq, -⟩, -⟩, -⟩ := h
    exact hq
  · obtain ⟨⟨⟨hq, -⟩, -⟩, -⟩ := h
    exact hq

theorem qualifies_view_iff {s : State} {a : Word} :
    (view s).qualifies .b32 true a = true ↔ pageOf a = pcacheaddr s ∧ enabled s = true := by
  simp [View.qualifies]

/-- The bytes of every class of the cacheable path are those of the 32-bit cacheable fetch (R92). -/
theorem encode_of_cacheable {i : Instr} {a : Word}
    (hi : i = .ifetchCFirst a ∨ i = .ifetchCHitb a ∨ i = .ifetchCHitl a ∨ i = .ifetchCMiss a) :
    encode i = some (fetchBytes a) := by
  obtain rfl | rfl | rfl | rfl := hi <;> rfl

/-- R86 on a fetch that qualifies: the rows from the first cacheable access down. -/
theorem sortTxn_of_qualifies {v : View} {a : Word} (h : v.qualifies .b32 true a = true) :
    sortTxn v false true true .b32 a 0 =
      if v.firstNow then .ifetchCFirst a
      else if v.bufTag == some (indexOf a) then .ifetchCHitb a
      else if v.lineTags.contains (indexOf a) then .ifetchCHitl a
      else .ifetchCMiss a := by
  simp [sortTxn, h]

theorem decode_fetchBytes_of_aligned {a : Word} (hal : Size.b32.alignedTo a = true) (v : View) :
    decode v (fetchBytes a) = .ok (sortTxn v false true true .b32 a 0) :=
  decode_txnBytes_of_fit (fieldsFit_of_read hal) v true true

theorem aligned_of_decode_fetchBytes {v : View} {a : Word} {i : Instr}
    (h : decode v (fetchBytes a) = .ok i) : Size.b32.alignedTo a = true := by
  rw [fetchBytes, decode_txnBytes] at h
  split at h
  next => cases h
  next hal => simpa using hal

/-- Settles O5: what is decoded is admitted by its class and encodes back; conversely a fetch that qualifies is
sorted by the rows of the cacheable path. -/
theorem cacheableExactlyWhenQualified : Obligations.CacheableExactlyWhenQualified := by
  intro s bs i h
  constructor
  · rintro ⟨a, hi⟩
    obtain ⟨-, hadm, henc⟩ := decodedTransferEncodesBack (view s) bs i h
    have hbs : bs = fetchBytes a := Option.some.inj (henc.symm.trans (encode_of_cacheable hi))
    exact ⟨a, hbs, qualifies_view_iff.1 (qualifies_of_admits hi hadm)⟩
  · rintro ⟨a, rfl, hpage, hen⟩
    rw [decode_fetchBytes_of_aligned (aligned_of_decode_fetchBytes h),
      sortTxn_of_qualifies (qualifies_view_iff.2 ⟨hpage, hen⟩)] at h
    refine ⟨a, ?_⟩
    obtain rfl := Except.ok.inj h
    split
    next => exact .inl rfl
    next =>
    split
    next => exact .inr (.inl rfl)
    next =>
    split
    next => exact .inr (.inr (.inl rfl))
    next => exact .inr (.inr (.inr rfl))

/-- Of the fetches that qualify, the first ones and no others are sorted as IFETCH.C.FIRST (R102). -/
theorem decode_fetchBytes_eq_first_iff {s : State} {a : Word} (hal : Size.b32.alignedTo a = true)
    (hpage : pageOf a = pcacheaddr s) (hen : enabled s = true) :
    decode (view s) (fetchBytes a) = .ok (.ifetchCFirst a) ↔ firstNow s = true := by
  rw [decode_fetchBytes_of_aligned hal, sortTxn_of_qualifies (qualifies_view_iff.2 ⟨hpage, hen⟩),
    view_firstNow]
  constructor
  · intro h
    by_contra hfirst
    rw [if_neg hfirst] at h
    split at h
    next => cases h
    next =>
    split at h <;> cases h
  · intro hfirst
    rw [if_pos hfirst]

theorem firstNow_of_not_primed {s : State} (h : s.primed = false) : firstNow s = true := by
  simp [firstNow, h]

/-- Once `primed` is set, only the policy `any` makes a further access the first, by its draw (R102, D10). -/
theorem firstNow_iff_of_primed {s : State} (h : s.primed = true) :
    firstNow s = true ↔ s.draws.first = true ∧ Config.firstAccessPolicy = .any := by
  simp [firstNow, h]

/-- Settles O8: by R102's column for each policy. -/
theorem firstAccessReadsPrimed : Obligations.FirstAccessReadsPrimed := by
  intro s a hal hpage hen
  have hiff := decode_fetchBytes_eq_first_iff hal hpage hen
  refine ⟨fun hp => hiff.2 (firstNow_of_not_primed hp), fun hp => ?primed, hiff⟩
  case primed =>
    rw [ne_eq, hiff, firstNow_iff_of_primed hp]
    split <;> next e => simp [e]

end Sys2Proof.Machine

namespace Sys2Proof.Machine

/-! ### The hit check (R120, R123) -/

theorem bufMatch_iff (s : State) (idx : Index) :
    bufMatch s idx = true ↔ s.buf.valid = true ∧ s.buf.index = idx := by
  simp [bufMatch]

/-- A cacheable fetch that is not the first is sorted by the compare alone, the buffer before the lines. -/
theorem decode_fetchBytes_of_not_first {s : State} {a : Word} (hal : Size.b32.alignedTo a = true)
    (hpage : pageOf a = pcacheaddr s) (hen : enabled s = true) (hf : firstNow s = false) :
    decode (view s) (fetchBytes a) =
      .ok (if bufMatch s (indexOf a) then .ifetchCHitb a
        else if indexOf a ∈ validTags s then .ifetchCHitl a
        else .ifetchCMiss a) := by
  rw [decode_fetchBytes_of_aligned hal, sortTxn_of_qualifies (qualifies_view_iff.2 ⟨hpage, hen⟩), view_firstNow,
    bufTag_iff]
  simp [hf]

/-- Settles O6: the three rows of the compare, each by what the buffer and the valid lines hold. -/
theorem hitCheckComparesValidIndexes : Obligations.HitCheckComparesValidIndexes := by
  intro s a hal hpage hen hf
  rw [decode_fetchBytes_of_not_first hal hpage hen hf]
  refine ⟨fun hbuf => ?bufferHit, fun hbuf => ⟨fun hline => ?lineHit, fun hline => ?miss⟩⟩
  case bufferHit => rw [if_pos ((bufMatch_iff s _).2 hbuf)]
  case lineHit => rw [if_neg (mt (bufMatch_iff s _).1 hbuf), if_pos (mem_validTags.2 hline)]
  case miss =>
    have hnone : indexOf a ∉ validTags s := mt mem_validTags.1 (not_exists.2 hline)
    rw [if_neg (mt (bufMatch_iff s _).1 hbuf), if_neg hnone]

/-- Settles O7: the compare has three outcomes, and each decides the class; the valid lines' indexes differ. -/
theorem compareMatchIsAHit : Obligations.CompareMatchIsAHit := by
  intro s a i hinv hpage hen hf hdec
  obtain ⟨hitb, hrest⟩ := hitCheckComparesValidIndexes s a (aligned_of_decode_fetchBytes hdec) hpage hen hf
  have sorted : ∀ {k : Instr}, decode (view s) (fetchBytes a) = .ok k → i = k := fun hk =>
    Except.ok.inj (hdec.symm.trans hk)
  obtain ⟨-, htags, -⟩ := hinv
  rw [← and_assoc]
  refine ⟨?_, fun l k hl hli hk hki => htags l k hl hk (hli.trans hki.symm)⟩
  by_cases hbuf : s.buf.valid = true ∧ s.buf.index = indexOf a
  · obtain rfl := sorted (hitb hbuf)
    simp [hbuf]
  obtain ⟨hitl, hmiss⟩ := hrest hbuf
  by_cases hline : ∃ l, (line s l).valid = true ∧ (line s l).index = indexOf a
  · obtain rfl := sorted (hitl hline)
    simp only [← not_exists]
    simp [hline]
  · obtain rfl := sorted (hmiss (not_exists.1 hline))
    simp only [← not_exists]
    simp [hbuf, hline]

/-! ### Hits -/

/-- Settles O23: the answer, the copy and the use, in this order, and nothing else. -/
theorem lineHitReturnsTheSegment : Obligations.LineHitReturnsTheSegment := by
  intro s a hadm
  obtain ⟨i, hvalid, hindex, hexec⟩ := exec_ifetchCHitl_of_admits hadm
  exact ⟨_, i, hexec, hvalid, hindex, rfl, rfl, hindex, rfl, fun j => arrivedAt_replicate true j, rfl,
    rfl, rfl, rfl, rfl, rfl, rfl, rfl, rfl, rfl, rfl, rfl⟩

/-- R125: where one line alone matches, it is the line used. -/
theorem touchMatching_of_unique {s : State} {idx : Index} {i : LineNo} (hv : (line s i).valid = true)
    (hx : (line s i).index = idx)
    (huniq : ∀ j, (line s j).valid = true → (line s j).index = idx → j = i) :
    touchMatching idx s = touch i s := by
  obtain ⟨j, hj, e⟩ | ⟨hnone, -⟩ := touchMatching_cases idx s
  · obtain ⟨hjv, hjx⟩ := findLine_some hj
    rw [e, huniq j hjv hjx]
  · exact absurd hx (findLine_none.1 hnone i hv)

/-- R125: where no line matches, none is used. -/
theorem touchMatching_of_none {s : State} {idx : Index}
    (h : ∀ i, (line s i).valid = true → (line s i).index ≠ idx) : touchMatching idx s = s := by
  rw [touchMatching, findLine_none.2 h]

/-- The answer and the use are independent. -/
theorem touchMatching_respond (idx : Index) (r : Resp) (s : State) :
    touchMatching idx (respond r s) = respond r (touchMatching idx s) := by
  rw [touchMatching, touchMatching, show findLine (respond r s) idx = findLine s idx from rfl]
  cases findLine s idx <;> rfl

/-- Settles O24: the answer leaves the cache as it is, and the use changes the recency order alone. -/
theorem bufferHitReturnsTheSegment : Obligations.BufferHitReturnsTheSegment := by
  intro s a hadm hq
  have hexec := exec_ifetchCHitb_of_arrived hadm hq
  rw [touchMatching_respond] at hexec
  obtain ⟨l, hframe⟩ := touchMatching_eq (indexOf a) s
  refine ⟨_, hexec, ?trace, fun i hv hx huniq => ?used, fun hno => ?unused, ?frame⟩
  case used => rw [respond_lru, touchMatching_of_unique hv hx huniq, touch_lru]
  case unused => rw [respond_lru, touchMatching_of_none hno]
  case trace => rw [respond_trace, hframe]
  case frame =>
    rw [hframe]
    exact ⟨rfl, rfl, rfl, rfl, rfl, rfl, rfl, rfl, rfl, rfl, rfl, rfl⟩

/-- Settles O25: the beat is one of a refill whose first beat has been, so that it answers nothing. -/
theorem bufferHitWaitsForItsBeat : Obligations.BufferHitWaitsForItsBeat := by
  intro s a r hadm hq hr hdone hreads
  refine ⟨_, (exec_ifetchCHitb_of_not_arrived hr hadm hq).trans (beat_normal hr hreads), ?_, ?_, ?_, ?_, ?_⟩
  · rw [takeBeat_inputs]; rfl
  · rw [takeBeat_trace, if_neg hdone]; rfl
  · rw [takeBeat_artCtr]; rfl
  · rw [takeBeat_primed]; rfl
  · rw [takeBeat_mem]; rfl

/-! ### The recency order (R35, R125) -/

theorem CacheKept.lru_eq {s t : State} (h : CacheKept s t) : t.lru = s.lru := by
  obtain ⟨⟨-, -, -, hlru, -⟩, -⟩ := h
  exact hlru

/-- The next beat of the refill in progress is the fourth, which completes it (R146). -/
def FourthBeatIsNext (s : State) : Prop := ∃ r : Refill, s.refill = some r ∧ r.done = 3

/-- A beat, answered with data or ERROR, is no use but for the fourth. -/
theorem beat_lru {s t : State} (h : beat s = .next t) : t.lru = s.lru ∨ FourthBeatIsNext s := by
  obtain hd | ⟨r, d, u, hr, hu, rfl⟩ := beat_effect h
  · exact .inl hd.lru
  · rw [takeBeat_lru]
    split
    next h3 => exact .inr ⟨r, hr, h3⟩
    next => exact .inl hu.lru_eq

theorem waitForBeat_lru {bs : List Byte} {s t : State} (h : waitForBeat bs s = .next t) :
    t.lru = s.lru ∨ FourthBeatIsNext s := by
  obtain rfl | hbeat := waitForBeat_cases h
  · exact .inl rfl
  · have hlru := beat_lru hbeat
    exact hlru

theorem execIfetchCHitb_lru {a : Word} {s t : State} (h : execIfetchCHitb a s = .next t)
    (hq : ¬ arrivedAt s.buf.arrived (quarterOf a) = true) : t.lru = s.lru ∨ FourthBeatIsNext s := by
  obtain ⟨-, h⟩ := inClass_eq_next h
  rw [if_neg hq] at h
  exact waitForBeat_lru h

/-- A miss performs the first beat of its refill. -/
theorem execIfetchCMiss_lru {a : Word} {s t : State} (h : execIfetchCMiss a s = .next t) : t.lru = s.lru := by
  obtain ⟨-, h⟩ := inClass_eq_next h
  obtain hlru | ⟨r, hr, h3⟩ := beat_lru h
  · exact hlru
  · obtain rfl := Option.some.inj ((refill_startRefill_eq_missRefill a s).symm.trans hr)
    cases h3

theorem execWritePage_lru {sz : Size} {c : Bool} {a d : Word} {s t : State}
    (h : execWritePage sz c a d s = .next t) : t.lru = s.lru := by
  obtain ⟨-, h⟩ := inClass_eq_next h
  obtain ⟨u, hu, ht⟩ := forwardWrite_before h
  have hsu : u.lru = s.lru := ((noteNotQualifying_kept s).trans hu).lru_eq
  split at ht <;> exact ht.lru_eq.trans hsu

theorem setCtr_lru (page : Page) (en : Bool) (s : State) : (setCtr page en s).lru = s.lru := by
  obtain ⟨p, u, rfl | rfl, e⟩ := setCtr_cases page en s <;> rw [e]
  rfl

theorem execCtrWr32_lru {w : Word} {s t : State} (h : execCtrWr32 w s = .next t) : t.lru = s.lru := by
  obtain ⟨-, h⟩ | ⟨-, rfl⟩ := writeAccess_cases h
  · split at h
    · obtain rfl := Host.Outcome.next.inj h
      exact setCtr_lru _ _ s
    · cases h
  · rfl

theorem execCtrWrn_lru {off : BitVec 2} {n : Narrow} {d : Word} {s t : State}
    (h : execCtrWrn off n d s = .next t) : t.lru = s.lru := by
  obtain ⟨-, h⟩ | ⟨-, rfl⟩ := writeAccess_cases h
  · obtain rfl := Host.Outcome.next.inj h
    split
    · obtain ⟨e, -⟩ | ⟨-, -, e⟩ := narrowWriteEn_cases s <;> rw [e] <;> rfl
    · rfl
  · rfl

/-- Settles O57: every instruction but the uses and the reset keeps the order. -/
theorem onlyUsesChangeRecency : Obligations.OnlyUsesChangeRecency := by
  intro s t i h hne
  cases i with
  | txnRefused sz c a d => cases h
  | writePage sz c a d => exact absurd (execWritePage_lru h) hne
  | writeOther sz c a d => exact absurd (execWriteOther_kept h).lru_eq hne
  | dread sz c a => exact absurd ((noteNotQualifying_kept s).trans (forwardRead_kept h)).lru_eq hne
  | ifetchNc sz c a => exact absurd (execIfetchNc_kept h).lru_eq hne
  | ifetchCFirst a => exact absurd (execIfetchCFirst_kept h).lru_eq hne
  | ifetchCHitb a =>
    by_cases hq : arrivedAt s.buf.arrived (quarterOf a) = true
    · exact .inr (.inl ⟨a, rfl, hq⟩)
    · have hfourth := (execIfetchCHitb_lru h hq).resolve_left hne
      exact .inr (.inr (.inl ⟨hfourth, .inr ⟨a, rfl, Bool.eq_false_of_not_eq_true hq⟩⟩))
  | ifetchCHitl a => exact .inl ⟨a, rfl⟩
  | ifetchCMiss a => exact absurd (execIfetchCMiss_lru h) hne
  | ctrRd32 => exact absurd (readAccess_kept h).lru_eq hne
  | ctrWr32 w => exact absurd (execCtrWr32_lru h) hne
  | ctrWrn off n d => exact absurd (execCtrWrn_lru (n := n) (d := d) h) hne
  | ctrRdn off n => exact absurd (readAccess_kept h).lru_eq hne
  | regOther write sz off d => cases h
  | refillBeat => exact .inr (.inr (.inl ⟨(beat_lru h).resolve_left hne, .inl rfl⟩))
  | refillErr => exact absurd (execRefillErr_dropped h).lru hne
  | invalidateAll => exact absurd (congrArg State.lru (Host.Outcome.next.inj h).symm) hne
  | reset => exact .inr (.inr (.inr rfl))

end Sys2Proof.Machine

namespace Sys2Proof.Machine

/-! ### A beat that the memory answers with data (R143 to R146) -/

/-- The state after a beat of the refill `r` whose read is answered with data: the read has had its effect, and
its 64 bits are taken. -/
def afterBeat (r : Refill) (s : State) : State :=
  takeBeat r (beatAt s.mem (beatAddr r)) (takeEffect .axim (beatAddr r) s)

theorem exec_refillBeat_of_reads {s : State} {r : Refill} (hr : s.refill = some r)
    (h : ReadsNormally s .axim (beatAddr r)) : exec .refillBeat s = .next (afterBeat r s) := beat_normal hr h

@[simp] theorem afterBeat_artCtr (r : Refill) (s : State) : (afterBeat r s).artCtr = s.artCtr :=
  takeBeat_artCtr _ _ _

@[simp] theorem afterBeat_primed (r : Refill) (s : State) : (afterBeat r s).primed = s.primed :=
  takeBeat_primed _ _ _

@[simp] theorem afterBeat_mem (r : Refill) (s : State) :
    (afterBeat r s).mem = memAfterRead s .axim (beatAddr r) := takeBeat_mem _ _ _

theorem afterBeat_sameSurroundings (r : Refill) (s : State) : SameSurroundings s (afterBeat r s) :=
  ⟨takeBeat_answers _ _ _, takeBeat_readEffects _ _ _, takeBeat_privileged _ _ _, takeBeat_inputs _ _ _,
    takeBeat_draws _ _ _, takeBeat_tick _ _ _⟩

theorem afterBeat_refill (r : Refill) (s : State) :
    (afterBeat r s).refill = if r.done = 3 then none else some { r with done := r.done + 1 } :=
  takeBeat_refill _ _ _

theorem afterBeat_lru (r : Refill) (s : State) :
    (afterBeat r s).lru = if r.done = 3 then r.victim :: s.lru.erase r.victim else s.lru := takeBeat_lru _ _ _

theorem afterBeat_buf_valid (r : Refill) (s : State) :
    (afterBeat r s).buf.valid = (s.buf.valid || r.done == 0) := congrArg Buffer.valid (takeBeat_buf _ _ _)

theorem afterBeat_buf_index (r : Refill) (s : State) : (afterBeat r s).buf.index = s.buf.index := by
  rw [afterBeat, takeBeat_buf]
  rfl

theorem afterBeat_arrived (r : Refill) (s : State) (j : BitVec 2) :
    arrivedAt (afterBeat r s).buf.arrived j = (arrivedAt s.buf.arrived j || j == beatQuarter r) := by
  rw [afterBeat, takeBeat_buf]
  exact arrivedAt_markArrived _ _ _

theorem afterBeat_victim_valid (r : Refill) (s : State) :
    (line (afterBeat r s) r.victim).valid = ((line s r.victim).valid || r.done == 3) :=
  congrArg Line.valid (takeBeat_line_victim _ _ _)

theorem afterBeat_victim_index (r : Refill) (s : State) :
    (line (afterBeat r s) r.victim).index = (line s r.victim).index := by
  rw [afterBeat, takeBeat_line_victim]
  rfl

theorem afterBeat_line_ne (r : Refill) (s : State) {i : LineNo} (h : i ≠ r.victim) :
    line (afterBeat r s) i = line s i := takeBeat_line_ne _ _ _ h

/-- R143, R58: the segments of the beat's quarter, in the buffer and in the selected line alike. -/
theorem afterBeat_segs (r : Refill) (s : State) (k : BitVec 3) :
    segAt (afterBeat r s).buf.seg k =
      (if quarterOfSeg k = beatQuarter r then
        (beatAt s.mem (beatAddr r)).extractLsb' (32 * (k.toNat % 2)) 32 else segAt s.buf.seg k) ∧
    segAt (line (afterBeat r s) r.victim).seg k =
      (if quarterOfSeg k = beatQuarter r then
        (beatAt s.mem (beatAddr r)).extractLsb' (32 * (k.toNat % 2)) 32
      else segAt (line s r.victim).seg k) := by
  rw [afterBeat, takeBeat_buf, takeBeat_line_victim]
  exact ⟨segAt_putBeat _ _ _ _, segAt_putBeat _ _ _ _⟩

/-- R58: in the beat's quarter these are the words of the block. -/
theorem afterBeat_segs_read {r : Refill} {k : BitVec 3} (s : State) (hk : quarterOfSeg k = beatQuarter r) :
    segAt (afterBeat r s).buf.seg k = wordAt s.mem (segAddr r.base k) ∧
      segAt (line (afterBeat r s) r.victim).seg k = wordAt s.mem (segAddr r.base k) := by
  have hword := beatAt_segment s.mem r.base k
  obtain ⟨hbuf, hline⟩ := afterBeat_segs r s k
  rw [if_pos hk, beatAddr, ← hk, hword] at hbuf hline
  exact ⟨hbuf, hline⟩

theorem afterBeat_segs_other {r : Refill} {k : BitVec 3} (s : State) (hk : quarterOfSeg k ≠ beatQuarter r) :
    segAt (afterBeat r s).buf.seg k = segAt s.buf.seg k ∧
      segAt (line (afterBeat r s) r.victim).seg k = segAt (line s r.victim).seg k := by
  obtain ⟨hbuf, hline⟩ := afterBeat_segs r s k
  exact ⟨hbuf.trans (if_neg hk), hline.trans (if_neg hk)⟩

/-- R144: the first beat answers the fetch with the segment that it has just filled. -/
theorem afterBeat_trace (r : Refill) (s : State) :
    (afterBeat r s).trace =
      (if r.done = 0 then [.response (.okayData .b32 (segAt (afterBeat r s).buf.seg r.seg))] else []) ++
        .aximRead (beatAddr r) (some (beatAt s.mem (beatAddr r))) :: s.trace := by
  rw [afterBeat, takeBeat_trace, takeBeat_buf]
  rfl

/-- Settles O30: field by field, for a beat that leaves one to come. -/
theorem beatFillsItsQuarter : Obligations.BeatFillsItsQuarter := by
  intro s r hr h3 hreads
  refine ⟨_, exec_refillBeat_of_reads hr hreads, afterBeat_segs r s, afterBeat_arrived r s, ?refill,
    afterBeat_trace r s, afterBeat_buf_valid r s, afterBeat_buf_index r s, ?valid,
    afterBeat_victim_index r s, fun _ => afterBeat_line_ne r s, afterBeat_artCtr r s, ?lru,
    afterBeat_primed r s, afterBeat_mem r s, afterBeat_sameSurroundings r s⟩
  case refill => rw [afterBeat_refill, if_neg h3]
  case valid => simp [afterBeat_victim_valid, h3]
  case lru => rw [afterBeat_lru, if_neg h3]

/-! ### A miss whose first beat the memory answers with data (R140, R144, R145) -/

/-- The state after such a miss: the refill started, and its first beat taken. -/
def afterMiss (a : Word) (s : State) : State := afterBeat (missRefill s a) (startRefill a s)

theorem exec_ifetchCMiss_of_reads {s : State} {a : Word} (ha : (view s).admits (.ifetchCMiss a) = true)
    (h : ReadsNormally s .axim (quarterAddr (blockBase a) (quarterOf a))) :
    exec (.ifetchCMiss a) s = .next (afterMiss a s) := by
  rw [← beatAddr_missRefill a s] at h
  have hreads : ReadsNormally (startRefill a s) .axim (beatAddr (missRefill s a)) := h
  rw [exec_ifetchCMiss_of_admits ha]
  exact beat_normal (refill_startRefill_eq_missRefill a s) hreads

theorem beatQuarter_missRefill (a : Word) (s : State) : beatQuarter (missRefill s a) = quarterOf a := by
  simp [beatQuarter, missRefill]

theorem afterMiss_refill (a : Word) (s : State) :
    (afterMiss a s).refill = some { missRefill s a with done := 1 } := afterBeat_refill _ _

theorem afterMiss_lru (a : Word) (s : State) : (afterMiss a s).lru = s.lru := afterBeat_lru _ _

theorem afterMiss_victim_valid (a : Word) (s : State) : (line (afterMiss a s) (victim s)).valid = false :=
  ((afterBeat_victim_valid (missRefill s a) _).trans (Bool.or_false _)).trans
    (congrArg Line.valid (line_startRefill_victim a s))

theorem afterMiss_victim_index (a : Word) (s : State) :
    (line (afterMiss a s) (victim s)).index = indexOf a :=
  (afterBeat_victim_index (missRefill s a) _).trans (congrArg Line.index (line_startRefill_victim a s))

theorem afterMiss_line_ne (a : Word) (s : State) {i : LineNo} (h : i ≠ victim s) :
    line (afterMiss a s) i = line s i :=
  (afterBeat_line_ne (missRefill s a) _ h).trans (line_startRefill_ne a s h)

theorem afterMiss_arrived (a : Word) (s : State) (j : BitVec 2) :
    arrivedAt (afterMiss a s).buf.arrived j = true ↔ j = quarterOf a := by
  rw [afterMiss, afterBeat_arrived, beatQuarter_missRefill]
  simp

/-- R145, R58: the quarter of the requested word holds the block's words. -/
theorem afterMiss_segs {a : Word} {k : BitVec 3} (s : State) (hk : quarterOfSeg k = quarterOf a) :
    segAt (afterMiss a s).buf.seg k = wordAt s.mem (segAddr (blockBase a) k) ∧
      segAt (line (afterMiss a s) (victim s)).seg k = wordAt s.mem (segAddr (blockBase a) k) :=
  afterBeat_segs_read (startRefill a s) (hk.trans (beatQuarter_missRefill a s).symm)

/-- R144: the read, and the answer with the segment that it fills. -/
theorem afterMiss_trace (a : Word) (s : State) :
    (afterMiss a s).trace = .response (.okayData .b32 (segAt (afterMiss a s).buf.seg (segOf a))) ::
      .aximRead (quarterAddr (blockBase a) (quarterOf a))
        (some (beatAt s.mem (quarterAddr (blockBase a) (quarterOf a)))) :: s.trace := by
  rw [← beatAddr_missRefill a s]
  exact afterBeat_trace (missRefill s a) (startRefill a s)

theorem afterMiss_mem (a : Word) (s : State) :
    (afterMiss a s).mem = memAfterRead s .axim (quarterAddr (blockBase a) (quarterOf a)) := by
  rw [← beatAddr_missRefill a s]
  exact afterBeat_mem (missRefill s a) (startRefill a s)

theorem afterMiss_buf_index (a : Word) (s : State) : (afterMiss a s).buf.index = indexOf a :=
  afterBeat_buf_index (missRefill s a) (startRefill a s)

theorem afterMiss_buf_valid (a : Word) (s : State) : (afterMiss a s).buf.valid = true :=
  afterBeat_buf_valid (missRefill s a) (startRefill a s)

/-- R144: the requested segment is the word at the fetch's address. -/
theorem afterMiss_seg_requested {a : Word} (s : State) (hal : Size.b32.alignedTo a = true) :
    segAt (afterMiss a s).buf.seg (segOf a) = wordAt s.mem a := by
  obtain ⟨hbuf, -⟩ := afterMiss_segs s (quarterOfSeg_segOf a)
  rw [hbuf, segAddr_blockBase hal]

/-- Settles O28: field by field. -/
theorem missAnswersFromTheFirstBeat : Obligations.MissAnswersFromTheFirstBeat := by
  intro s a hal hadm hreads
  refine ⟨_, exec_ifetchCMiss_of_reads hadm hreads, ?trace, afterMiss_refill a s, afterMiss_victim_valid a s,
    afterMiss_victim_index a s, fun _ => afterMiss_line_ne a s, afterMiss_buf_valid a s,
    afterMiss_buf_index a s, afterMiss_arrived a s, fun _ => afterMiss_segs s, afterBeat_artCtr _ _,
    afterMiss_lru a s, afterBeat_primed _ _, afterMiss_mem a s, afterBeat_sameSurroundings _ _⟩
  rw [afterMiss_trace, afterMiss_seg_requested s hal]

/-- Address bit 2 is the parity of the segment pointer, which selects the half of a beat (R58). -/
theorem segOf_parity (a : Word) : (segOf a).toNat % 2 = if a.getLsbD 2 then 1 else 0 := by
  rw [toNat_segOf]
  simp only [BitVec.getLsbD, Nat.testBit_eq_decide_div_mod_eq, decide_eq_true_eq]
  split <;> omega

/-- Settles O29: the requested segment is the half of the first beat that address bit 2 selects. -/
theorem missIsAnsweredWithTheSelectedHalf : Obligations.MissIsAnsweredWithTheSelectedHalf := by
  intro s a hadm hreads
  rw [← quarterAddr_blockBase] at hreads ⊢
  have hhalf (d : DWord) : d.extractLsb' (32 * ((segOf a).toNat % 2)) 32 =
      if a.getLsbD 2 then d.extractLsb' 32 32 else d.extractLsb' 0 32 := by
    rw [segOf_parity]
    split <;> rfl
  have hquarter : quarterOfSeg (segOf a) = beatQuarter (missRefill s a) :=
    (quarterOfSeg_segOf a).trans (beatQuarter_missRefill a s).symm
  obtain ⟨hbuf, hline⟩ := afterBeat_segs (missRefill s a) (startRefill a s) (segOf a)
  rw [if_pos hquarter, hhalf, beatAddr_missRefill] at hbuf hline
  refine ⟨afterMiss a s, beatAt s.mem (quarterAddr (blockBase a) (quarterOf a)),
    exec_ifetchCMiss_of_reads hadm hreads, ?_, hbuf, hline⟩
  rw [afterMiss_trace, afterMiss, hbuf]
  rfl

/-- Settles O31: a beat makes the line valid, and a use of it, exactly if three beats have been done. -/
theorem lastBeatCompletesTheRefill : Obligations.LastBeatCompletesTheRefill := by
  refine ⟨?miss, ?earlier, ?fourth⟩
  case miss =>
    intro s a hadm hreads
    exact ⟨_, exec_ifetchCMiss_of_reads hadm hreads, afterMiss_victim_valid a s, afterMiss_refill a s,
      afterMiss_lru a s⟩
  case earlier =>
    intro s r hr h3 hreads
    have hvalid : (line (afterBeat r s) r.victim).valid = (line s r.victim).valid := by
      simp [afterBeat_victim_valid, h3]
    refine ⟨_, exec_refillBeat_of_reads hr hreads, hvalid, fun hcons => ?_, ?_, ?_⟩
    · obtain ⟨-, hinvalid, -⟩ := hcons r hr
      exact hvalid.trans hinvalid
    · rw [afterBeat_refill, if_neg h3]
    · rw [afterBeat_lru, if_neg h3]
  case fourth =>
    intro s r hr h3 hreads
    refine ⟨_, exec_refillBeat_of_reads hr hreads, afterBeat_segs r s, afterBeat_arrived r s, ?_,
      afterBeat_victim_index r s, ?_, ?_, ?_, fun _ => afterBeat_line_ne r s, ?_, afterBeat_buf_index r s,
      afterBeat_artCtr r s, afterBeat_primed r s, afterBeat_mem r s, afterBeat_sameSurroundings r s⟩
    · simp [afterBeat_victim_valid, h3]
    · rw [afterBeat_refill, if_pos h3]
    · rw [afterBeat_lru, if_pos h3]
    · simp [afterBeat_trace, h3]
    · simp [afterBeat_buf_valid, h3]

/-! ### The four beats of a refill (R143, D14) -/

/-- From any quarter on, wrapping, four quarters are each of the four once. -/
theorem wrapping_quarters_perm (j : BitVec 2) :
    ((List.finRange 4).map fun n => (j.toNat + n.val) % 4).Perm (List.range 4) := by
  revert j
  decide

theorem beatAddr_with_done (r : Refill) (n : Fin 4) :
    beatAddr { r with done := n } = r.base + BitVec.ofNat 32 (8 * ((r.j0.toNat + n.val) % 4)) := by
  have hquarter : (r.j0 + BitVec.ofNat 2 n.val).toNat = (r.j0.toNat + n.val) % 4 := by
    rw [BitVec.toNat_add, BitVec.toNat_ofNat]
    omega
  exact congrArg (fun q => r.base + BitVec.ofNat 32 (8 * q)) hquarter

/-- Settles O32: the addresses are those of the quarters, which wrap. -/
theorem refillReadsEachQuarterOnce : Obligations.RefillReadsEachQuarterOnce := by
  intro r _
  refine ⟨beatAddr_with_done r, ?_⟩
  have hperm := (wrapping_quarters_perm r.j0).map fun q => r.base + BitVec.ofNat 32 (8 * q)
  simpa [Function.comp_def, beatAddr_with_done, List.range_succ] using hperm

/-! ### A refill that nothing interrupts (R140 to R146) -/

/-- The memory answers the reads of the address's block with data, and they have no effects. -/
def PlainBlock (s : State) (a : Word) : Prop :=
  ∀ j : BitVec 2, ReadsNormally s .axim (quarterAddr (blockBase a) j) ∧
    readEffect s .axim (quarterAddr (blockBase a) j) = []

/-- The record of the refill that a miss of `a` in `s` starts, with `n` beats done. -/
def burstRecord (s : State) (a : Word) (n : Fin 4) : Refill := { missRefill s a with done := n }

theorem burstRecord_done (s : State) (a : Word) (n : Fin 4) : (burstRecord s a n).done = n := rfl

theorem burstRecord_seg (s : State) (a : Word) (n : Fin 4) : (burstRecord s a n).seg = segOf a := rfl

/-- The read of the beat after `n` beats, as the port carries it. -/
def burstRead (s : State) (a : Word) (n : Nat) : PortEvent :=
  .aximRead (quarterAddr (blockBase a) (quarterOf a + BitVec.ofNat 2 n))
    (some (beatAt s.mem (quarterAddr (blockBase a) (quarterOf a + BitVec.ofNat 2 n))))

/-- What the ports have carried after `n` beats: the reads, with the answer after the first. -/
def burstTrace (s : State) (a : Word) : Nat → List PortEvent
  | 0 => s.trace
  | n + 1 =>
      (if n = 0 then [.response (.okayData .b32 (wordAt s.mem a))] else []) ++
        burstRead s a n :: burstTrace s a n

/-- In `t` the first `n` beats of the refill that a miss of `a` in `s` starts have been taken, and nothing else
has come between. -/
structure BeatsTaken (s : State) (a : Word) (n : Nat) (t : State) : Prop where
  inputs : t.inputs = s.inputs
  answers : t.answers = s.answers
  readEffects : t.readEffects = s.readEffects
  mem : t.mem = s.mem
  artCtr : t.artCtr = s.artCtr
  buf_index : t.buf.index = indexOf a
  victim_index : (line t (victim s)).index = indexOf a
  line_ne : ∀ i : LineNo, i ≠ victim s → line t i = line s i
  segs : ∀ k : BitVec 3, (quarterOfSeg k - quarterOf a).toNat < n →
    segAt t.buf.seg k = wordAt s.mem (segAddr (blockBase a) k) ∧
      segAt (line t (victim s)).seg k = wordAt s.mem (segAddr (blockBase a) k)
  trace : t.trace = burstTrace s a n

theorem beatsTaken_startRefill (a : Word) (s : State) : BeatsTaken s a 0 (startRefill a s) where
  inputs := rfl
  answers := rfl
  readEffects := rfl
  mem := rfl
  artCtr := rfl
  buf_index := rfl
  victim_index := congrArg Line.index (line_startRefill_victim a s)
  line_ne _ := line_startRefill_ne a s
  segs _ hk := absurd hk (Nat.not_lt_zero _)
  trace := rfl

/-- The quarter of a beat's segment has been counted before, or is this beat's. -/
theorem BeatsTaken.segs_afterBeat {s t : State} {a : Word} {n : Fin 4} (h : BeatsTaken s a n.val t)
    (k : BitVec 3) (hk : (quarterOfSeg k - quarterOf a).toNat < n.val + 1) :
    segAt (afterBeat (burstRecord s a n) t).buf.seg k = wordAt s.mem (segAddr (blockBase a) k) ∧
      segAt (line (afterBeat (burstRecord s a n) t) (victim s)).seg k =
        wordAt s.mem (segAddr (blockBase a) k) := by
  by_cases hq : quarterOfSeg k = beatQuarter (burstRecord s a n)
  · rw [← h.mem]
    exact afterBeat_segs_read t hq
  · have hne : (quarterOfSeg k - quarterOf a).toNat ≠ n.val :=
      mt (sub_eq_done_iff (burstRecord s a n) (quarterOfSeg k)).1 hq
    obtain ⟨hbuf, hline⟩ := afterBeat_segs_other t hq
    obtain ⟨hbufOld, hlineOld⟩ := h.segs k (by omega)
    exact ⟨hbuf.trans hbufOld, hline.trans hlineOld⟩

/-- The requested word is the answer to the first beat (R144). -/
theorem BeatsTaken.trace_afterBeat {s t : State} {a : Word} {n : Fin 4} (hal : Size.b32.alignedTo a = true)
    (h : BeatsTaken s a n.val t) :
    (afterBeat (burstRecord s a n) t).trace = burstTrace s a (n.val + 1) := by
  have hread : (.aximRead (beatAddr (burstRecord s a n))
      (some (beatAt t.mem (beatAddr (burstRecord s a n)))) : PortEvent) = burstRead s a n.val := by
    rw [h.mem]
    rfl
  rw [afterBeat_trace, burstRecord_done, burstRecord_seg, hread, h.trace, burstTrace]
  have hzero : n = 0 ↔ n.val = 0 := Fin.ext_iff
  by_cases h0 : n = 0
  · have hfirst : (quarterOfSeg (segOf a) - quarterOf a).toNat < n.val + 1 := by simp [quarterOfSeg_segOf]
    obtain ⟨hword, -⟩ := h.segs_afterBeat (segOf a) hfirst
    rw [segAddr_blockBase hal] at hword
    rw [if_pos h0, if_pos (hzero.1 h0), hword]
  · rw [if_neg h0, if_neg (mt hzero.2 h0)]

theorem BeatsTaken.succ {s t : State} {a : Word} {n : Fin 4} (hal : Size.b32.alignedTo a = true)
    (hplain : PlainBlock s a) (h : BeatsTaken s a n.val t) :
    BeatsTaken s a (n.val + 1) (afterBeat (burstRecord s a n) t) := by
  obtain ⟨hanswers, heffects, -, hinputs, -, -⟩ := afterBeat_sameSurroundings (burstRecord s a n) t
  have hnoeffect : readEffect t .axim (beatAddr (burstRecord s a n)) = [] := by
    obtain ⟨-, hnone⟩ := hplain (beatQuarter (burstRecord s a n))
    rw [readEffect_congr h.readEffects]
    exact hnone
  exact
    { inputs := hinputs.trans h.inputs
      answers := hanswers.trans h.answers
      readEffects := heffects.trans h.readEffects
      mem := by rw [afterBeat_mem, memAfterRead_of_plain hnoeffect, h.mem]
      artCtr := (afterBeat_artCtr _ t).trans h.artCtr
      buf_index := (afterBeat_buf_index _ t).trans h.buf_index
      victim_index := (afterBeat_victim_index (burstRecord s a n) t).trans h.victim_index
      line_ne := fun i hi => (afterBeat_line_ne (burstRecord s a n) t hi).trans (h.line_ne i hi)
      segs := h.segs_afterBeat
      trace := h.trace_afterBeat hal }

theorem BeatsTaken.redraw {s t : State} {a : Word} {n : Nat} (h : BeatsTaken s a n t) :
    BeatsTaken s a n (redraw t) :=
  ⟨h.inputs, h.answers, h.readEffects, h.mem, h.artCtr, h.buf_index, h.victim_index, h.line_ne, h.segs,
    h.trace⟩

/-- After all four beats the victim holds the block's words. -/
theorem BeatsTaken.victim_segs_of_four {s t : State} {a : Word} (h : BeatsTaken s a 4 t) (k : BitVec 3) :
    segAt (line t (victim s)).seg k = wordAt s.mem (segAddr (blockBase a) k) := by
  obtain ⟨-, hline⟩ := h.segs k (quarterOfSeg k - quarterOf a).isLt
  exact hline

/-- After all four beats the buffer is a copy of the victim. -/
theorem BeatsTaken.buf_seg_of_four {s t : State} {a : Word} (h : BeatsTaken s a 4 t) :
    t.buf.seg = (line t (victim s)).seg :=
  seg_ext fun k => by
    obtain ⟨hbuf, hline⟩ := h.segs k (quarterOfSeg k - quarterOf a).isLt
    exact hbuf.trans hline.symm

/-! ### The steps of such a refill -/

theorem nextBeat_of_reads {s : State} {r : Refill} (h : ReadsNormally s .axim (beatAddr r)) :
    nextBeat r s = .refillBeat := by
  obtain ⟨hnoerror, -⟩ := h
  unfold nextBeat
  split
  next herror => exact absurd herror hnoerror
  next => rfl

/-- With nothing arriving, a step during a refill is its next beat (R148). -/
theorem step_of_no_inputs {s : State} {r : Refill} (hr : s.refill = some r) (hin : s.inputs = [])
    (h : ReadsNormally s .axim (beatAddr r)) : step s = .next (redraw (afterBeat r s)) := by
  have hfirst : beatComesFirst s = true := by simp [beatComesFirst, hin]
  rw [step_of_run (nextAction_of_beatFirst hr hfirst), nextBeat_of_reads h, exec_refillBeat_of_reads hr h,
    redrawn_next]

/-- Between the first and the last beat: the beats taken, and the refill in progress. -/
structure BurstUnderway (s : State) (a : Word) (n : Fin 4) (t : State) : Prop
    extends BeatsTaken s a n.val t where
  refill : t.refill = some (burstRecord s a n)
  buf_valid : t.buf.valid = true
  lru : t.lru = s.lru

theorem burstUnderway_afterMiss {s : State} {a : Word} (hal : Size.b32.alignedTo a = true)
    (hplain : PlainBlock s a) : BurstUnderway s a 1 (afterMiss a s) where
  toBeatsTaken := (beatsTaken_startRefill a s).succ (n := 0) hal hplain
  refill := afterMiss_refill a s
  buf_valid := afterMiss_buf_valid a s
  lru := afterMiss_lru a s

theorem BurstUnderway.step_eq {s t : State} {a : Word} {n : Fin 4} (hin : s.inputs = [])
    (hplain : PlainBlock s a) (h : BurstUnderway s a n t) :
    step t = .next (redraw (afterBeat (burstRecord s a n) t)) := by
  obtain ⟨hreads, -⟩ := hplain (beatQuarter (burstRecord s a n))
  exact step_of_no_inputs h.refill (h.inputs.trans hin) (readsNormally_congr h.answers hreads)

theorem BurstUnderway.next_step {s t : State} {a : Word} {n : Fin 4} (hal : Size.b32.alignedTo a = true)
    (hin : s.inputs = []) (hplain : PlainBlock s a) (hn : n ≠ 3) (h : BurstUnderway s a n t) :
    ∃ t', step t = .next t' ∧ BurstUnderway s a (n + 1) t' := by
  have hsucc : (n + 1).val = n.val + 1 := Fin.val_add_one_of_lt (Fin.lt_last_iff_ne_last.2 hn)
  refine ⟨_, h.step_eq hin hplain, ?taken, ?refill, ?valid, ?lru⟩
  case taken =>
    rw [hsucc]
    exact (h.toBeatsTaken.succ hal hplain).redraw
  case refill =>
    rw [redraw_refill, afterBeat_refill, burstRecord_done, if_neg hn]
    rfl
  case valid => simp [afterBeat_buf_valid, h.buf_valid]
  case lru => rw [redraw_lru, afterBeat_lru, burstRecord_done, if_neg hn, h.lru]

/-- R146: the fourth beat completes the refill. -/
theorem BurstUnderway.last_step {s t : State} {a : Word} (hal : Size.b32.alignedTo a = true)
    (hin : s.inputs = []) (hplain : PlainBlock s a) (h : BurstUnderway s a 3 t) :
    ∃ t', step t = .next t' ∧ BeatsTaken s a 4 t' ∧ t'.refill = none ∧
      (line t' (victim s)).valid = true ∧ t'.buf.valid = true ∧
      t'.lru = victim s :: s.lru.erase (victim s) := by
  refine ⟨_, h.step_eq hin hplain, (h.toBeatsTaken.succ hal hplain).redraw, ?refill, ?line, ?buf, ?lru⟩
  case refill => exact afterBeat_refill (burstRecord s a 3) t
  case line =>
    refine (afterBeat_victim_valid (burstRecord s a 3) t).trans ?_
    exact Bool.or_true _
  case buf => simp [afterBeat_buf_valid, h.buf_valid]
  case lru =>
    rw [← h.lru]
    exact afterBeat_lru (burstRecord s a 3) t

/-- Settles O33: the miss takes the first beat, and each of three steps one more. -/
theorem refillLoadsTheBlock : Obligations.RefillLoadsTheBlock := by
  intro s a hin hal hadm hplain
  obtain ⟨hreads, -⟩ := hplain (quarterOf a)
  have h1 := burstUnderway_afterMiss hal hplain
  obtain ⟨t1, hstep1, h2⟩ := h1.next_step hal hin hplain (by decide)
  obtain ⟨t2, hstep2, h3⟩ := h2.next_step hal hin hplain (by decide)
  obtain ⟨t3, hstep3, hdone, hrefill, hvalid, hbuf, hlru⟩ := h3.last_step hal hin hplain
  refine ⟨afterMiss a s, t1, t2, t3, victim s, exec_ifetchCMiss_of_reads hadm hreads, hstep1, hstep2, hstep3,
    hrefill, hvalid, hdone.victim_index, hdone.victim_segs_of_four, hbuf, hdone.buf_index,
    hdone.buf_seg_of_four, hdone.line_ne, hlru, hdone.artCtr, hdone.mem, ?_⟩
  rw [hdone.trace]
  simp [burstTrace, burstRead]

/-! ### A beat that the memory answers with ERROR (R147) -/

theorem flush_sameContents (s : State) : SameContents s (flush s) :=
  ⟨fun i => by rw [line_flush]; exact ⟨rfl, rfl⟩, rfl, rfl, rfl⟩

/-- The state after the failing beat of the refill `r` and the discarded reads, before any answer. -/
def afterFailure (r : Refill) (s : State) : State :=
  { flush s with trace := failureTrace s r, mem := memAfterFailure s r }

theorem afterFailure_nothingValid (r : Refill) (s : State) : NothingValid (afterFailure r s) :=
  nothingValid_congr rfl rfl (flush_nothingValid s)

theorem failBeat_later {r : Refill} (s : State) (hd : r.done ≠ 0) :
    failBeat r s = .next (afterFailure r s) := by
  rw [failBeat_eq]
  exact if_neg hd

theorem failBeat_first_propagate {r : Refill} (s : State) (hd : r.done = 0)
    (hc : Config.errorResponse = .propagate) :
    failBeat r s = .next (respond .error (afterFailure r s)) := by
  rw [failBeat_eq]
  simp only [hd, if_true, hc]
  rfl

theorem failBeat_first_retry {r : Refill} (s : State) (hd : r.done = 0)
    (hc : Config.errorResponse = .retryNoncacheable) :
    failBeat r s = forwardRead .b32 (missAddr r) (afterFailure r s) := by
  rw [failBeat_eq]
  simp only [hd, if_true, hc]
  rfl

/-- The failing beat and the discarded ones give no answer. -/
theorem mem_of_response_mem_failureTrace {s : State} {r : Refill} {x : Resp}
    (h : .response x ∈ failureTrace s r) : .response x ∈ s.trace := by
  simpa [failureTrace] using h

theorem length_restAddrs (r : Refill) (s : State) :
    (restAddrs r s).length = if s.draws.readRest then 3 - r.done.val else 0 := by
  unfold restAddrs
  split <;> simp

/-- Settles O34: a failing beat that is not the first leaves the state of `afterFailure`, unanswered. -/
theorem refillErrorInvalidatesEverything : Obligations.RefillErrorInvalidatesEverything := by
  intro s r hr hd
  refine ⟨afterFailure r s, ?exec, afterFailure_nothingValid r s, rfl, flush_sameContents s,
    fun _ => mem_of_response_mem_failureTrace, fun hrest => ?single, fun hrest => ?burst, rfl, rfl, rfl, rfl,
    rfl, rfl, rfl, rfl, rfl, rfl, rfl⟩
  case exec => rw [exec_refillErr_of_refill hr, failBeat_later s hd]
  case single =>
    have hnone : restAddrs r s = [] := by simp [restAddrs, hrest]
    simp [afterFailure, failureTrace, hnone]
  case burst =>
    have hlength := length_restAddrs r s
    rw [hrest, if_pos rfl] at hlength
    simp only [afterFailure, failureTrace, List.length_append, List.length_reverse, List.length_map,
      List.length_cons, hlength]
    omega

/-- R147, D17: a failing first beat leaves nothing valid and no refill, and the fetch is answered ERROR, or as
the memory answers its repeat. -/
theorem failBeat_first_answered {r : Refill} {s : State} (hd : r.done = 0)
    (h : Config.errorResponse = .retryNoncacheable → answerTo s .ahbm false (missAddr r) ≠ some .silent) :
    ∃ t : State, failBeat r s = .next t ∧ NothingValid t ∧ t.refill = none ∧
      t.trace.head? = some (.response (firstErrorResp s r)) ∧ t.mem = memAfterFirstError s r ∧
      t.artCtr = s.artCtr ∧ t.lru = s.lru ∧ t.primed = s.primed ∧ SameSurroundings s t := by
  rw [firstErrorResp, memAfterFirstError]
  cases hc : Config.errorResponse with
  | propagate =>
    rw [failBeat_first_propagate s hd hc]
    exact ⟨_, rfl, nothingValid_congr rfl rfl (afterFailure_nothingValid r s), rfl, rfl, rfl, rfl, rfl, rfl,
      rfl, rfl, rfl, rfl, rfl, rfl⟩
  | retryNoncacheable =>
    rw [failBeat_first_retry s hd hc]
    obtain ⟨t, ht, htrace, ⟨hctr, hlines, hbuf, hlru, hrefill⟩, hprimed, hmem, hsurr⟩ :=
      forwardRead_setPrimed_answered (s := afterFailure r s) .b32 s.primed (h hc)
    refine ⟨t, ht, nothingValid_congr hlines hbuf (afterFailure_nothingValid r s), hrefill, ?_, hmem, hctr,
      hlru, hprimed, hsurr⟩
    rw [htrace]
    rfl

/-- A miss whose first beat fails is the failure of that beat. -/
theorem exec_ifetchCMiss_of_error {s : State} {a : Word} (ha : (view s).admits (.ifetchCMiss a) = true)
    (h : answerTo s .axim false (quarterAddr (blockBase a) (quarterOf a)) = some .error) :
    exec (.ifetchCMiss a) s = failBeat (missRefill s a) (startRefill a s) := by
  rw [exec_ifetchCMiss_of_admits ha]
  exact beat_error (refill_startRefill_eq_missRefill a s) (by simpa [beatAddr_missRefill] using h)

/-- Settles O35: the start of the refill changes nothing that the failure of its first beat depends on. -/
theorem firstBeatErrorAnswersTheFetch : Obligations.FirstBeatErrorAnswersTheFetch := by
  refine ⟨?miss, fun s a hal => segAddr_blockBase hal, ?event⟩
  case miss =>
    intro s a hadm herr hrepeat
    rw [exec_ifetchCMiss_of_error hadm herr]
    exact failBeat_first_answered (s := startRefill a s) rfl hrepeat
  case event =>
    intro s r hr hd hrepeat
    rw [exec_refillErr_of_refill hr]
    exact failBeat_first_answered hd hrepeat

/-- Settles O36: the event and the beat run the same failure, and so does a miss. -/
theorem beatAnsweredErrorIsRefillError : Obligations.BeatAnsweredErrorIsRefillError := by
  constructor
  · intro s r hr herr
    rw [exec_refillBeat, beat_error hr herr, exec_refillErr_of_refill hr]
  · intro s a hadm herr t ht
    rw [exec_ifetchCMiss_of_error hadm herr] at ht
    have hdropped := failBeat_dropped ht
    exact ⟨hdropped.nothingValid, hdropped.refill⟩

/-! ### Invalidating events (R149, R160) -/

/-- R164: a word write that changes the page index leaves nothing valid and no refill. -/
theorem execCtrWr32_of_page_ne {w : Word} {s t : State} (hmay : MayWriteCtr s)
    (hpage : w.extractLsb' 8 12 ≠ pcacheaddr s) (h : execCtrWr32 w s = .next t) :
    NothingValid t ∧ t.refill = none := by
  obtain ⟨-, h⟩ | ⟨hnot, -⟩ := writeAccess_cases h
  · split at h
    · obtain ⟨p, hctr⟩ := setCtr_of_ne (w.getLsbD 0) hpage
      rw [hctr] at h
      obtain rfl := Host.Outcome.next.inj h
      exact ⟨nothingValid_congr rfl rfl (flush_nothingValid s), rfl⟩
    · cases h
  · exact absurd hmay hnot

/-- Settles O44: each of the three events leaves nothing valid and no refill. -/
theorem invalidatingEventCancelsTheRefill : Obligations.InvalidatingEventCancelsTheRefill := by
  intro s t r i _ hi h
  have hdropped : NothingValid t ∧ t.refill = none := by
    obtain ⟨sz, c, a, d, rfl, hactive⟩ | ⟨w, rfl, hmay, hpage⟩ | rfl := hi
    · have hpage := execWritePage_dropped hactive h
      exact ⟨hpage.nothingValid, hpage.refill⟩
    · exact execCtrWr32_of_page_ne hmay hpage h
    · obtain rfl := Host.Outcome.next.inj h
      exact ⟨flush_nothingValid s, rfl⟩
  obtain ⟨⟨hlines, hbuf⟩, hrefill⟩ := hdropped
  exact ⟨hrefill, hlines r.victim, hbuf⟩

/-! ### Transfers during a refill (R148) -/

/-- Settles O39: no transfer but the fetch that R148 lets through comes before the beat. -/
theorem refillPrecedesTheNextTransfer : Obligations.RefillPrecedesTheNextTransfer := by
  intro s r bs rest hr hin hwaits
  have hnot : servedBetweenBeats bs s = false := by
    by_contra hserved
    obtain ⟨a, hdec, hdraw, hq⟩ := servedBetweenBeats_cases (Bool.eq_true_of_not_eq_false hserved)
    rw [hwaits a hdec hq] at hdraw
    cases hdraw
  have hfirst : beatComesFirst s = true := by simp [beatComesFirst, hin, hnot]
  exact step_of_run (nextAction_of_beatFirst hr hfirst)

/-- R148: a transfer that is let through is what the step takes. -/
theorem nextAction_of_served {s : State} {bs : List Byte} {rest : List Input}
    (hin : s.inputs = .transfer bs :: rest) (h : servedBetweenBeats bs s = true) :
    nextAction s = actOnInput s := by
  have hfirst : beatComesFirst s = false := by simp [beatComesFirst, hin, h]
  unfold nextAction
  split
  · rfl
  · rw [hfirst]
    exact if_neg Bool.false_ne_true

/-- Settles O27: the fetch is let through, and the buffer answers it. -/
theorem bufferHitServedBetweenBeats : Obligations.BufferHitServedBetweenBeats := by
  intro s a r rest hr hin hal hadm hq hdraw
  have hdec : decode (view s) (fetchBytes a) = .ok (.ifetchCHitb a) :=
    encodedInstructionDecodesBack (view s) (.ifetchCHitb a) (fetchBytes a) hal hadm rfl
  have hserved : servedBetweenBeats (fetchBytes a) s = true := by simp [servedBetweenBeats, hdec, hdraw, hq]
  have hnext : nextAction s = .run (.ifetchCHitb a) (setInputs rest s) := by
    rw [nextAction_of_served hin hserved]
    simp only [actOnInput, hin, actOnTransfer, view_setInputs, hdec]
  obtain ⟨t, ht, htrace, -, -, -, hlines, hbuf, -, hrefill, -, -, -, -, hinputs, -⟩ :=
    bufferHitReturnsTheSegment (setInputs rest s) a hadm hq
  refine ⟨redraw t, ?_, htrace, hrefill.trans hr, hinputs, hbuf, hlines⟩
  rw [step_of_run hnext, ht, redrawn_next]

/-! ### The victim and the recency order (R141, R142) -/

theorem cacheFull_iff (s : State) : cacheFull s = true ↔ ∀ i : LineNo, (line s i).valid = true := by
  simp [cacheFull]

theorem getLast?_eq_getLastD {l : List LineNo} (h : l ≠ []) (d : LineNo) : l.getLast? = some (l.getLastD d) := by
  rw [List.getLastD_eq_getLast?, List.getLast?_eq_some_getLast h, Option.getD_some]

theorem RecencyIsOrder.lru_ne_nil {s : State} (h : RecencyIsOrder s) : s.lru ≠ [] := by
  have hmem : (0 : LineNo) ∈ s.lru := h.mem_iff.2 (List.mem_finRange 0)
  exact List.ne_nil_of_mem hmem

/-- Settles O37: under `lru` by whether an invalid line is found, under `any` by the draw. -/
theorem victimIsInvalidOrLeastRecentlyUsed : Obligations.VictimIsInvalidOrLeastRecentlyUsed := by
  intro s horder
  unfold victim
  cases Config.victimPolicy with
  | any => rfl
  | lru =>
    cases hdraw : drawInvalid s with
    | some i =>
      have hinvalid := drawInvalid_some hdraw
      refine ⟨fun _ => hinvalid, fun hfull => ?_⟩
      rw [(cacheFull_iff s).1 hfull i] at hinvalid
      cases hinvalid
    | none =>
      refine ⟨fun hnot => ?_, fun _ => getLast?_eq_getLastD horder.lru_ne_nil _⟩
      rw [(cacheFull_iff s).2 (drawInvalid_none hdraw)] at hnot
      cases hnot

/-- Taking a third line out of an order keeps which of two lines comes first. -/
theorem idxOf_erase_lt {l : List LineNo} {i j k : LineNo} (hi : i ≠ k) (hj : j ≠ k)
    (h : l.idxOf j < l.idxOf i) : (l.erase k).idxOf j < (l.erase k).idxOf i := by
  induction l with
  | nil => exact h
  | cons x l ih =>
    by_cases hxk : x = k
    · subst hxk
      rw [List.erase_cons_head]
      simpa [List.idxOf_cons_ne _ hi.symm, List.idxOf_cons_ne _ hj.symm] using h
    · rw [List.erase_cons_tail (by simpa using hxk)]
      by_cases hxi : x = i
      · subst hxi
        simp at h
      · rw [List.idxOf_cons_ne _ hxi] at h ⊢
        by_cases hxj : x = j
        · subst hxj
          simp
        · rw [List.idxOf_cons_ne _ hxj] at h ⊢
          exact Nat.succ_lt_succ (ih (Nat.lt_of_succ_lt_succ h))

/-- A line used among some uses stands nearer the front than one that is not (R142). -/
theorem idxOf_lt_of_used {s : State} {us : List LineNo} {i j : LineNo} (hi : i ∉ us) (hj : j ∈ us) :
    (us.foldl (fun u k => touch k u) s).lru.idxOf j < (us.foldl (fun u k => touch k u) s).lru.idxOf i := by
  induction us using List.reverseRecOn with
  | nil => cases hj
  | append_singleton us k ih =>
    obtain ⟨hius, hik⟩ : i ∉ us ∧ i ≠ k := by simpa using hi
    rw [List.foldl_append, List.foldl_cons, List.foldl_nil, touch_lru, List.idxOf_cons_ne _ hik.symm]
    by_cases hjk : j = k
    · subst hjk
      simp
    · have hjus : j ∈ us := by simpa [hjk] using hj
      rw [List.idxOf_cons_ne _ (Ne.symm hjk)]
      exact Nat.succ_lt_succ (idxOf_erase_lt hik hjk (ih hius hjus))

/-- Settles O38: by the uses after the last use of `i`, among them one of `j`. -/
theorem laterUseStandsNearerTheFront : Obligations.LaterUseStandsNearerTheFront := by
  intro s before after i j hi hj
  rw [List.foldl_append, List.foldl_cons]
  exact idxOf_lt_of_used hi hj

end Sys2Proof.Machine

namespace Sys2Proof.Machine

/-! ### Invalidating events: a write to the page, a change of the page index, INVALIDATE.ALL (R160 to R166) -/

/-- The state after a write to the page that is answered, before the detector acts and the answer is given. -/
def afterPageWrite (s : State) (sz : Size) (a d : Word) : State :=
  emit (.ahbmWrite a sz d (ahbmTakes s a))
    (setMem (memAfterWrite s sz a d) (setPrimed (primedAfterNotQualifying s) s))

theorem writeDetectActive_afterPageWrite (s : State) (sz : Size) (a d : Word) :
    writeDetectActive (afterPageWrite s sz a d) = writeDetectActive s := rfl

/-- R162: between the memory's answer and the response everything is flagged invalid, if the detector is
active. -/
theorem exec_writePage_answered {s : State} {a : Word} (sz : Size) (c : Bool) (d : Word)
    (hpage : pageOf a = pcacheaddr s) (h : answerTo s .ahbm true a ≠ some .silent) :
    exec (.writePage sz c a d) s =
      .next (respond (if ahbmTakes s a then .okay else .error)
        (if writeDetectActive s then flush (afterPageWrite s sz a d) else afterPageWrite s sz a d)) := by
  rw [exec_writePage_of_eq hpage, noteNotQualifying_eq, forwardWrite_setPrimed_answered sz d _ _ h,
    ← afterPageWrite, writeDetectActive_afterPageWrite]

/-- Settles O41: by whether the detector is active. -/
theorem writeToPageInvalidatesEverything : Obligations.WriteToPageInvalidatesEverything := by
  intro s sz c a d hm hpage h
  rw [exec_writePage_answered sz c d hpage h]
  cases hactive : writeDetectActive s with
  | true =>
    exact ⟨_, rfl, rfl, memAfterWrite_spec hm sz a d, nothingValid_congr rfl rfl (flush_nothingValid s),
      flush_sameContents s, rfl, rfl, rfl, rfl, rfl, rfl, rfl, rfl, rfl⟩
  | false =>
    exact ⟨_, rfl, rfl, memAfterWrite_spec hm sz a d, ⟨rfl, rfl, rfl⟩,
      ⟨fun _ => ⟨rfl, rfl⟩, rfl, rfl, rfl⟩, rfl, rfl, rfl, rfl, rfl, rfl, rfl, rfl, rfl⟩

/-- R166: with nothing valid no transfer is sorted as a hit. -/
theorem NothingValid.decode_ne_hit {s : State} (h : NothingValid s) (bs : List Byte) (a : Word) :
    decode (view s) bs ≠ .ok (.ifetchCHitb a) ∧ decode (view s) bs ≠ .ok (.ifetchCHitl a) := by
  have admitted {i : Instr} (hdec : decode (view s) bs = .ok i) : (view s).admits i = true := by
    obtain ⟨-, hadm, -⟩ := decodedTransferEncodesBack (view s) bs i hdec
    exact hadm
  constructor <;> intro hdec
  · obtain ⟨-, -, hvalid, -⟩ := admits_ifetchCHitb_iff.1 (admitted hdec)
    obtain ⟨-, hinvalid⟩ := h
    rw [hinvalid] at hvalid
    cases hvalid
  · obtain ⟨-, -, -, htag⟩ := admits_ifetchCHitl_iff.1 (admitted hdec)
    rw [h.validTags_eq] at htag
    cases htag

/-- Settles O48: a changed page index leaves nothing valid, so that nothing is a hit. -/
theorem pageChangeHidesOldLines : Obligations.PageChangeHidesOldLines := by
  intro s t w hmay hpage h bs a
  obtain ⟨hnothing, -⟩ := execCtrWr32_of_page_ne hmay hpage h
  exact hnothing.decode_ne_hit bs a

/-- Settles O43: the event is `flush`, which changes the validity bits and the refill alone. -/
theorem invalidateAllClearsEveryValidityBit : Obligations.InvalidateAllClearsEveryValidityBit :=
  fun s => ⟨flush s, rfl, flush_nothingValid s, rfl, flush_sameContents s, rfl, rfl, rfl, rfl, rfl, rfl, rfl,
    rfl, rfl, rfl, rfl⟩

/-- Settles O46: with nothing valid a fetch that is not the first matches neither the buffer nor a line. -/
theorem afterInvalidationTheNextFetchMisses : Obligations.AfterInvalidationTheNextFetchMisses := by
  intro s a hnothing hal hpage hen hfirst
  rw [decode_fetchBytes_of_nothingValid hnothing hal hpage hen, hfirst]
  rfl

/-! ### Changes that clear no validity bit (R160, R167) -/

/-- The lines and the buffer of `t` are those of `s`, their validity bits among them. -/
def LinesAndBufferKept (s t : State) : Prop := t.lines = s.lines ∧ t.buf = s.buf

/-- The lines of `t` are those of `s`, and the buffer is valid in `t` if it is in `s`. -/
def LinesKept (s t : State) : Prop := t.lines = s.lines ∧ (s.buf.valid = true → t.buf.valid = true)

theorem LinesAndBufferKept.linesKept {s t : State} (h : LinesAndBufferKept s t) : LinesKept s t := by
  obtain ⟨hlines, hbuf⟩ := h
  exact ⟨hlines, fun hv => by rwa [hbuf]⟩

theorem LinesKept.keepsValidity {s t : State} (h : LinesKept s t) (evicted : LineNo → Prop) :
    KeepsValidity s t evicted := by
  obtain ⟨hlines, hbuf⟩ := h
  exact ⟨fun l hl => .inl (by rwa [line_congr hlines]), hbuf⟩

theorem CacheKept.linesKept {s t : State} (h : CacheKept s t) : LinesKept s t := by
  obtain ⟨⟨-, hlines, hbuf, -, -⟩, -⟩ := h
  exact LinesAndBufferKept.linesKept ⟨hlines, hbuf⟩

/-- A beat answered with data makes its line or the buffer valid, or changes no validity bit (R145, R146). -/
theorem afterBeat_keepsValidity (r : Refill) (s : State) (evicted : LineNo → Prop) :
    KeepsValidity s (afterBeat r s) evicted := by
  refine ⟨fun l hl => .inl ?_, fun hv => ?_⟩
  · by_cases hvictim : l = r.victim
    · subst hvictim
      rw [afterBeat_victim_valid, hl, Bool.true_or]
    · rwa [afterBeat_line_ne r s hvictim]
  · rw [afterBeat_buf_valid, hv, Bool.true_or]

/-- A miss whose first beat is answered with data evicts the victim alone, and leaves the buffer valid. -/
theorem afterMiss_keepsValidity (a : Word) (s : State) {evicted : LineNo → Prop} (h : evicted (victim s)) :
    KeepsValidity s (afterMiss a s) evicted := by
  refine ⟨fun l hl => ?_, fun _ => afterMiss_buf_valid a s⟩
  by_cases hvictim : l = victim s
  · exact .inr (hvictim ▸ h)
  · exact .inl (by rwa [afterMiss_line_ne a s hvictim])

/-! ### The instructions where they are no cause -/

/-- A beat that does not fail is answered with data. -/
theorem beat_eq_afterBeat {s t : State} (h : beat s = .next t) (hok : ¬ nextBeatFails s) :
    ∃ r : Refill, s.refill = some r ∧ t = afterBeat r s := by
  obtain ⟨r, hr, -⟩ := beat_cases h
  have hreads : ReadsNormally s .axim (beatAddr r) := by
    refine ⟨fun herr => hok ⟨r, hr, herr⟩, fun hsilent => ?_⟩
    rw [beat_silent hr hsilent] at h
    cases h
  exact ⟨r, hr, Host.Outcome.next.inj (h.symm.trans (beat_normal hr hreads))⟩

/-- A miss whose first beat does not fail is answered with data. -/
theorem execIfetchCMiss_eq_afterMiss {a : Word} {s t : State} (h : execIfetchCMiss a s = .next t)
    (hok : answerTo s .axim false (quarterAddr (blockBase a) (quarterOf a)) ≠ some .error) :
    t = afterMiss a s := by
  obtain ⟨-, h⟩ := inClass_eq_next h
  have hfirst : ¬ nextBeatFails (startRefill a s) := by
    rintro ⟨r, hr, herr⟩
    obtain rfl := Option.some.inj ((refill_startRefill_eq_missRefill a s).symm.trans hr)
    rw [beatAddr_missRefill, answerTo_startRefill] at herr
    exact hok herr
  obtain ⟨r, hr, rfl⟩ := beat_eq_afterBeat h hfirst
  obtain rfl := Option.some.inj ((refill_startRefill_eq_missRefill a s).symm.trans hr)
  rfl

/-- R168: a write to the page that is not detected. -/
theorem execWritePage_undetected {sz : Size} {c : Bool} {a d : Word} {s t : State}
    (hinactive : writeDetectActive s = false) (h : execWritePage sz c a d s = .next t) :
    LinesAndBufferKept s t := by
  obtain ⟨-, h⟩ := inClass_eq_next h
  obtain ⟨m, ok, -, rfl⟩ := forwardWrite_cases h
  have hforwarded : writeDetectActive (emit (.ahbmWrite a sz d ok) (setMem m (noteNotQualifying s))) = false :=
    hinactive
  rw [hforwarded]
  exact ⟨rfl, rfl⟩

/-- D22: a write of ART_CTR that neither changes the page index nor clears EN where that invalidates. -/
theorem setCtr_of_same {page : Page} {en : Bool} {s : State} (hpage : page = pcacheaddr s)
    (hkeeps : enabled s = false ∨ en = true ∨ dropsOnDisable s = false) :
    LinesAndBufferKept s (setCtr page en s) := by
  have hnot : (enabled s && !en && dropsOnDisable s) = false := by
    obtain e | e | e := hkeeps <;> simp [e]
  simp only [setCtr, hnot, if_pos hpage, unprimeWhenDisabled_eq]
  exact ⟨rfl, rfl⟩

/-- A word write that is no cause, or that PRIV_CHECK turns away (R184, D21, D24). -/
theorem execCtrWr32_no_cause {w : Word} {s t : State}
    (hno : ¬ MayWriteCtr s ∨ w.extractLsb' 8 12 = pcacheaddr s ∧
      (enabled s = false ∨ w.getLsbD 0 = true ∨ dropsOnDisable s = false))
    (h : execCtrWr32 w s = .next t) : LinesAndBufferKept s t := by
  obtain ⟨hmay, h⟩ | ⟨-, rfl⟩ := writeAccess_cases h
  · obtain ⟨hpage, hkeeps⟩ := hno.resolve_left (not_not_intro hmay)
    split at h
    · obtain rfl := Host.Outcome.next.inj h
      exact setCtr_of_same hpage hkeeps
    · cases h
  · exact ⟨rfl, rfl⟩

theorem not_invalidationCause_ctrWr32 {w : Word} {s : State} (h : ¬ invalidationCause s (.ctrWr32 w)) :
    ¬ MayWriteCtr s ∨ w.extractLsb' 8 12 = pcacheaddr s ∧
      (enabled s = false ∨ w.getLsbD 0 = true ∨ dropsOnDisable s = false) := by
  simp only [invalidationCause, ne_eq] at h
  simp only [← Bool.not_eq_true] at h ⊢
  tauto

/-- R182: a narrow write changes no validity bit. -/
theorem execCtrWrn_kept {off : BitVec 2} {n : Narrow} {d : Word} {s t : State}
    (h : execCtrWrn off n d s = .next t) : LinesAndBufferKept s t := by
  obtain ⟨-, h⟩ | ⟨-, rfl⟩ := writeAccess_cases h
  · obtain rfl := Host.Outcome.next.inj h
    split
    · obtain ⟨e, -⟩ | ⟨-, -, e⟩ := narrowWriteEn_cases s <;> rw [e] <;> exact ⟨rfl, rfl⟩
    · exact ⟨rfl, rfl⟩
  · exact ⟨rfl, rfl⟩

/-- A buffer hit is served, or waits, and then performs the next beat of a refill that is in progress (R122,
R126). -/
theorem execIfetchCHitb_cases {a : Word} {s t : State} (h : execIfetchCHitb a s = .next t) :
    LinesAndBufferKept s t ∨
      (arrivedAt s.buf.arrived (quarterOf a) = false ∧ s.refill ≠ none ∧
        beat (setInputs (.transfer (fetchBytes a) :: s.inputs) s) = .next t) := by
  obtain ⟨-, h⟩ := inClass_eq_next h
  split at h
  · obtain rfl := Host.Outcome.next.inj h
    rw [touchMatching_respond]
    obtain ⟨l, e⟩ := touchMatching_eq (indexOf a) s
    rw [e]
    exact .inl ⟨rfl, rfl⟩
  · next hq =>
    cases hr : s.refill with
    | none =>
      simp only [waitForBeat, hr] at h
      obtain rfl := Host.Outcome.next.inj h
      exact .inl ⟨rfl, rfl⟩
    | some r =>
      rw [waitForBeat_of_refill _ hr] at h
      exact .inr ⟨Bool.eq_false_of_not_eq_true hq, nofun, h⟩

/-- R121: a line hit keeps the lines, and leaves a valid buffer. -/
theorem execIfetchCHitl_linesKept {a : Word} {s t : State} (h : execIfetchCHitl a s = .next t) :
    LinesKept s t := by
  obtain ⟨-, h⟩ := inClass_eq_next h
  split at h
  · cases h
  · obtain rfl := Host.Outcome.next.inj h
    exact ⟨rfl, fun _ => rfl⟩

/-- The instructions that are a cause in no state, and evict no line (R167). -/
theorem exec_linesKept {i : Instr} {s t : State} (hi : mayInvalidate i = false) (h : exec i s = .next t) :
    LinesKept s t := by
  cases i with
  | txnRefused sz c a d => cases h
  | writeOther sz c a d => exact (execWriteOther_kept h).linesKept
  | dread sz c a => exact ((noteNotQualifying_kept s).trans (forwardRead_kept h)).linesKept
  | ifetchNc sz c a => exact (execIfetchNc_kept h).linesKept
  | ifetchCFirst a => exact (execIfetchCFirst_kept h).linesKept
  | ifetchCHitl a => exact execIfetchCHitl_linesKept h
  | ctrRd32 => exact (readAccess_kept h).linesKept
  | ctrWrn off n d => exact (execCtrWrn_kept (n := n) (d := d) h).linesKept
  | ctrRdn off n => exact (readAccess_kept h).linesKept
  | regOther write sz off d => cases h
  | writePage | ifetchCHitb | ifetchCMiss | ctrWr32 | refillBeat | refillErr | invalidateAll | reset => cases hi

/-- R160, R167: an instruction that is no cause in the state it is run in. -/
theorem exec_keepsValidity {i : Instr} {s t : State} (hno : ¬ invalidationCause s i) (h : exec i s = .next t) :
    KeepsValidity s t fun l => (∃ a : Word, i = .ifetchCMiss a) ∧ l = victim s := by
  cases i with
  | writePage sz c a d =>
    exact (execWritePage_undetected (Bool.eq_false_of_not_eq_true hno) h).linesKept.keepsValidity _
  | ifetchCHitb a =>
    obtain hkept | ⟨hq, -, hbeat⟩ := execIfetchCHitb_cases h
    · exact hkept.linesKept.keepsValidity _
    · obtain ⟨r, -, rfl⟩ := beat_eq_afterBeat hbeat fun hfails => hno ⟨hq, hfails⟩
      exact afterBeat_keepsValidity r (setInputs (.transfer (fetchBytes a) :: s.inputs) s) _
  | ifetchCMiss a =>
    obtain rfl := execIfetchCMiss_eq_afterMiss h hno
    exact afterMiss_keepsValidity a s ⟨⟨a, rfl⟩, rfl⟩
  | ctrWr32 w => exact (execCtrWr32_no_cause (not_invalidationCause_ctrWr32 hno) h).linesKept.keepsValidity _
  | refillBeat =>
    obtain ⟨r, -, rfl⟩ := beat_eq_afterBeat h hno
    exact afterBeat_keepsValidity r s _
  | refillErr | invalidateAll | reset => exact absurd trivial hno
  | txnRefused | writeOther | dread | ifetchNc | ifetchCFirst | ifetchCHitl | ctrRd32 | ctrWrn | ctrRdn
  | regOther => exact (exec_linesKept rfl h).keepsValidity _

/-- A step idles, runs an instruction or takes a change of the environment; the state in which it runs one
differs in what arrives and in the memory alone. -/
theorem step_keepsValidity {s t : State}
    (hno : ∀ (i : Instr) (u : State), nextAction s = .run i u → ¬ invalidationCause u i)
    (h : step s = .next t) :
    KeepsValidity s t fun l =>
      (∃ (a : Word) (u : State), nextAction s = .run (.ifetchCMiss a) u) ∧ l = victim s := by
  unfold step at h
  cases hnext : nextAction s with
  | idle =>
    rw [hnext] at h
    obtain rfl := Host.Outcome.next.inj h
    exact LinesKept.keepsValidity ⟨rfl, id⟩ _
  | run i u =>
    rw [hnext] at h
    obtain ⟨v, hv, rfl⟩ := redrawn_eq_next h
    obtain ⟨hlines, hbuf⟩ := exec_keepsValidity (hno i u hnext) hv
    obtain ⟨m, xs, rfl⟩ := nextAction_run hnext
    refine ⟨fun l hl => (hlines l hl).imp_right ?_, hbuf⟩
    rintro ⟨⟨a, rfl⟩, hvictim⟩
    exact ⟨⟨a, _, rfl⟩, hvictim⟩
  | become u =>
    rw [hnext] at h
    obtain rfl := Host.Outcome.next.inj h
    exact (LinesAndBufferKept.linesKept (nextAction_become hnext)).keepsValidity _
  | refuse e =>
    rw [hnext] at h
    cases h

/-- Settles O45: by the instructions that are no cause, and by each instruction that may be one where it is
not. -/
theorem noOtherCauseInvalidates : Obligations.NoOtherCauseInvalidates := by
  refine ⟨fun _ _ _ => exec_keepsValidity, fun _ _ => step_keepsValidity, fun s t i hi h l => ?lines,
    fun _ _ _ _ _ _ => execWritePage_undetected, fun _ _ _ => execCtrWr32_no_cause, fun s t a hnoBeat h => ?hit,
    fun s t a hreads h l hl => ?miss⟩
  case lines =>
    obtain ⟨hlines, -⟩ := exec_linesKept hi h
    rw [line_congr hlines]
  case hit =>
    obtain hkept | ⟨hq, hrefill, -⟩ := execIfetchCHitb_cases h
    · exact hkept
    · obtain hq' | hnone := hnoBeat
      · rw [hq] at hq'
        cases hq'
      · exact absurd hnone hrefill
  case miss =>
    obtain ⟨hok, -⟩ := hreads
    rw [execIfetchCMiss_eq_afterMiss h hok, afterMiss_line_ne a s hl]

end Sys2Proof.Machine

namespace Sys2Proof.Machine

/-! ### Accesses of ART_CTR as the shared operations that they run (R180 to R183, R190) -/

theorem exec_ctrRd32 (s : State) : exec .ctrRd32 s = readAccess .b32 (ctrRead s) s := rfl

theorem exec_ctrRdn (off : BitVec 2) (n : Narrow) (s : State) :
    exec (.ctrRdn off n) s = readAccess n.toSize (narrowReadValue off n s) s := rfl

theorem exec_ctrWr32 (w : Word) (s : State) :
    exec (.ctrWr32 w) s = writeAccess (fun s =>
      if keepsReserved w || Config.reservedPolicy == .ignore then
        .next (respond .okay (setCtr (w.extractLsb' 8 12) (w.getLsbD 0) s))
      else .refused .reservedBitsNotKept) s := rfl

theorem exec_ctrWrn (off : BitVec 2) (n : Narrow) (d : Word) (s : State) :
    exec (.ctrWrn off n d) s =
      writeAccess (fun s => .next (respond .okay (if coversByte0 off then narrowWriteEn s else s))) s := rfl

/-- A word write is taken if it keeps the reserved bits, or if they are ignored (D5). -/
theorem exec_ctrWr32_of_taken {w : Word} {s : State} (hmay : MayWriteCtr s)
    (h : keepsReserved w = true ∨ Config.reservedPolicy = .ignore) :
    exec (.ctrWr32 w) s = .next (respond .okay (setCtr (w.extractLsb' 8 12) (w.getLsbD 0) s)) := by
  rw [exec_ctrWr32, writeAccess_of_may _ hmay, if_pos (by simpa using h)]

theorem exec_ctrWr32_of_refused {w : Word} {s : State} (hmay : MayWriteCtr s)
    (hw : keepsReserved w = false) (h : Config.reservedPolicy = .refuse) :
    exec (.ctrWr32 w) s = .refused .reservedBitsNotKept := by
  rw [exec_ctrWr32, writeAccess_of_may _ hmay, if_neg (by simp [hw, h])]

theorem exec_ctrWrn_of_ne_zero {off : BitVec 2} (n : Narrow) (d : Word) {s : State} (hmay : MayWriteCtr s)
    (h : off ≠ 0) : exec (.ctrWrn off n d) s = .next (respond .okay s) := by
  rw [exec_ctrWrn, writeAccess_of_may _ hmay, if_neg (by simpa [coversByte0] using h)]

theorem exec_ctrWrn_zero (n : Narrow) (d : Word) {s : State} (hmay : MayWriteCtr s) :
    exec (.ctrWrn 0 n d) s = .next (respond .okay (narrowWriteEn s)) := by
  rw [exec_ctrWrn, writeAccess_of_may _ hmay, if_pos (show coversByte0 0 = true by decide)]

theorem onlyAnswered_respond (r : Resp) (s : State) : OnlyAnswered s (respond r s) r :=
  ⟨rfl, ⟨rfl, rfl, rfl, rfl, rfl⟩, rfl, rfl, rfl, rfl, rfl, rfl, rfl, rfl⟩

/-! ### What a read of ART_CTR gives (R180, R183) -/

theorem keepsReserved_iff (w : Word) :
    keepsReserved w = true ↔ w.extractLsb' 20 12 = 0 ∧ w.extractLsb' 1 7 = 2 := by
  simp [keepsReserved]

/-- R183 reads the bytes from the offset on, as many as the width carries. -/
theorem narrowBytes_eq_lowBits (w : Word) (off : BitVec 2) (n : Narrow) :
    narrowBytes w off n = lowBits (w >>> (8 * off.toNat)) n.toSize := by
  cases n <;> rfl

theorem holds_lowBits (w : Word) (sz : Size) : sz.holds (lowBits w sz) = true := by
  have high (j k : Nat) (x : BitVec j) : (x.setWidth 32).extractLsb' j k = 0 := by
    apply BitVec.eq_of_getLsbD_eq
    intro i _
    simp
  cases sz with
  | b8 => simp [Size.holds, lowBits, high]
  | b16 => simp [Size.holds, lowBits, high]
  | b32 => rfl

/-- The low bits of a word are its bytes below the width. -/
theorem byte_lowBits (w : Word) {sz : Size} {k : Nat} (hk : k < sizeBytes sz) :
    (lowBits w sz).extractLsb' (8 * k) 8 = w.extractLsb' (8 * k) 8 := by
  have low {j : Nat} (hj : 8 * k + 8 ≤ j) (hj' : j ≤ 32) :
      ((w.extractLsb' 0 j).setWidth 32).extractLsb' (8 * k) 8 = w.extractLsb' (8 * k) 8 := by
    apply BitVec.eq_of_getLsbD_eq
    intro i hi
    simp [hi, show 8 * k + i < 32 by omega, show 8 * k + i < j by omega]
  cases sz with
  | b8 => exact low (by simp [sizeBytes] at hk; omega) (by omega)
  | b16 => exact low (by simp [sizeBytes] at hk; omega) (by omega)
  | b32 => rfl

theorem byte_shiftRight (w : Word) (j k : Nat) :
    (w >>> (8 * j)).extractLsb' (8 * k) 8 = w.extractLsb' (8 * (j + k)) 8 := by
  apply BitVec.eq_of_getLsbD_eq
  intro i _
  simp [Nat.mul_add, Nat.add_assoc]

/-- R183: byte `k` of a narrow read is the byte of the word that stands `k` after the offset. -/
theorem byte_narrowBytes (w : Word) (off : BitVec 2) {n : Narrow} {k : Nat} (hk : k < sizeBytes n.toSize) :
    (narrowBytes w off n).extractLsb' (8 * k) 8 = w.extractLsb' (8 * (off.toNat + k)) 8 := by
  rw [narrowBytes_eq_lowBits, byte_lowBits _ hk, byte_shiftRight]

theorem narrowReadValue_of_stated (h : Config.narrowCtrAccess = .stated) (off : BitVec 2) (n : Narrow)
    (s : State) : narrowReadValue off n s = narrowBytes (ctrRead s) off n := by
  simp only [narrowReadValue, h]

theorem narrowReadValue_of_unstated (h : Config.narrowCtrAccess = .unstated) (off : BitVec 2) (n : Narrow)
    (s : State) : narrowReadValue off n s = lowBits s.draws.narrowRead n.toSize := by
  simp only [narrowReadValue, h]

theorem holds_narrowReadValue (off : BitVec 2) (n : Narrow) (s : State) :
    n.toSize.holds (narrowReadValue off n s) = true := by
  cases h : Config.narrowCtrAccess with
  | stated => rw [narrowReadValue_of_stated h, narrowBytes_eq_lowBits, holds_lowBits]
  | unstated => rw [narrowReadValue_of_unstated h, holds_lowBits]

/-! ### The reads of ART_CTR (R180, R183) -/

/-- Settles O50: the word read is made of the two fields. -/
theorem controlReadGivesTheRegister : Obligations.ControlReadGivesTheRegister := by
  refine ⟨fun s hmay => ?read, fun s hnot => ?denied⟩
  case read =>
    obtain ⟨hhigh, hlow⟩ := (keepsReserved_iff (ctrRead s)).1 (keepsReserved_ctrWord _ _)
    exact ⟨_, ctrRead s, (exec_ctrRd32 s).trans (readAccess_of_may _ _ hmay), onlyAnswered_respond _ s,
      hhigh, pcacheaddr_of_ctrWord _ _, hlow, enabled_of_ctrWord _ _, ctrWord_of_keepsReserved⟩
  case denied =>
    exact ⟨_, (exec_ctrRd32 s).trans (readAccess_of_not_may _ _ hnot), onlyAnswered_respond _ s⟩

/-- Settles O54: by whether the value of a narrow read is stated. -/
theorem narrowReadChangesNothing : Obligations.NarrowReadChangesNothing := by
  refine ⟨fun s off n hnot => ?denied, fun s off n hmay _ => ?read⟩
  case denied =>
    exact ⟨_, (exec_ctrRdn off n s).trans (readAccess_of_not_may _ _ hnot), onlyAnswered_respond _ s⟩
  case read =>
    refine ⟨_, narrowReadValue off n s, (exec_ctrRdn off n s).trans (readAccess_of_may _ _ hmay),
      onlyAnswered_respond _ s, holds_narrowReadValue off n s, ?_⟩
    split
    next h =>
      intro k hk
      rw [narrowReadValue_of_stated h, byte_narrowBytes _ _ hk]
    next h => exact narrowReadValue_of_unstated h off n s

/-! ### What a 32-bit write of ART_CTR leaves (R181) -/

/-- A write of the two fields invalidates: the page index changes (R164), or EN is cleared where that
invalidates (R168). -/
def CtrWriteDrops (page : Page) (en : Bool) (s : State) : Prop :=
  page ≠ pcacheaddr s ∨ enabled s = true ∧ en = false ∧ dropsOnDisable s = true

/-- The state `u` with the two fields of ART_CTR written, and `primed` as a write of EN in the state `s` leaves
it (R102). -/
def withCtr (page : Page) (en : Bool) (s u : State) : State :=
  { u with artCtr := ctrWord page en, primed := (unprimeWhenDisabled en s).primed }

theorem clearedAndDrops_iff (en : Bool) (s : State) :
    (enabled s && !en && dropsOnDisable s) = true ↔
      enabled s = true ∧ en = false ∧ dropsOnDisable s = true := by
  simp [and_assoc]

theorem setCtr_of_drops {page : Page} {en : Bool} {s : State} (h : CtrWriteDrops page en s) :
    setCtr page en s = withCtr page en s (flush s) := by
  by_cases hpage : page = pcacheaddr s
  · have hcleared := (clearedAndDrops_iff en s).2 (h.resolve_left (not_not_intro hpage))
    simp only [setCtr, if_pos hpage, if_pos hcleared]
    rfl
  · simp only [setCtr, if_neg hpage]
    rw [show flush { s with artCtr := ctrWord page en } =
      { flush s with artCtr := ctrWord page en } from rfl, flush_flush_artCtr, ite_self]
    rfl

theorem setCtr_of_not_drops {page : Page} {en : Bool} {s : State} (h : ¬ CtrWriteDrops page en s) :
    setCtr page en s = withCtr page en s s := by
  obtain ⟨hpage, hcleared⟩ := not_or.1 h
  simp only [setCtr, if_pos (not_not.1 hpage), if_neg (mt (clearedAndDrops_iff en s).1 hcleared)]
  rfl

/-- What every write of the two fields leaves, whether it invalidates or not. -/
theorem setCtr_frame (page : Page) (en : Bool) (s : State) :
    (setCtr page en s).artCtr = ctrWord page en ∧
      (setCtr page en s).primed = (unprimeWhenDisabled en s).primed ∧
      (setCtr page en s).trace = s.trace ∧ SameContents s (setCtr page en s) ∧
      SameSurroundings s (setCtr page en s) := by
  by_cases h : CtrWriteDrops page en s
  · rw [setCtr_of_drops h]
    exact ⟨rfl, rfl, rfl, flush_sameContents s, rfl, rfl, rfl, rfl, rfl, rfl⟩
  · rw [setCtr_of_not_drops h]
    exact ⟨rfl, rfl, rfl, ⟨fun _ => ⟨rfl, rfl⟩, rfl, rfl, rfl⟩, rfl, rfl, rfl, rfl, rfl, rfl⟩

theorem setCtr_nothingValid {page : Page} {en : Bool} {s : State} (h : CtrWriteDrops page en s) :
    NothingValid (setCtr page en s) ∧ (setCtr page en s).refill = none := by
  rw [setCtr_of_drops h]
  exact ⟨nothingValid_congr rfl rfl (flush_nothingValid s), rfl⟩

theorem setCtr_keeps_lines_buf_refill {page : Page} {en : Bool} {s : State} (h : ¬ CtrWriteDrops page en s) :
    (setCtr page en s).lines = s.lines ∧ (setCtr page en s).buf = s.buf ∧
      (setCtr page en s).refill = s.refill := by
  rw [setCtr_of_not_drops h]
  exact ⟨rfl, rfl, rfl⟩

theorem pcacheaddr_setCtr (page : Page) (en : Bool) (s : State) : pcacheaddr (setCtr page en s) = page := by
  rw [pcacheaddr, (setCtr_frame page en s).1, pcacheaddr_of_ctrWord]

theorem enabled_setCtr (page : Page) (en : Bool) (s : State) : enabled (setCtr page en s) = en := by
  rw [enabled, (setCtr_frame page en s).1, enabled_of_ctrWord]

/-! ### The writes of ART_CTR (R181, R182) -/

/-- Settles O51: by whether the write invalidates (`CtrWriteDrops`). -/
theorem controlWriteSetsTheFields : Obligations.ControlWriteSetsTheFields := by
  refine ⟨fun s w hnot => ⟨_, (exec_ctrWr32 w s).trans (writeAccess_of_not_may _ hnot),
    onlyAnswered_respond _ s⟩, fun s w hmay hkeep => ?_⟩
  obtain ⟨hctr, hprimed, htrace, hcontents, hsurroundings⟩ :=
    setCtr_frame (w.extractLsb' 8 12) (w.getLsbD 0) s
  refine ⟨_, exec_ctrWr32_of_taken hmay (.inl hkeep), hctr.trans (ctrWord_of_keepsReserved hkeep),
    pcacheaddr_setCtr _ _ s, enabled_setCtr _ _ s, congrArg (PortEvent.response .okay :: ·) htrace,
    ?moved, ?kept, ?cleared, hprimed, hcontents, setCtr_lru _ _ s, setCtr_mem _ _ s, hsurroundings⟩
  case moved => exact fun hpage => setCtr_nothingValid (.inl hpage)
  case kept =>
    intro hpage hen
    refine setCtr_keeps_lines_buf_refill ?_
    rintro (hne | ⟨hon, hoff, -⟩)
    · exact hne hpage
    · obtain hwasOff | hstaysOn := hen
      · exact Bool.false_ne_true (hwasOff.symm.trans hon)
      · exact Bool.false_ne_true (hoff.symm.trans hstaysOn)
  case cleared =>
    intro hpage hon hoff
    split
    next hdrop => exact setCtr_nothingValid (.inr ⟨hon, hoff, hdrop⟩)
    next hkeeps =>
      refine setCtr_keeps_lines_buf_refill ?_
      rintro (hne | ⟨-, -, hdrop⟩)
      · exact hne hpage
      · exact hkeeps hdrop

/-- Settles O52: by RESERVED_POLICY; a word that is taken sets the fields alone. -/
theorem reservedBitsAreNotWritten : Obligations.ReservedBitsAreNotWritten := by
  intro s w hmay hw
  split
  next h => exact exec_ctrWr32_of_refused hmay hw h
  next h =>
    obtain ⟨hctr, -⟩ := setCtr_frame (w.extractLsb' 8 12) (w.getLsbD 0) s
    exact ⟨_, exec_ctrWr32_of_taken hmay (.inr h), (congrArg keepsReserved hctr).trans (keepsReserved_ctrWord _ _),
      pcacheaddr_setCtr _ _ s, enabled_setCtr _ _ s⟩

/-! ### Narrow writes over byte 0 (R182, D6) -/

/-- A narrow write changes no field but ART_CTR and `primed`. -/
theorem narrowWriteEn_frame (s : State) :
    (narrowWriteEn s).trace = s.trace ∧ (narrowWriteEn s).lines = s.lines ∧ (narrowWriteEn s).buf = s.buf ∧
      (narrowWriteEn s).refill = s.refill ∧ (narrowWriteEn s).lru = s.lru ∧ (narrowWriteEn s).mem = s.mem ∧
      SameSurroundings s (narrowWriteEn s) := by
  obtain ⟨e, -⟩ | ⟨-, -, e⟩ := narrowWriteEn_cases s <;> rw [e] <;>
    exact ⟨rfl, rfl, rfl, rfl, rfl, rfl, rfl, rfl, rfl, rfl, rfl, rfl⟩

theorem pcacheaddr_narrowWriteEn (s : State) : pcacheaddr (narrowWriteEn s) = pcacheaddr s := by
  obtain ⟨e, -⟩ | ⟨-, -, e⟩ := narrowWriteEn_cases s <;> rw [e]
  exact pcacheaddr_of_ctrWord _ _

theorem narrowWriteEn_of_stated (h : Config.narrowCtrAccess = .stated) (s : State) : narrowWriteEn s = s := by
  simp only [narrowWriteEn, h]

theorem enabled_narrowWriteEn (h : Config.narrowCtrAccess = .unstated) (s : State) :
    enabled (narrowWriteEn s) = s.draws.narrowEn := by
  obtain ⟨e, hsame⟩ | ⟨-, -, e⟩ := narrowWriteEn_cases s <;> rw [e]
  · exact (hsame h).symm
  · exact enabled_of_ctrWord _ _

/-- R102: `primed` is cleared where EN is thereby cleared, under a policy that says so. -/
theorem narrowWriteEn_primed (h : Config.narrowCtrAccess = .unstated) (s : State) :
    (narrowWriteEn s).primed =
      if enabled s = true ∧ s.draws.narrowEn = false ∧
          (Config.firstAccessPolicy = .enable ∨ Config.firstAccessPolicy = .run) then false
      else s.primed := by
  obtain ⟨e, hsame⟩ | ⟨-, hne, e⟩ := narrowWriteEn_cases s <;> rw [e]
  · rw [if_neg]
    rintro ⟨hon, hoff, -⟩
    simp [hsame h, hon] at hoff
  · have hcleared : s.draws.narrowEn = false → enabled s = true := fun hoff => by simpa [hoff] using hne.symm
    refine if_congr ?_ rfl rfl
    exact ⟨fun ⟨hoff, hpolicy⟩ => ⟨hcleared hoff, hoff, hpolicy⟩, fun ⟨_, hrest⟩ => hrest⟩

/-- Settles O53: by whether the write covers byte 0. -/
theorem narrowWriteKeepsThePage : Obligations.NarrowWriteKeepsThePage := by
  refine ⟨fun s off n d hnot => ⟨_, (exec_ctrWrn off n d s).trans (writeAccess_of_not_may _ hnot),
    onlyAnswered_respond _ s⟩, fun s off n d hmay => ?_⟩
  by_cases hoff : off = 0
  case neg =>
    exact ⟨_, exec_ctrWrn_of_ne_zero n d hmay hoff, rfl, rfl, fun _ => ⟨⟨rfl, rfl, rfl, rfl, rfl⟩, rfl⟩,
      fun h => absurd h hoff, rfl, rfl, rfl, rfl, rfl, rfl, rfl, rfl, rfl, rfl, rfl⟩
  case pos =>
    subst hoff
    obtain ⟨htrace, hframe⟩ := narrowWriteEn_frame s
    refine ⟨_, exec_ctrWrn_zero n d hmay, pcacheaddr_narrowWriteEn s,
      congrArg (PortEvent.response .okay :: ·) htrace, fun h => absurd rfl h, fun _ => ?byte0, hframe⟩
    split
    next h =>
      rw [narrowWriteEn_of_stated h]
      exact ⟨⟨rfl, rfl, rfl, rfl, rfl⟩, rfl⟩
    next h => exact ⟨enabled_narrowWriteEn h s, narrowWriteEn_primed h s⟩

/-! ### Other offsets (R188) -/

/-- Settles O59: the class has no other meaning than the refusal (D2). -/
theorem otherOffsetsAreRefused : Obligations.OtherOffsetsAreRefused := fun _ _ _ _ _ => rfl

end Sys2Proof.Machine

namespace Sys2Proof.Machine

/-! ### Clock and power changes (R212) -/

/-- No beat of a refill comes before a clock or power change, whatever the draw says. -/
theorem beatComesFirst_of_powerChange {s : State} {rest : List Input}
    (hin : s.inputs = .powerOrClockChange :: rest) : beatComesFirst s = false := by
  simp only [beatComesFirst, hin]

theorem actOnInput_of_powerChange {s : State} {rest : List Input}
    (hin : s.inputs = .powerOrClockChange :: rest) : actOnInput s = .refuse .powerOrClockChange := by
  simp only [actOnInput, hin]

theorem nextAction_of_powerChange {s : State} {rest : List Input}
    (hin : s.inputs = .powerOrClockChange :: rest) : nextAction s = .refuse .powerOrClockChange := by
  have hact := actOnInput_of_powerChange hin
  cases hr : s.refill with
  | none => exact (nextAction_of_no_refill hr).trans hact
  | some r => simp only [nextAction, hr, beatComesFirst_of_powerChange hin, Bool.false_eq_true, if_false, hact]

theorem step_of_refuse {s : State} {e : Refusal} (h : nextAction s = .refuse e) : step s = .refused e := by
  simp only [step, h]

/-- Settles O60: the change is what the step meets, with a refill in progress or without (D32). -/
theorem powerChangeIsRefused : Obligations.PowerChangeIsRefused :=
  fun _ _ hin => step_of_refuse (nextAction_of_powerChange hin)

end Sys2Proof.Machine

namespace Sys2Proof.Machine

/-! ### The event RESET (R230) -/

theorem exec_reset (s : State) : exec .reset s = .next (resetArt s) := rfl

/-- The event and the reset state have the same word in ART_CTR, so the same fields (R40). -/
theorem resetArt_artCtr_eq_reset (s : State) : (resetArt s).artCtr = State.reset.artCtr := rfl

@[simp] theorem enabled_resetArt (s : State) : enabled (resetArt s) = false := by
  obtain ⟨-, hen, -⟩ := resetStateHasResetValues
  exact (enabled_congr (resetArt_artCtr_eq_reset s)).trans hen

@[simp] theorem pcacheaddr_resetArt (s : State) : pcacheaddr (resetArt s) = 0 := by
  obtain ⟨-, -, hpage, -⟩ := resetStateHasResetValues
  exact (pcacheaddr_congr (resetArt_artCtr_eq_reset s)).trans hpage

/-- The event is of the ART alone: the environment and the model's own fields stay (log 24). -/
theorem resetArt_sameSurroundings (s : State) : SameSurroundings s (resetArt s) :=
  ⟨resetArt_answers s, resetArt_readEffects s, resetArt_privileged s, resetArt_inputs s, resetArt_draws s,
    resetArt_tick s⟩

/-- Settles O11: the event runs `resetArt`, whose fields are R40's whatever the state before was. -/
theorem resetEventGivesResetValues : Obligations.ResetEventGivesResetValues := fun s =>
  ⟨resetArt s, exec_reset s, resetArt_artCtr s, enabled_resetArt s, pcacheaddr_resetArt s,
    resetArt_nothingValid s, resetArt_primed s, resetArt_refill s, resetArt_mem s, resetArt_trace s,
    resetArt_sameSurroundings s⟩

end Sys2Proof.Machine
